-- ==== Sys2Proof/Word.lean ====
section
/-! DEFINITION. The data types of the line codec: the Byte and the two block types (spec 00_scope.md R3). -/

namespace Sys2Proof

/-- "opaque 8-bit value, the atomic unit" (R3). Bit 7 is the most significant bit, bit 0 the least (00_scope.md 6.1). -/
abbrev Byte := BitVec 8

/-- A RawBlock is exactly 7 bytes, `r[0]` to `r[6]` (R3). -/
abbrev RawBlock := Vector Byte 7

/-- An EncodedBlock is exactly 8 bytes, `e[0]` (the guard byte) to `e[7]` (R3). -/
abbrev EncodedBlock := Vector Byte 8

end Sys2Proof
end

