-- ==== Sys2Proof/Syntax.lean ====
section
/-! DEFINITION. The commands (one constructor of `Instr` for each row of spec/opcode_table.json), their operands, and the
request that carries a command over the interface (spec 30_encoding.md). -/

namespace Sys2Proof

/-- A view operand `(ref, bound)` (R53). "a model takes the sequence itself": `ref` is the byte sequence the host names,
for an input view the bytes to be pulled, for an output view what the host has left in the buffer. -/
structure ViewOperand where
  ref : List Byte
  deriving DecidableEq, Repr

/-- The bound of a view operand, the length of an input view, the capacity of an output view (R53): it is the length of the
sequence, so that a bound that lies cannot be expressed (93_implementation_defined.md U6). -/
def ViewOperand.bound (v : ViewOperand) : Nat := v.ref.length

/-- A block operand `(BLK_N, BLK_DATA)` as it stands on the interface (R54). -/
structure BlockOperand where
  /-- `BLK_N`: how many bytes the host presents, 0 to 15. -/
  n : BitVec 4
  /-- `BLK_DATA`: byte `i` of the block in bits `[8i+7 : 8i]`. -/
  data : BitVec 64
  deriving DecidableEq, Repr

/-- A request (R50): the 4-bit command code `OP` (R51) and the operands. A command reads only the operands that R53 and R54
give it; the others are not looked at (assumption log 6). -/
structure Request where
  op : BitVec 4
  inView : ViewOperand
  outView : ViewOperand
  blk : BlockOperand
  deriving DecidableEq, Repr

/-- The commands: the opcode map of R52, the two reserved codes included. -/
inductive Instr where
  /-- 0x0 `ENC.INIT` (R80). -/
  | encInit
  /-- 0x1 `ENC.BIND` (R81). -/
  | encBind (inView outView : ViewOperand)
  /-- 0x2 `ENC.REBIND_IN` (R82). -/
  | encRebindIn (inView : ViewOperand)
  /-- 0x3 `ENC.REBIND_OUT` (R83). -/
  | encRebindOut (outView : ViewOperand)
  /-- 0x4 `ENC.ENCODE` (R94). -/
  | encEncode
  /-- 0x5 `ENC.FINALIZE` (R95). -/
  | encFinalize
  /-- 0x6 `ENCBLK` (R76). -/
  | encblk (blk : BlockOperand)
  /-- 0x7, reserved (R57). -/
  | reserved7
  /-- 0x8 `DEC.INIT` (R80). -/
  | decInit
  /-- 0x9 `DEC.BIND` (R81). -/
  | decBind (inView outView : ViewOperand)
  /-- 0xA `DEC.REBIND_IN` (R82). -/
  | decRebindIn (inView : ViewOperand)
  /-- 0xB `DEC.REBIND_OUT` (R83). -/
  | decRebindOut (outView : ViewOperand)
  /-- 0xC `DEC.DECODE` (R114). -/
  | decDecode
  /-- 0xD `DEC.FINALIZE` (R115). -/
  | decFinalize
  /-- 0xE `DECBLK` (R77). -/
  | decblk (blk : BlockOperand)
  /-- 0xF, reserved (R57). -/
  | reservedF
  deriving DecidableEq, Repr

end Sys2Proof
end

