-- ==== Sys2Proof/WellFormed.lean ====
section
/-! DEFINITION. Which commands a host of `POSW`-bit view registers can present (R53, R4). -/

namespace Sys2Proof

/-- "`bound` is an unsigned `POSW`-bit number", "from 0 to `2^POSW − 1`" (R53). -/
def ViewOperand.fits (posw : Nat) (v : ViewOperand) : Bool :=
  decide (v.bound < 2 ^ posw)

/-- Every view operand of the command fits the view registers. No other operand value is illegal (R57): a block operand of
the wrong size is well formed, and answered `BlockSizeError`. -/
def Instr.wellFormed (posw : Nat) : Instr → Bool
  | .encInit => true
  | .encBind i o => i.fits posw && o.fits posw
  | .encRebindIn i => i.fits posw
  | .encRebindOut o => o.fits posw
  | .encEncode => true
  | .encFinalize => true
  | .encblk _ => true
  | .reserved7 => true
  | .decInit => true
  | .decBind i o => i.fits posw && o.fits posw
  | .decRebindIn i => i.fits posw
  | .decRebindOut o => o.fits posw
  | .decDecode => true
  | .decFinalize => true
  | .decblk _ => true
  | .reservedF => true

end Sys2Proof
end

