-- ==== Sys2Proof/Decode.lean ====
section
/-! DEFINITION. The command decoder and the encoder (spec 30_encoding.md R51 to R54, opcode_table.json). -/

namespace Sys2Proof

/-- Why a number is not a command code. -/
inductive DecodeError where
  /-- the number has a bit set above `OP[3]`; "The command code is one fixed-width 4-bit word" (R51). -/
  | widerThanOpw (w : Nat)
  deriving DecidableEq, Repr

/-- `OP[3]`, the `UNIT` field (R51): false selects `ENC`, true selects `DEC`. -/
def unitField (op : BitVec 4) : Bool := op.getLsbD 3

/-- `OP[2:0]`, the `FN` field (R51). -/
def fnField (op : BitVec 4) : Nat := op.toNat % 8

/-- Decoding a request: the opcode map of R52. All sixteen codes have an arm; the two codes with `FN = 7` are the reserved
ones (R57). "the operands that follow are determined by `FN` alone" (R51). -/
def decode (r : Request) : Instr :=
  match unitField r.op, fnField r.op with
  | false, 0 => .encInit
  | false, 1 => .encBind r.inView r.outView
  | false, 2 => .encRebindIn r.inView
  | false, 3 => .encRebindOut r.outView
  | false, 4 => .encEncode
  | false, 5 => .encFinalize
  | false, 6 => .encblk r.blk
  | false, _ => .reserved7   -- FN < 8, so this is FN = 7
  | true, 0 => .decInit
  | true, 1 => .decBind r.inView r.outView
  | true, 2 => .decRebindIn r.inView
  | true, 3 => .decRebindOut r.outView
  | true, 4 => .decDecode
  | true, 5 => .decFinalize
  | true, 6 => .decblk r.blk
  | true, _ => .reservedF   -- FN < 8, so this is FN = 7

/-- An operand that is not presented: no bytes. -/
def ViewOperand.none : ViewOperand := ⟨[]⟩

/-- A block operand of zeros. -/
def BlockOperand.none : BlockOperand := ⟨0, 0⟩

/-- The request that carries the code `op` and operands of zeros. -/
def bareRequest (op : BitVec 4) : Request :=
  ⟨op, ViewOperand.none, ViewOperand.none, BlockOperand.none⟩

/-- The encoder: the code column of R52, with the operands of R53 and R54 on their own fields and zeros elsewhere. -/
def encode : Instr → Request
  | .encInit => bareRequest 0x0
  | .encBind i o => { bareRequest 0x1 with inView := i, outView := o }
  | .encRebindIn i => { bareRequest 0x2 with inView := i }
  | .encRebindOut o => { bareRequest 0x3 with outView := o }
  | .encEncode => bareRequest 0x4
  | .encFinalize => bareRequest 0x5
  | .encblk b => { bareRequest 0x6 with blk := b }
  | .reserved7 => bareRequest 0x7
  | .decInit => bareRequest 0x8
  | .decBind i o => { bareRequest 0x9 with inView := i, outView := o }
  | .decRebindIn i => { bareRequest 0xA with inView := i }
  | .decRebindOut o => { bareRequest 0xB with outView := o }
  | .decDecode => bareRequest 0xC
  | .decFinalize => bareRequest 0xD
  | .decblk b => { bareRequest 0xE with blk := b }
  | .reservedF => bareRequest 0xF

/-- A number read as a command code. -/
def codeOfWord (w : Nat) : Except DecodeError (BitVec 4) :=
  if w < 16 then .ok (BitVec.ofNat 4 w) else .error (.widerThanOpw w)

/-- The instruction whose table word is `w` (bits at `nbits` and above are 0), its operands zeros. -/
def decodeTableWord (nbits w : Nat) : Option Instr :=
  match codeOfWord (w % 2 ^ nbits) with
  | .ok op => some (decode (bareRequest op))
  | .error _ => none

end Sys2Proof
end

