-- ==== Sys2Proof/Config.lean ====
section
/-! DEFINITION. What is fixed for the machine (the parameters of R4) and the free values the spec leaves open.

`POSW`, the width of the view registers, is OPEN in R4 ("the model may take positions and bounds as natural numbers"):
State holds natural numbers, and `POSW` is an ARGUMENT of `Instr.wellFormed` and of `Safety.PositionsFit`. -/

namespace Sys2Proof

/-- `DEC_TAIL_POLICY` (R4, R116): what the Decoder drains from its final zero-padded block. -/
inductive TailPolicy where
  /-- all of `RS[0] .. RS[6]`: the value this hardware takes. -/
  | drainAll
  /-- only the raw bytes whose body byte was really received. -/
  | suppressPad
  deriving DecidableEq, Repr

namespace Config

/-- The value of `DEC_TAIL_POLICY` for this hardware (R4, R116). -/
def decTailPolicy : TailPolicy := .drainAll

/-- FREE VALUE. The bytes that `INIT` leaves in the staging registers: "RS[0..6], ES[0..7] : left unspecified" (R80, R25).
It is applied to the counter `State.free`; it has no body, so no proof can see a value (assumption log 2). -/
opaque freeByte : Nat → Byte

end Config

end Sys2Proof
end

