-- ==== Sys2Proof/Machine/State.lean ====
section
/-! DEFINITION. The state of the line codec (spec 10_state.md): two units, each with its staging registers, flags, counters
and views, and the host interface (requests not yet issued, responses already returned). -/

namespace Sys2Proof.Machine

/-- A view space (R30), a byte for each index: a list of cells in one canonical form, `Memory.wf` of Machine/Ops.lean. -/
abbrev Memory := List Host.Cell

/-- An input view `(IN, IN_LEN, IN_POS)` (R20, R22). -/
structure InView where
  /-- `IN`, the input view space (R30). -/
  space : Memory
  /-- `IN_LEN`, the number of bytes of the bound view. -/
  len : Nat
  /-- `IN_POS`, the number of bytes already pulled. -/
  pos : Nat
  deriving DecidableEq, Repr

/-- An output view `(OUT, OUT_CAP, OUT_POS)` (R20, R23). -/
structure OutView where
  /-- `OUT`, the output view space (R30). -/
  space : Memory
  /-- `OUT_CAP`, the capacity of the bound view. -/
  cap : Nat
  /-- `OUT_POS`, the number of bytes already drained into the view. -/
  pos : Nat
  deriving DecidableEq, Repr

/-- The Encoder unit `ENC` (R10). -/
structure Enc where
  /-- `FIN`, the Finalized flag (R13). -/
  fin : Bool
  /-- `PEND`: an EncodedBlock in `ES` has undrained bytes (R15). -/
  pend : Bool
  /-- `RCNT`, raw bytes staged, modulo 7 (R14). -/
  rcnt : Fin 7
  /-- `ECNT`, encoded bytes drained from the pending block, modulo 8 (R16). -/
  ecnt : Fin 8
  /-- `RS[0..6]`, the raw staging registers: the input staging of `ENC` (R11). -/
  rs : RawBlock
  /-- `ES[0..7]`, the encoded staging registers: the result staging of `ENC` (R12). -/
  es : EncodedBlock
  inp : InView
  out : OutView
  deriving DecidableEq, Repr

/-- The Decoder unit `DEC` (R10), the block roles exchanged (R110). -/
structure Dec where
  /-- `FIN`, the Finalized flag (R13). -/
  fin : Bool
  /-- `PEND`: a RawBlock in `RS` has undrained bytes (R15). -/
  pend : Bool
  /-- `RCNT`, raw bytes drained from the pending block, modulo 7 (R14). -/
  rcnt : Fin 7
  /-- `ECNT`, encoded bytes staged, modulo 8 (R16). -/
  ecnt : Fin 8
  /-- `RLIM`, how many bytes of the pending RawBlock are to be drained (R18). -/
  rlim : Fin 8
  /-- `RS[0..6]`: the result staging of `DEC` (R11). -/
  rs : RawBlock
  /-- `ES[0..7]`: the input staging of `DEC` (R12). -/
  es : EncodedBlock
  inp : InView
  out : OutView
  deriving DecidableEq, Repr

/-- The responses (R56). "never produced: a model's response type has seven values" (93_implementation_defined.md U9). -/
inductive Rsp where
  | allInputConsumed
  | needsMoreOutput
  | alreadyFinalized
  | finished
  | blockSizeError
  | illegalCommand
  | done
  deriving DecidableEq, Repr

/-- A response (R55): the code `RSP`, and `BLK_RES` for an `ENCBLK` or `DECBLK` that succeeds. -/
structure Reply where
  rsp : Rsp
  blkRes : Option (BitVec 64)
  deriving DecidableEq, Repr

/-- The `UNIT` a host action is about. -/
inductive UnitSel where
  | enc
  | dec
  deriving DecidableEq, Repr

/-- What the host does to the block, one action at a time (R5, R163). -/
inductive HostAct where
  /-- issue a command transaction (R50). -/
  | request (r : Request)
  /-- between commands, change the byte at index `i` of the unit's input view space (R43). -/
  | editIn (u : UnitSel) (i : Nat) (b : Byte)
  /-- reset the block (R150). -/
  | reset
  deriving DecidableEq, Repr

/-- The whole machine. `enc` and `dec` are the hardware (10_state.md); `host` and `replies` are the two sides of the
interface (R50, R55) and `free` is the model's own counter of free values (assumption logs 2, 3, 4). -/
structure State where
  enc : Enc
  dec : Dec
  /-- the host's actions still to come, the next one first. -/
  host : List HostAct
  /-- the responses the host has been given, the oldest first; no hardware register (R26, R55). -/
  replies : List Reply
  /-- how many free values have been drawn. -/
  free : Nat
  deriving DecidableEq, Repr

/-- Reasons for which the machine stops. There are none: "A unit is never stuck: every command is accepted in every state"
(R8), "Every outcome of a command, ordinary or faulty, is a value in the command's response" (R130). The two fault responses
`BlockSizeError` and `IllegalCommand` are values of `Rsp`, after which the machine goes on (R137). -/
inductive Fault where
  deriving DecidableEq, Repr

/-- Reasons for which the model gives a command no meaning. -/
inductive Refusal where
  /-- raised only by an arm of `exec` whose instruction has no meaning in the model yet (safe); no arm of `exec` raises it. -/
  | notModelled (mnemonic : String)
  deriving DecidableEq, Repr

/-- The empty input view, exhausted (R25). -/
def InView.empty : InView := ⟨[], 0, 0⟩

/-- The empty output view, exhausted (R25). -/
def OutView.empty : OutView := ⟨[], 0, 0⟩

/-- The machine right after reset: the table of R25. The staging bytes, which R25 leaves unspecified, are 0x00
(DESIGN CHOICE, assumption log 1); the host has issued nothing. -/
def State.reset : State where
  enc :=
    { fin := false, pend := false, rcnt := 0, ecnt := 0
      rs := #v[0, 0, 0, 0, 0, 0, 0], es := #v[0, 0, 0, 0, 0, 0, 0, 0]
      inp := InView.empty, out := OutView.empty }
  dec :=
    { fin := false, pend := false, rcnt := 0, ecnt := 0, rlim := 7
      rs := #v[0, 0, 0, 0, 0, 0, 0], es := #v[0, 0, 0, 0, 0, 0, 0, 0]
      inp := InView.empty, out := OutView.empty }
  host := []
  replies := []
  free := 0

end Sys2Proof.Machine
end

