-- ==== Sys2Proof/Machine/Ops.lean ====
section
/-! DEFINITION. The shared operations: view spaces, the access primitives `Pull` and `Drain` (spec 20_memory.md), responses and
the fault response (30_encoding.md, 60_exceptions.md), construction (41_binding.md R80, 70_reset_and_hazards.md R150), and
what the host may do between commands (R43, R24). -/

namespace Sys2Proof.Machine

/-! ### View spaces -/

/-- What an index reads as that the list of cells does not hold: the cells list the bytes of the bound sequence that differ
from this one (assumption log 5). -/
def Memory.unlisted : Byte := 0x00

/-- `MemRead(space, i, 1)` (00_scope.md 6.3). -/
def Memory.read : Memory → Nat → Byte
  | [], _ => Memory.unlisted
  | (a, b) :: m, i => if i = a then b else Memory.read m i

/-- The cells of every index but `i`. -/
def Memory.without (m : Memory) (i : Nat) : Memory := m.filter fun c => decide (c.1 ≠ i)

/-- A cell put in its place by rising index. -/
def Memory.place : Memory → Nat → Byte → Memory
  | [], i, v => [(i, v)]
  | (a, b) :: m, i, v => if i < a then (i, v) :: (a, b) :: m else (a, b) :: Memory.place m i v

/-- `MemWrite(space, i, 1, v)` (00_scope.md 6.3), keeping the canonical form. -/
def Memory.write (m : Memory) (i : Nat) (v : Byte) : Memory :=
  if v = Memory.unlisted then Memory.without m i else Memory.place (Memory.without m i) i v

/-- The cells of a byte sequence laid at index `k` and up. -/
def Memory.ofBytesFrom : Nat → List Byte → Memory
  | _, [] => []
  | k, b :: bs =>
    if b = Memory.unlisted then Memory.ofBytesFrom (k + 1) bs else (k, b) :: Memory.ofBytesFrom (k + 1) bs

/-- The space that a byte sequence is: its byte `i` at index `i` (R30: "index 0 is the first byte of the view as bound"). -/
def Memory.ofBytes (bs : List Byte) : Memory := Memory.ofBytesFrom 0 bs

/-- The canonical form from index `lo` up. -/
def Memory.wfFrom : Nat → Memory → Bool
  | _, [] => true
  | lo, (a, b) :: m => decide (lo ≤ a) && decide (b ≠ Memory.unlisted) && Memory.wfFrom (a + 1) m

/-- The canonical form: indices strictly rising, no cell that holds what an unlisted index reads as. -/
def Memory.wf (m : Memory) : Bool := Memory.wfFrom 0 m

/-- No cell at or beyond `bound`: a space has the indices `0` to `bound − 1` only (R30). -/
def Memory.within (bound : Nat) (m : Memory) : Bool := m.all fun c => decide (c.1 < bound)

/-! ### The access primitives -/

/-- `IN_POS < IN_LEN`: the input view has a byte to give (R33). -/
def InView.hasByte (v : InView) : Bool := decide (v.pos < v.len)

/-- How many bytes the input view can still give (R21). -/
def InView.avail (v : InView) : Nat := v.len - v.pos

/-- An input view is exhausted when `IN_POS = IN_LEN` (R21). -/
def InView.exhausted (v : InView) : Bool := decide (v.pos = v.len)

/-- The byte that `Pull()` returns (R33). -/
def InView.head (v : InView) : Byte := Memory.read v.space v.pos

/-- What `Pull()` does to the view: `IN_POS <- IN_POS + 1` (R33). -/
def InView.pull (v : InView) : InView := { v with pos := v.pos + 1 }

/-- `OUT_POS < OUT_CAP`: the output view accepts a byte (R34). -/
def OutView.hasRoom (v : OutView) : Bool := decide (v.pos < v.cap)

/-- How many bytes the output view still accepts (R21). -/
def OutView.room (v : OutView) : Nat := v.cap - v.pos

/-- An output view is exhausted when `OUT_POS = OUT_CAP` (R21). -/
def OutView.exhausted (v : OutView) : Bool := decide (v.pos = v.cap)

/-- `Drain(v)` (R34): store the byte at `OUT_POS`, then `OUT_POS <- OUT_POS + 1`. -/
def OutView.drain (v : OutView) (b : Byte) : OutView :=
  { v with space := Memory.write v.space v.pos b, pos := v.pos + 1 }

/-! ### Responses -/

/-- The end of a transaction: the response goes to the host (R55). -/
def respond (r : Rsp) (s : State) : State := { s with replies := s.replies ++ [⟨r, none⟩] }

/-- The response `Done` with a block result (R55, R56). -/
def respondBlock (res : BitVec 64) (s : State) : State := { s with replies := s.replies ++ [⟨.done, some res⟩] }

/-- `RSP`, the 3-bit code of a response (R56). -/
def rspCode : Rsp → BitVec 3
  | .allInputConsumed => 0
  | .needsMoreOutput => 1
  | .alreadyFinalized => 2
  | .finished => 3
  | .blockSizeError => 4
  | .illegalCommand => 5
  | .done => 6

/-- The two fault responses (R133). -/
inductive FaultRsp where
  /-- `BlockSizeError` (R131). -/
  | blockSize
  /-- `IllegalCommand` (R132). -/
  | illegal
  deriving DecidableEq, Repr

/-- The response of a fault (R133). -/
def faultRsp : FaultRsp → Rsp
  | .blockSize => .blockSizeError
  | .illegal => .illegalCommand

/-- `raise`: taking an exception (R136). "The faulting command's only effect is its response": no state is saved, no mode
changes, nothing is recorded, and the unit accepts the next command (R130, R137). There is no return from it (R137). -/
def raiseFault (f : FaultRsp) (s : State) : Host.Outcome State Fault Refusal := .next (respond (faultRsp f) s)

/-! ### Construction and reset -/

/-- Seven free values for `RS` (R25, R80). -/
def freeRaw (k : Nat) : RawBlock :=
  #v[Config.freeByte k, Config.freeByte (k + 1), Config.freeByte (k + 2), Config.freeByte (k + 3),
    Config.freeByte (k + 4), Config.freeByte (k + 5), Config.freeByte (k + 6)]

/-- Eight free values for `ES` (R25, R80). -/
def freeEncoded (k : Nat) : EncodedBlock :=
  #v[Config.freeByte k, Config.freeByte (k + 1), Config.freeByte (k + 2), Config.freeByte (k + 3),
    Config.freeByte (k + 4), Config.freeByte (k + 5), Config.freeByte (k + 6), Config.freeByte (k + 7)]

/-- Constructing the Encoder afresh (R80): the table of R25, with free values in the staging registers. -/
def constructEnc (s : State) : State :=
  { s with
    enc :=
      { fin := false, pend := false, rcnt := 0, ecnt := 0
        rs := freeRaw s.free, es := freeEncoded (s.free + 7)
        inp := InView.empty, out := OutView.empty }
    free := s.free + 15 }

/-- Constructing the Decoder afresh (R80): the table of R25, with free values in the staging registers. -/
def constructDec (s : State) : State :=
  { s with
    dec :=
      { fin := false, pend := false, rcnt := 0, ecnt := 0, rlim := 7
        rs := freeRaw s.free, es := freeEncoded (s.free + 7)
        inp := InView.empty, out := OutView.empty }
    free := s.free + 15 }

/-- A reset of the block "puts both units into the constructed state, exactly as if `ENC.INIT` and `DEC.INIT` had been
issued" (R150), but for the two responses: no command was issued (DESIGN CHOICE, assumption log 12). -/
def blockReset (s : State) : State := constructDec (constructEnc s)

/-! ### The host between commands -/

/-- The host changes a byte of an input view space (R43). An index outside the view is no byte of the space (R30). -/
def InView.edit (v : InView) (i : Nat) (b : Byte) : InView :=
  if i < v.len then { v with space := Memory.write v.space i b } else v

/-- The host changes a byte of the named unit's input view space (R43). -/
def hostEdit (u : UnitSel) (i : Nat) (b : Byte) (s : State) : State :=
  match u with
  | .enc => { s with enc := { s.enc with inp := s.enc.inp.edit i b } }
  | .dec => { s with dec := { s.dec with inp := s.dec.inp.edit i b } }

/-- What the host may read of a unit between commands: the view registers (R24) and the bytes of `OUT` (R43, R163). -/
structure Observed where
  inPos : Nat
  inLen : Nat
  outPos : Nat
  outCap : Nat
  /-- `OUT[0 .. OUT_CAP−1]`, every byte of the output view space (R30): those the unit has written, and at `OUT_POS` and above
  what the host left there (R34). -/
  outBytes : List Byte
  deriving DecidableEq, Repr

/-- `OUT[0 .. OUT_POS−1]`, the bytes the unit has written into this view, in order (R23). -/
def Observed.written (o : Observed) : List Byte := o.outBytes.take o.outPos

/-- The bytes of a space from index `k` on, `n` of them. -/
def Memory.slice (m : Memory) (k n : Nat) : List Byte := (List.range' k n).map (Memory.read m)

/-- What the host sees of the two views of a unit (R24, R43, R163). -/
def observeViews (i : InView) (o : OutView) : Observed :=
  ⟨i.pos, i.len, o.pos, o.cap, Memory.slice o.space 0 o.cap⟩

/-- What the host sees of a unit between commands (R24, R43, R163). -/
def observe (u : UnitSel) (s : State) : Observed :=
  match u with
  | .enc => observeViews s.enc.inp s.enc.out
  | .dec => observeViews s.dec.inp s.dec.out

end Sys2Proof.Machine
end

