-- ==== Sys2Proof/Machine/Operands.lean ====
section
/-! DEFINITION. The operand forms: the view operand (spec 30_encoding.md R53) and the block operand and result (R54). -/

namespace Sys2Proof.Machine

/-- Binding an input view operand: `IN <- the sequence named by in_ref ; IN_LEN <- in_len ; IN_POS <- 0` (R81, R82). -/
def bindIn (v : ViewOperand) : InView := ⟨Memory.ofBytes v.ref, v.bound, 0⟩

/-- Binding an output view operand: `OUT <- the sequence named by out_ref ; OUT_CAP <- out_cap ; OUT_POS <- 0` (R81, R83). -/
def bindOut (v : ViewOperand) : OutView := ⟨Memory.ofBytes v.ref, v.bound, 0⟩

/-- Byte `i` of a block port word: bits `[8i+7 : 8i]` (R54). -/
def blkByte (w : BitVec 64) (i : Nat) : Byte := w.extractLsb' (8 * i) 8

/-- The RawBlock presented to `ENCBLK`: bytes 0 to 6 of `BLK_DATA` (R54). -/
def rawOperand (b : BlockOperand) : RawBlock :=
  #v[blkByte b.data 0, blkByte b.data 1, blkByte b.data 2, blkByte b.data 3, blkByte b.data 4, blkByte b.data 5,
    blkByte b.data 6]

/-- The EncodedBlock presented to `DECBLK`: bytes 0 to 7 of `BLK_DATA` (R54). -/
def encodedOperand (b : BlockOperand) : EncodedBlock :=
  #v[blkByte b.data 0, blkByte b.data 1, blkByte b.data 2, blkByte b.data 3, blkByte b.data 4, blkByte b.data 5,
    blkByte b.data 6, blkByte b.data 7]

/-- `BLK_RES` of `ENCBLK`: 8 bytes in `BLK_RES[63:0]` (R54). -/
def packEncoded (e : EncodedBlock) : BitVec 64 :=
  e[7] ++ e[6] ++ e[5] ++ e[4] ++ e[3] ++ e[2] ++ e[1] ++ e[0]

/-- `BLK_RES` of `DECBLK`: 7 bytes in `BLK_RES[55:0]`, and `BLK_RES[63:56] = 0` (R54). -/
def packRaw (r : RawBlock) : BitVec 64 :=
  (0 : Byte) ++ r[6] ++ r[5] ++ r[4] ++ r[3] ++ r[2] ++ r[1] ++ r[0]

end Sys2Proof.Machine
end

