-- ==== Sys2Proof/Machine/Binding.lean ====
section
/-! DEFINITION. Construction and view binding (spec 41_binding.md). None of these looks at `FIN` (R85, R135 item 3). -/

namespace Sys2Proof.Machine

/-- Replacing the input view of `ENC`; nothing else changes (R82, R84). -/
def encSetIn (v : ViewOperand) (s : State) : State := { s with enc := { s.enc with inp := bindIn v } }

/-- Replacing the output view of `ENC`; nothing else changes (R83, R84). -/
def encSetOut (v : ViewOperand) (s : State) : State := { s with enc := { s.enc with out := bindOut v } }

/-- Replacing the input view of `DEC`; nothing else changes (R82, R84). -/
def decSetIn (v : ViewOperand) (s : State) : State := { s with dec := { s.dec with inp := bindIn v } }

/-- Replacing the output view of `DEC`; nothing else changes (R83, R84). -/
def decSetOut (v : ViewOperand) (s : State) : State := { s with dec := { s.dec with out := bindOut v } }

/-- `ENC.INIT` (R80). -/
def execEncInit (s : State) : Host.Outcome State Fault Refusal := .next (respond .done (constructEnc s))

/-- `ENC.BIND` (R81). -/
def execEncBind (inView outView : ViewOperand) (s : State) : Host.Outcome State Fault Refusal :=
  .next (respond .done (encSetOut outView (encSetIn inView s)))

/-- `ENC.REBIND_IN` (R82). -/
def execEncRebindIn (inView : ViewOperand) (s : State) : Host.Outcome State Fault Refusal :=
  .next (respond .done (encSetIn inView s))

/-- `ENC.REBIND_OUT` (R83). -/
def execEncRebindOut (outView : ViewOperand) (s : State) : Host.Outcome State Fault Refusal :=
  .next (respond .done (encSetOut outView s))

/-- `DEC.INIT` (R80). -/
def execDecInit (s : State) : Host.Outcome State Fault Refusal := .next (respond .done (constructDec s))

/-- `DEC.BIND` (R81). -/
def execDecBind (inView outView : ViewOperand) (s : State) : Host.Outcome State Fault Refusal :=
  .next (respond .done (decSetOut outView (decSetIn inView s)))

/-- `DEC.REBIND_IN` (R82). -/
def execDecRebindIn (inView : ViewOperand) (s : State) : Host.Outcome State Fault Refusal :=
  .next (respond .done (decSetIn inView s))

/-- `DEC.REBIND_OUT` (R83). -/
def execDecRebindOut (outView : ViewOperand) (s : State) : Host.Outcome State Fault Refusal :=
  .next (respond .done (decSetOut outView s))

end Sys2Proof.Machine
end

