-- ==== Sys2Proof/Machine/Flags.lean ====
section
/-! DEFINITION. The stream position `(FIN, PEND, RCNT, ECNT)` (spec 10_state.md R13 to R18): the counters' successors, the
tests on them, and the phase they stand for. There are no other flags (R15, closing paragraph). -/

namespace Sys2Proof.Machine

/-- The successor of `RCNT`: "modulo 7: the successor of 6 is 0" (R14). -/
def rcntNext (c : Fin 7) : Fin 7 := c + 1

/-- The successor of `ECNT`: "modulo 8: the successor of 7 is 0" (R16). -/
def ecntNext (c : Fin 8) : Fin 8 := c + 1

/-- `RCNT = 6`: the byte just staged is the seventh (R92). -/
def rawFull (c : Fin 7) : Bool := decide (c = 6)

/-- `ECNT = 7`: the byte just staged, or drained, is the eighth (R91, R112). -/
def encodedFull (c : Fin 8) : Bool := decide (c = 7)

/-- `RCNT = RLIM − 1`: the byte just drained is the last one owed (R111). -/
def rawDelivered (c : Fin 7) (lim : Fin 8) : Bool := decide (c.val + 1 = lim.val)

/-- `TailCount(k)` for `k` from 1 to 7 staged bytes (R116). -/
def tailCount (p : TailPolicy) (k : Fin 8) : Fin 8 :=
  match p with
  | .drainAll => 7
  | .suppressPad => k - 1

/-- The phases of R17. -/
inductive Phase where
  | finalized
  | draining
  | filling
  deriving DecidableEq, Repr

/-- The phase table of R17. -/
def phaseOf (fin pend : Bool) : Phase :=
  match fin, pend with
  | true, _ => .finalized
  | false, true => .draining
  | false, false => .filling

/-- The stream position of `ENC` (R17). -/
def encPosition (e : Enc) : Bool × Bool × Fin 7 × Fin 8 := (e.fin, e.pend, e.rcnt, e.ecnt)

/-- The stream position of `DEC` (R17). -/
def decPosition (d : Dec) : Bool × Bool × Fin 7 × Fin 8 := (d.fin, d.pend, d.rcnt, d.ecnt)

end Sys2Proof.Machine
end

