-- ==== Sys2Proof/Machine/Transform.lean ====
section
/-! DEFINITION. The datapath `XF` and the block commands (spec 40_transform.md). `XF` has no state (R28). -/

namespace Sys2Proof.Machine

/-- `hibit(b) = b[7]` (R70). -/
def hibit (b : Byte) : BitVec 1 := b.extractLsb' 7 1

/-- `low7(b) = {0, b[6:0]}` (R70). -/
def low7 (b : Byte) : Byte := (0 : BitVec 1) ++ b.extractLsb' 0 7

/-- Guard-byte formation (R71): `{0, r[0][7], r[1][7], r[2][7], r[3][7], r[4][7], r[5][7], r[6][7]}`. -/
def guardByte (r : RawBlock) : Byte :=
  (0 : BitVec 1) ++ hibit r[0] ++ hibit r[1] ++ hibit r[2] ++ hibit r[3] ++ hibit r[4] ++ hibit r[5] ++ hibit r[6]

/-- `encode_block` (R72). -/
def encodeBlock (r : RawBlock) : EncodedBlock :=
  #v[guardByte r, low7 r[0], low7 r[1], low7 r[2], low7 r[3], low7 r[4], low7 r[5], low7 r[6]]

/-- One lane of `decode_block` (R73, R78): `{g[k], b[6:0]}`, with the guard byte `g`, its bit `k`, and the body byte `b`. -/
def rawLane (g : Byte) (k : Nat) (b : Byte) : Byte := g.extractLsb' k 1 ++ b.extractLsb' 0 7

/-- `decode_block` (R73): raw byte `i` from guard bit `6 − i` and body byte `i + 1`. -/
def decodeBlock (e : EncodedBlock) : RawBlock :=
  #v[rawLane e[0] 6 e[1], rawLane e[0] 5 e[2], rawLane e[0] 4 e[3], rawLane e[0] 3 e[4], rawLane e[0] 2 e[5],
    rawLane e[0] 1 e[6], rawLane e[0] 0 e[7]]

/-- `ENCBLK` (R76): `if n ≠ 7: raise BlockSizeError(n)`, else `Done` with `encode_block(b[0..6])`. -/
def execEncblk (b : BlockOperand) (s : State) : Host.Outcome State Fault Refusal :=
  if b.n = 7 then .next (respondBlock (packEncoded (encodeBlock (rawOperand b))) s) else raiseFault .blockSize s

/-- `DECBLK` (R77): `if n ≠ 8: raise BlockSizeError(n)`, else `Done` with `decode_block(b[0..7])`. -/
def execDecblk (b : BlockOperand) (s : State) : Host.Outcome State Fault Refusal :=
  if b.n = 8 then .next (respondBlock (packRaw (decodeBlock (encodedOperand b))) s) else raiseFault .blockSize s

end Sys2Proof.Machine
end

