-- ==== Sys2Proof/Machine/Encoder.lean ====
section
/-! DEFINITION. The Encoder unit `ENC` (spec 42_encoder.md): the byte-level steps, the run, `ENC.ENCODE`, `ENC.FINALIZE`.

Each `while` of the spec is a recursion on a count that bounds its turns: the output room for the drain, the unread input for
the fill and the run. Every turn uses up one of the count, so the count never ends a loop that the spec would go on with
(the statements `EncLoopsFollowTheSpec` and `DecLoopsFollowTheSpec` say so). -/

namespace Sys2Proof.Machine

/-- Why the fill stopped (R92, R112). -/
inductive FillEnd where
  | full
  | starved
  deriving DecidableEq, Repr

/-- How a run ended (R93, R113). -/
inductive RunEnd where
  | allInputConsumed
  | needsMoreOutput
  deriving DecidableEq, Repr

/-- The status of a run as a response (R56). -/
def runRsp : RunEnd → Rsp
  | .allInputConsumed => .allInputConsumed
  | .needsMoreOutput => .needsMoreOutput

/-- One turn of the loop of `EncDrain` (R91): `Drain(ES[ECNT])`, then the counter and `PEND`. -/
def encDrainByte (e : Enc) : Enc :=
  if encodedFull e.ecnt then
    { e with out := e.out.drain e.es[e.ecnt], ecnt := 0, pend := false }
  else
    { e with out := e.out.drain e.es[e.ecnt], ecnt := ecntNext e.ecnt }

/-- The loop of `EncDrain`, at most `n` turns. -/
def encDrainLoop : Nat → Enc → Enc
  | 0, e => e
  | n + 1, e => if e.pend && e.out.hasRoom then encDrainLoop n (encDrainByte e) else e

/-- `EncDrain()` (R91). -/
def encDrain (e : Enc) : Enc := encDrainLoop e.out.room e

/-- `EncTransform()` (R92). -/
def encTransform (e : Enc) : Enc := { e with es := encodeBlock e.rs, rcnt := 0, ecnt := 0, pend := true }

/-- `RS[RCNT] <- Pull()` (R92). -/
def encStageByte (e : Enc) : Enc := { e with rs := e.rs.set e.rcnt.val e.inp.head, inp := e.inp.pull }

/-- The loop of `EncFill`, at most `n` turns. -/
def encFillLoop : Nat → Enc → FillEnd × Enc
  | 0, e => (.starved, e)
  | n + 1, e =>
    if e.inp.hasByte then
      if rawFull e.rcnt then (.full, encTransform (encStageByte e))
      else encFillLoop n { encStageByte e with rcnt := rcntNext e.rcnt }
    else (.starved, e)

/-- `EncFill()` (R92). -/
def encFill (e : Enc) : FillEnd × Enc := encFillLoop e.inp.avail e

/-- The loop of `EncRun`, at most `n` fills: with no input left (`n = 0`) a fill would change nothing. -/
def encRunLoop : Nat → Enc → RunEnd × Enc
  | 0, e => if (encDrain e).pend then (.needsMoreOutput, encDrain e) else (.allInputConsumed, encDrain e)
  | n + 1, e =>
    if (encDrain e).pend then (.needsMoreOutput, encDrain e)
    else
      match encFill (encDrain e) with
      | (.starved, e') => (.allInputConsumed, e')
      | (.full, e') => encRunLoop n e'

/-- `EncRun()` (R93). -/
def encRun (e : Enc) : RunEnd × Enc := encRunLoop e.inp.avail e

/-- `for j in RCNT .. 6: RS[j] <- 0x00` (R95, R96). -/
def padRaw (k : Nat) (r : RawBlock) : RawBlock :=
  #v[if k ≤ 0 then 0 else r[0], if k ≤ 1 then 0 else r[1], if k ≤ 2 then 0 else r[2], if k ≤ 3 then 0 else r[3],
    if k ≤ 4 then 0 else r[4], if k ≤ 5 then 0 else r[5], if k ≤ 6 then 0 else r[6]]

/-- The last lines of `ENC.FINALIZE` (R95): finish if nothing is owed. -/
def encFinish (e : Enc) : Rsp × Enc :=
  if e.pend then (.needsMoreOutput, e) else (.finished, { e with fin := true })

/-- `ENC.FINALIZE` after its run has consumed all input (R95 steps 2 and 3, R96, R97). -/
def encFlush (e : Enc) : Rsp × Enc :=
  if e.rcnt = 0 then encFinish e
  else encFinish (encDrain (encTransform { e with rs := padRaw e.rcnt.val e.rs }))

/-- What `ENC.ENCODE` does to the unit, and its status (R94). -/
def encEncodeUnit (e : Enc) : Rsp × Enc :=
  if e.fin then (.alreadyFinalized, e)
  else (runRsp (encRun e).1, (encRun e).2)

/-- What `ENC.FINALIZE` does to the unit, and its status (R95). -/
def encFinalizeUnit (e : Enc) : Rsp × Enc :=
  if e.fin then (.alreadyFinalized, e)
  else
    match encRun e with
    | (.needsMoreOutput, e') => (.needsMoreOutput, e')
    | (.allInputConsumed, e') => encFlush e'

/-- `ENC.ENCODE` (R94). -/
def execEncEncode (s : State) : Host.Outcome State Fault Refusal :=
  .next (respond (encEncodeUnit s.enc).1 { s with enc := (encEncodeUnit s.enc).2 })

/-- `ENC.FINALIZE` (R95). -/
def execEncFinalize (s : State) : Host.Outcome State Fault Refusal :=
  .next (respond (encFinalizeUnit s.enc).1 { s with enc := (encFinalizeUnit s.enc).2 })

end Sys2Proof.Machine
end

