-- ==== Sys2Proof/Machine/Decoder.lean ====
section
/-! DEFINITION. The Decoder unit `DEC` (spec 43_decoder.md): the byte-level steps, the run, `DEC.DECODE`, `DEC.FINALIZE`.
The loops are bounded as in Machine/Encoder.lean. What depends on `DEC_TAIL_POLICY` takes it as an argument (R116). -/

namespace Sys2Proof.Machine

/-- One turn of the loop of `DecDrain` (R111): `Drain(RS[RCNT])`, then the counter, `PEND` and `RLIM`. -/
def decDrainByte (d : Dec) : Dec :=
  if rawDelivered d.rcnt d.rlim then
    { d with out := d.out.drain d.rs[d.rcnt], rcnt := 0, pend := false, rlim := 7 }
  else
    { d with out := d.out.drain d.rs[d.rcnt], rcnt := rcntNext d.rcnt }

/-- The loop of `DecDrain`, at most `n` turns. -/
def decDrainLoop : Nat → Dec → Dec
  | 0, d => d
  | n + 1, d => if d.pend && d.out.hasRoom then decDrainLoop n (decDrainByte d) else d

/-- `DecDrain()` (R111). -/
def decDrain (d : Dec) : Dec := decDrainLoop d.out.room d

/-- `DecTransform(n)` (R112). -/
def decTransform (n : Fin 8) (d : Dec) : Dec :=
  { d with rs := decodeBlock d.es, ecnt := 0, rcnt := 0, pend := true, rlim := n }

/-- `ES[ECNT] <- Pull()`: all 8 bits are stored (R112, R118). -/
def decStageByte (d : Dec) : Dec := { d with es := d.es.set d.ecnt.val d.inp.head, inp := d.inp.pull }

/-- The loop of `DecFill`, at most `n` turns. -/
def decFillLoop : Nat → Dec → FillEnd × Dec
  | 0, d => (.starved, d)
  | n + 1, d =>
    if d.inp.hasByte then
      if encodedFull d.ecnt then (.full, decTransform 7 (decStageByte d))
      else decFillLoop n { decStageByte d with ecnt := ecntNext d.ecnt }
    else (.starved, d)

/-- `DecFill()` (R112). -/
def decFill (d : Dec) : FillEnd × Dec := decFillLoop d.inp.avail d

/-- The loop of `DecRun`, at most `n` fills: with no input left (`n = 0`) a fill would change nothing. -/
def decRunLoop : Nat → Dec → RunEnd × Dec
  | 0, d => if (decDrain d).pend then (.needsMoreOutput, decDrain d) else (.allInputConsumed, decDrain d)
  | n + 1, d =>
    if (decDrain d).pend then (.needsMoreOutput, decDrain d)
    else
      match decFill (decDrain d) with
      | (.starved, d') => (.allInputConsumed, d')
      | (.full, d') => decRunLoop n d'

/-- `DecRun()` (R113). -/
def decRun (d : Dec) : RunEnd × Dec := decRunLoop d.inp.avail d

/-- `for j in k .. 7: ES[j] <- 0x00` (R115). -/
def padEncoded (k : Nat) (e : EncodedBlock) : EncodedBlock :=
  #v[if k ≤ 0 then 0 else e[0], if k ≤ 1 then 0 else e[1], if k ≤ 2 then 0 else e[2], if k ≤ 3 then 0 else e[3],
    if k ≤ 4 then 0 else e[4], if k ≤ 5 then 0 else e[5], if k ≤ 6 then 0 else e[6], if k ≤ 7 then 0 else e[7]]

/-- The last lines of `DEC.FINALIZE` (R115): finish if nothing is owed. -/
def decFinish (d : Dec) : Rsp × Dec :=
  if d.pend then (.needsMoreOutput, d) else (.finished, { d with fin := true })

/-- `DEC.FINALIZE` once the tail of `k = ECNT ≥ 1` staged bytes is padded (R115): `n = TailCount(k)` bytes to deliver. -/
def decDeliverTail (n : Fin 8) (d : Dec) : Dec :=
  if n = 0 then { d with ecnt := 0 } else decDrain (decTransform n d)

/-- `DEC.FINALIZE` after its run has consumed all input (R115, R116, R117). -/
def decFlush (p : TailPolicy) (d : Dec) : Rsp × Dec :=
  if d.ecnt = 0 then decFinish d
  else decFinish (decDeliverTail (tailCount p d.ecnt) { d with es := padEncoded d.ecnt.val d.es })

/-- What `DEC.DECODE` does to the unit, and its status (R114). -/
def decDecodeUnit (d : Dec) : Rsp × Dec :=
  if d.fin then (.alreadyFinalized, d)
  else (runRsp (decRun d).1, (decRun d).2)

/-- What `DEC.FINALIZE` does to the unit under the tail policy `p`, and its status (R115). -/
def decFinalizeUnit (p : TailPolicy) (d : Dec) : Rsp × Dec :=
  if d.fin then (.alreadyFinalized, d)
  else
    match decRun d with
    | (.needsMoreOutput, d') => (.needsMoreOutput, d')
    | (.allInputConsumed, d') => decFlush p d'

/-- `DEC.DECODE` (R114). -/
def execDecDecode (s : State) : Host.Outcome State Fault Refusal :=
  .next (respond (decDecodeUnit s.dec).1 { s with dec := (decDecodeUnit s.dec).2 })

/-- `DEC.FINALIZE` of hardware built with the tail policy `p` (R115, R116). -/
def decFinalizeUnder (p : TailPolicy) (s : State) : Host.Outcome State Fault Refusal :=
  .next (respond (decFinalizeUnit p s.dec).1 { s with dec := (decFinalizeUnit p s.dec).2 })

/-- `DEC.FINALIZE` of this hardware (R115, R116). -/
def execDecFinalize (s : State) : Host.Outcome State Fault Refusal := decFinalizeUnder Config.decTailPolicy s

end Sys2Proof.Machine
end

