-- ==== Sys2Proof/Machine/Reserved.lean ====
section
/-! DEFINITION. The reserved command codes (spec 30_encoding.md R57, 60_exceptions.md R132). -/

namespace Sys2Proof.Machine

/-- `OP = 0x7`: answered `IllegalCommand` (R57). -/
def execReserved7 (s : State) : Host.Outcome State Fault Refusal := raiseFault .illegal s

/-- `OP = 0xF`: answered `IllegalCommand` (R57). -/
def execReservedF (s : State) : Host.Outcome State Fault Refusal := raiseFault .illegal s

end Sys2Proof.Machine
end

