-- ==== Sys2Proof/Machine/Dispatch.lean ====
section
/-! DEFINITION. One arm for each command (spec 30_encoding.md R52). -/

namespace Sys2Proof.Machine

def exec (i : Instr) (s : State) : Host.Outcome State Fault Refusal :=
  match i with
  | .encInit => Sys2Proof.Machine.execEncInit s
  | .encBind inView outView => Sys2Proof.Machine.execEncBind inView outView s
  | .encRebindIn inView => Sys2Proof.Machine.execEncRebindIn inView s
  | .encRebindOut outView => Sys2Proof.Machine.execEncRebindOut outView s
  | .encEncode => Sys2Proof.Machine.execEncEncode s
  | .encFinalize => Sys2Proof.Machine.execEncFinalize s
  | .encblk blk => Sys2Proof.Machine.execEncblk blk s
  | .reserved7 => Sys2Proof.Machine.execReserved7 s
  | .decInit => Sys2Proof.Machine.execDecInit s
  | .decBind inView outView => Sys2Proof.Machine.execDecBind inView outView s
  | .decRebindIn inView => Sys2Proof.Machine.execDecRebindIn inView s
  | .decRebindOut outView => Sys2Proof.Machine.execDecRebindOut outView s
  | .decDecode => Sys2Proof.Machine.execDecDecode s
  | .decFinalize => Sys2Proof.Machine.execDecFinalize s
  | .decblk blk => Sys2Proof.Machine.execDecblk blk s
  | .reservedF => Sys2Proof.Machine.execReservedF s

end Sys2Proof.Machine
end

