-- ==== Sys2Proof/Machine/Step.lean ====
section
/-! DEFINITION. One step of the machine: the host's next action (spec 00_scope.md R5, 30_encoding.md R50). -/

namespace Sys2Proof.Machine

/-- One step. "one step of the unit" is "one whole command transaction" (R5): the next request is taken, decoded and
performed whole. The host's other actions fall between commands (R43, R150). With nothing to do the block is idle: "a unit
between commands is simply idle and keeps all its state" (R140). -/
def step (s : State) : Host.Outcome State Fault Refusal :=
  match s.host with
  | [] => .next s
  | .request r :: rest => exec (decode r) { s with host := rest }
  | .editIn u i b :: rest => .next (hostEdit u i b { s with host := rest })
  | .reset :: rest => .next (blockReset { s with host := rest })

/-- The host issues the command whose table word is `w` (operands of zeros) before whatever else it was going to do. -/
def State.withFetchWord (s : State) (nbits w : Nat) : State :=
  { s with host := .request (bareRequest (BitVec.ofNat 4 (w % 2 ^ nbits))) :: s.host }

end Sys2Proof.Machine
end

