-- ==== Sys2Proof/Safety.lean ====
section
/-! DEFINITION. The terms that claims use: the invariants of R19, what a unit holds and owes as byte sequences, the encoded
and decoded stream of a byte sequence (R101, R122), and the host's books of one stream. Nothing here is part of the machine. -/

namespace Sys2Proof.Safety

open Sys2Proof.Machine

/-! ### Invariants (R19) -/

/-- R19 for `ENC`, with the canonical form of its two spaces. -/
structure EncInv (e : Enc) : Prop where
  /-- (c) -/
  notPendingDrained : e.pend = false → e.ecnt = 0
  /-- (c) -/
  pendingUnstaged : e.pend = true → e.rcnt = 0
  /-- (e) -/
  finalizedIdle : e.fin = true → e.pend = false ∧ e.rcnt = 0 ∧ e.ecnt = 0
  /-- (f) -/
  inBounded : e.inp.pos ≤ e.inp.len
  /-- (f) -/
  outBounded : e.out.pos ≤ e.out.cap
  /-- (g) -/
  pendingClean : e.pend = true → ∀ i : Fin 8, (e.es[i]).getLsbD 7 = false
  inSpaceWf : Memory.wf e.inp.space = true
  inSpaceWithin : Memory.within e.inp.len e.inp.space = true
  outSpaceWf : Memory.wf e.out.space = true
  outSpaceWithin : Memory.within e.out.cap e.out.space = true

/-- R19 and R18 for `DEC` built with the tail policy `p`, with the canonical form of its two spaces. -/
structure DecInv (p : TailPolicy) (d : Dec) : Prop where
  /-- (d) -/
  notPendingDrained : d.pend = false → d.rcnt = 0
  /-- (d) -/
  pendingUnstaged : d.pend = true → d.ecnt = 0
  /-- (d) -/
  pendingOwes : d.pend = true → d.rcnt.val < d.rlim.val
  /-- R18: "7 for every block decoded from eight pulled bytes", 7 again once a block is delivered (R111) -/
  limitIdle : d.pend = false → d.rlim = 7
  /-- R18: "Under `DEC_TAIL_POLICY = DRAIN_ALL` … `RLIM` is 7 at all times" -/
  limitDrainAll : p = .drainAll → d.rlim = 7
  /-- (e) -/
  finalizedIdle : d.fin = true → d.pend = false ∧ d.rcnt = 0 ∧ d.ecnt = 0
  /-- (f) -/
  inBounded : d.inp.pos ≤ d.inp.len
  /-- (f) -/
  outBounded : d.out.pos ≤ d.out.cap
  inSpaceWf : Memory.wf d.inp.space = true
  inSpaceWithin : Memory.within d.inp.len d.inp.space = true
  outSpaceWf : Memory.wf d.out.space = true
  outSpaceWithin : Memory.within d.out.cap d.out.space = true

/-- The invariant of the machine. -/
structure Inv (s : State) : Prop where
  enc : EncInv s.enc
  dec : DecInv Config.decTailPolicy s.dec

/-- Every view register fits `POSW` bits (R22, R23, R40). -/
def PositionsFit (posw : Nat) (s : State) : Prop :=
  s.enc.inp.len < 2 ^ posw ∧ s.enc.inp.pos < 2 ^ posw ∧ s.enc.out.cap < 2 ^ posw ∧ s.enc.out.pos < 2 ^ posw ∧
  s.dec.inp.len < 2 ^ posw ∧ s.dec.inp.pos < 2 ^ posw ∧ s.dec.out.cap < 2 ^ posw ∧ s.dec.out.pos < 2 ^ posw

/-- Every request the host is still to issue carries views that fit `POSW` bits (R53). -/
def RequestsFit (posw : Nat) (s : State) : Prop :=
  ∀ r, HostAct.request r ∈ s.host → (decode r).wellFormed posw = true

/-- The unit is in the constructed state (R25), whatever its staging registers hold. -/
def FreshEnc (e : Enc) : Prop :=
  e.fin = false ∧ e.pend = false ∧ e.rcnt = 0 ∧ e.ecnt = 0 ∧ e.inp = InView.empty ∧ e.out = OutView.empty

/-- The unit is in the constructed state (R25), whatever its staging registers hold. -/
def FreshDec (d : Dec) : Prop :=
  d.fin = false ∧ d.pend = false ∧ d.rcnt = 0 ∧ d.ecnt = 0 ∧ d.rlim = 7 ∧ d.inp = InView.empty ∧ d.out = OutView.empty

/-- A safe run: the host has been given no fault response (R133). -/
def NoFaultReply (s : State) : Prop :=
  ∀ r ∈ s.replies, r.rsp ≠ .blockSizeError ∧ r.rsp ≠ .illegalCommand

/-! ### What a unit holds, as byte sequences -/

/-- The bytes of the input view not yet pulled. -/
def unread (v : InView) : List Byte := Memory.slice v.space v.pos v.avail

/-- The bytes drained between two states of an output view that no command has replaced in between. -/
def drained (before after : OutView) : List Byte := Memory.slice after.space before.pos (after.pos - before.pos)

/-- The valid staged raw bytes of `ENC`, `RS[0 .. RCNT−1]` (R27). -/
def encStaged (e : Enc) : List Byte := e.rs.toList.take e.rcnt.val

/-- The bytes `ENC` still owes of its pending block, `ES[ECNT .. 7]` (R15). -/
def encOwed (e : Enc) : List Byte := if e.pend then e.es.toList.drop e.ecnt.val else []

/-- The valid staged encoded bytes of `DEC`, `ES[0 .. ECNT−1]` (R27). -/
def decStaged (d : Dec) : List Byte := d.es.toList.take d.ecnt.val

/-- The bytes `DEC` still owes of its pending block, `RS[RCNT .. RLIM−1]` (R15). -/
def decOwed (d : Dec) : List Byte := if d.pend then (d.rs.toList.take d.rlim.val).drop d.rcnt.val else []

/-! ### What a command answers and leaves -/

/-- The transaction from `s` to `t` ended with the response `r` and no block result, the host given nothing else. -/
def Answered (s t : State) (r : Rsp) : Prop := t.replies = s.replies ++ [⟨r, none⟩]

/-- Everything outside `ENC` and the responses is as before: `DEC`, the host's pending actions, the free-value counter. -/
def OnlyEnc (s t : State) : Prop := t.dec = s.dec ∧ t.host = s.host ∧ t.free = s.free

/-- Everything outside `DEC` and the responses is as before. -/
def OnlyDec (s t : State) : Prop := t.enc = s.enc ∧ t.host = s.host ∧ t.free = s.free

/-- The view `v` is bound to the operand `o` and nothing of it has been pulled (R82). -/
def BoundIn (o : ViewOperand) (v : InView) : Prop :=
  v.len = o.bound ∧ v.pos = 0 ∧ ∀ k (h : k < o.ref.length), Memory.read v.space k = o.ref[k]

/-- The view `v` is bound to the operand `o` and nothing has been drained into it (R83). -/
def BoundOut (o : ViewOperand) (v : OutView) : Prop :=
  v.cap = o.bound ∧ v.pos = 0 ∧ ∀ k (h : k < o.ref.length), Memory.read v.space k = o.ref[k]

/-- `after` is `before` with some bytes drained into it and nothing else done: the capacity is the same, and every index
outside `OUT[before.pos .. after.pos − 1]` reads as before (R34). -/
def DrainedOnly (before after : OutView) : Prop :=
  after.cap = before.cap ∧ ∀ k, k < before.pos ∨ after.pos ≤ k → Memory.read after.space k = Memory.read before.space k

/-- `after` is `before` with some bytes pulled and nothing else done: every byte and the length are the same (R31, R33). -/
def PulledOnly (before after : InView) : Prop := after.len = before.len ∧ after.space = before.space

/-- Which responses a command can produce: the matrix of R62. -/
def mayAnswer : Instr → Rsp → Bool
  | .encInit, r => decide (r = .done)
  | .encBind _ _, r => decide (r = .done)
  | .encRebindIn _, r => decide (r = .done)
  | .encRebindOut _, r => decide (r = .done)
  | .encEncode, r => decide (r = .allInputConsumed ∨ r = .needsMoreOutput ∨ r = .alreadyFinalized)
  | .encFinalize, r => decide (r = .needsMoreOutput ∨ r = .alreadyFinalized ∨ r = .finished)
  | .encblk b, r => decide (r = if b.n = 7 then .done else .blockSizeError)
  | .reserved7, r => decide (r = .illegalCommand)
  | .decInit, r => decide (r = .done)
  | .decBind _ _, r => decide (r = .done)
  | .decRebindIn _, r => decide (r = .done)
  | .decRebindOut _, r => decide (r = .done)
  | .decDecode, r => decide (r = .allInputConsumed ∨ r = .needsMoreOutput ∨ r = .alreadyFinalized)
  | .decFinalize, r => decide (r = .needsMoreOutput ∨ r = .alreadyFinalized ∨ r = .finished)
  | .decblk b, r => decide (r = if b.n = 8 then .done else .blockSizeError)
  | .reservedF, r => decide (r = .illegalCommand)

/-! ### The stream laws' functions -/

/-- `Mcoded7(S)` (R101): `encode_block` of each 7-byte chunk, the last chunk zero-padded, laid end to end. -/
def mcoded7 : List Byte → List Byte
  | [] => []
  | a :: b :: c :: d :: e :: f :: g :: rest => (encodeBlock #v[a, b, c, d, e, f, g]).toList ++ mcoded7 rest
  | short =>
    (encodeBlock #v[short.getD 0 0, short.getD 1 0, short.getD 2 0, short.getD 3 0, short.getD 4 0, short.getD 5 0,
      short.getD 6 0]).toList

/-- How many bytes of the final block of `k` received bytes are delivered: the table of R116. -/
def tailBytes (p : TailPolicy) (k : Nat) : Nat :=
  match p with
  | .drainAll => 7
  | .suppressPad => k - 1

/-- The decoded stream (R122): `decode_block` of each 8-byte chunk, and of the last `k` bytes followed by zeros the first
`TailCount(k)` bytes. -/
def unmcoded7 (p : TailPolicy) : List Byte → List Byte
  | [] => []
  | a :: b :: c :: d :: e :: f :: g :: h :: rest => (decodeBlock #v[a, b, c, d, e, f, g, h]).toList ++ unmcoded7 p rest
  | short =>
    (decodeBlock #v[short.getD 0 0, short.getD 1 0, short.getD 2 0, short.getD 3 0, short.getD 4 0, short.getD 5 0,
      short.getD 6 0, short.getD 7 0]).toList.take (tailBytes p short.length)

/-- The bytes of `bs` that make up whole blocks of `n` bytes. -/
def wholeBlocks (n : Nat) (bs : List Byte) : List Byte := bs.take (n * (bs.length / n))

/-- The bytes of `bs` after its whole blocks of `n` bytes. -/
def lastPart (n : Nat) (bs : List Byte) : List Byte := bs.drop (n * (bs.length / n))

/-- What `ENC` can still deliver without a `FINALIZE`: the bytes owed, then the whole blocks its staged and unread bytes make. -/
def encBlocksLeft (e : Enc) : List Byte := encOwed e ++ mcoded7 (wholeBlocks 7 (encStaged e ++ unread e.inp))

/-- What `ENC` is still to deliver if the stream ends with the bound input: the bytes owed, then the encoding of the rest. -/
def encStreamLeft (e : Enc) : List Byte := encOwed e ++ mcoded7 (encStaged e ++ unread e.inp)

/-- What `DEC` can still deliver without a `FINALIZE`. -/
def decBlocksLeft (d : Dec) : List Byte := decOwed d ++ unmcoded7 .drainAll (wholeBlocks 8 (decStaged d ++ unread d.inp))

/-- What `DEC` is still to deliver under the tail policy `p` if the stream ends with the bound input. -/
def decStreamLeft (p : TailPolicy) (d : Dec) : List Byte := decOwed d ++ unmcoded7 p (decStaged d ++ unread d.inp)

/-! ### Live state (R27) -/

/-- The two Encoders agree on everything that R27 calls live: all but the dead staging registers. -/
def EncAlike (e e' : Enc) : Prop :=
  encPosition e = encPosition e' ∧ encStaged e = encStaged e' ∧ encOwed e = encOwed e' ∧ e.inp = e'.inp ∧ e.out = e'.out

/-- The two Decoders agree on everything that R27 calls live. -/
def DecAlike (d d' : Dec) : Prop :=
  decPosition d = decPosition d' ∧ d.rlim = d'.rlim ∧ decStaged d = decStaged d' ∧ decOwed d = decOwed d' ∧
  d.inp = d'.inp ∧ d.out = d'.out

/-- The two view spaces read alike but for bit 7 of each byte. -/
def SameLow7 (m m' : Memory) : Prop := ∀ k, (Memory.read m k) &&& 0x7F = (Memory.read m' k) &&& 0x7F

/-! ### The host's books of one stream (R101, R122) -/

/-- `exec` of hardware built with the tail policy `p`; `execUnder Config.decTailPolicy` is `exec`. -/
def execUnder (p : TailPolicy) (i : Instr) (s : State) : Host.Outcome State Fault Refusal :=
  if i = .decFinalize then decFinalizeUnder p s else exec i s

/-- What the host has noted of the stream through one unit. -/
structure Books where
  st : State
  /-- the concatenation of the input views in the order bound. -/
  fed : List Byte
  /-- the concatenation of the bytes drained, in order. -/
  got : List Byte
  /-- a `FINALIZE` has been issued. -/
  finalizing : Bool

/-- Books opened on a state. -/
def Books.opened (s : State) : Books := ⟨s, [], [], false⟩

/-- May the host replace the input view `old` by `v`? R101, R122: it "never replaces an input view that is not exhausted,
and binds no non-empty input view after its first `FINALIZE`". -/
def mayBindIn (old : InView) (finalizing : Bool) (v : ViewOperand) : Bool :=
  old.exhausted && (!finalizing || v.ref.isEmpty)

/-- The conditions of R101 on the next command; the sequence starts from `INIT` or reset, so it holds no second `INIT`. -/
def encMay (b : Books) : Instr → Bool
  | .encInit => false
  | .encBind i _ => mayBindIn b.st.enc.inp b.finalizing i
  | .encRebindIn i => mayBindIn b.st.enc.inp b.finalizing i
  | .encRebindOut _ => true
  | .encEncode => true
  | .encFinalize => true
  | .encblk _ => true
  | .reserved7 => true
  | .decInit => true
  | .decBind _ _ => true
  | .decRebindIn _ => true
  | .decRebindOut _ => true
  | .decDecode => true
  | .decFinalize => true
  | .decblk _ => true
  | .reservedF => true

/-- The conditions of R122 on the next command. -/
def decMay (b : Books) : Instr → Bool
  | .encInit => true
  | .encBind _ _ => true
  | .encRebindIn _ => true
  | .encRebindOut _ => true
  | .encEncode => true
  | .encFinalize => true
  | .encblk _ => true
  | .reserved7 => true
  | .decInit => false
  | .decBind i _ => mayBindIn b.st.dec.inp b.finalizing i
  | .decRebindIn i => mayBindIn b.st.dec.inp b.finalizing i
  | .decRebindOut _ => true
  | .decDecode => true
  | .decFinalize => true
  | .decblk _ => true
  | .reservedF => true

/-- The input bytes a command binds to `ENC`. -/
def encFeeds : Instr → List Byte
  | .encBind i _ => i.ref
  | .encRebindIn i => i.ref
  | _ => []

/-- The input bytes a command binds to `DEC`. -/
def decFeeds : Instr → List Byte
  | .decBind i _ => i.ref
  | .decRebindIn i => i.ref
  | _ => []

/-- One command entered in the books of the stream through `ENC`; none if it breaks a condition of R101. -/
def encEnter (b : Books) (i : Instr) : Option Books :=
  if encMay b i then
    match exec i b.st with
    | .next t =>
      some ⟨t, b.fed ++ encFeeds i, b.got ++ drained b.st.enc.out t.enc.out, b.finalizing || decide (i = .encFinalize)⟩
    | .fault _ => none
    | .refused _ => none
  else none

/-- One command entered in the books of the stream through `DEC` built with the tail policy `p`. -/
def decEnter (p : TailPolicy) (b : Books) (i : Instr) : Option Books :=
  if decMay b i then
    match execUnder p i b.st with
    | .next t =>
      some ⟨t, b.fed ++ decFeeds i, b.got ++ drained b.st.dec.out t.dec.out, b.finalizing || decide (i = .decFinalize)⟩
    | .fault _ => none
    | .refused _ => none
  else none

/-- The books of `ENC` after a sequence of commands. -/
def encBooks : List Instr → Books → Option Books
  | [], b => some b
  | i :: is, b => (encEnter b i).bind (encBooks is)

/-- The books of `DEC` after a sequence of commands. -/
def decBooks (p : TailPolicy) : List Instr → Books → Option Books
  | [], b => some b
  | i :: is, b => (decEnter p b i).bind (decBooks p is)

end Sys2Proof.Safety
end

