-- ==== Sys2Proof/Certificates/Slice0/Obligations.lean ====
section
/-! DEFINITION. The statements for the provers. Each docstring names the rule of the spec that the statement formalises.
Where a statement has a premise `EncInv`, `DecInv` or `Inv`, that premise is the invariant of R19, which
`InvariantHoldsAtReset` and `EveryStepKeepsTheInvariant` state.

The spec marks its rules R62, R75, R99, R101, R102, R103, R111, R120, R121, R122 and R151 as derived from its other rules, and the
command codes, the response codes and the two fault responses as decisions of its own (92_eei_decisions.md D3, D4, D15, D16): they
are numbered rules of the spec all the same, and the statements formalise them as they stand. -/

open Sys2Proof Sys2Proof.Machine Sys2Proof.Safety

/-! ### Encoding and the step -/

/-- R51 to R54. No operand is dropped by the encoding, and the code of a decoded request is the request's code. -/
def Obligations.DecodingAnEncodedCommandGivesItBack : Prop :=
  (∀ i : Instr, decode (encode i) = i) ∧ ∀ r : Request, (encode (decode r)).op = r.op

/-- R52. The sixteen codes, whatever stands on the operand fields, each with the operands of its row. -/
def Obligations.TheSixteenCodesDecodeAsTheMapSays : Prop :=
  ∀ (i o : ViewOperand) (b : BlockOperand),
    decode ⟨0x0, i, o, b⟩ = .encInit ∧ decode ⟨0x1, i, o, b⟩ = .encBind i o ∧
    decode ⟨0x2, i, o, b⟩ = .encRebindIn i ∧ decode ⟨0x3, i, o, b⟩ = .encRebindOut o ∧
    decode ⟨0x4, i, o, b⟩ = .encEncode ∧ decode ⟨0x5, i, o, b⟩ = .encFinalize ∧
    decode ⟨0x6, i, o, b⟩ = .encblk b ∧ decode ⟨0x7, i, o, b⟩ = .reserved7 ∧
    decode ⟨0x8, i, o, b⟩ = .decInit ∧ decode ⟨0x9, i, o, b⟩ = .decBind i o ∧
    decode ⟨0xA, i, o, b⟩ = .decRebindIn i ∧ decode ⟨0xB, i, o, b⟩ = .decRebindOut o ∧
    decode ⟨0xC, i, o, b⟩ = .decDecode ∧ decode ⟨0xD, i, o, b⟩ = .decFinalize ∧
    decode ⟨0xE, i, o, b⟩ = .decblk b ∧ decode ⟨0xF, i, o, b⟩ = .reservedF

/-- R50. When the host's next action is a request, the step takes it and performs the command it decodes to. -/
def Obligations.StepPerformsTheDecodedRequest : Prop :=
  ∀ (s : State) (r : Request) (rest : List HostAct), s.host = .request r :: rest →
    step s = exec (decode r) { s with host := rest }

/-- R33, R34. The two access primitives: `Pull` gives the byte at `IN_POS` and moves `IN_POS` on by one, `Drain` stores the byte
at `OUT_POS`, moves `OUT_POS` on by one, and leaves every other byte of the view and its capacity as they were. -/
def Obligations.PullAndDrainMoveOneByte : Prop :=
  (∀ v : InView, v.head = Memory.read v.space v.pos ∧ v.pull.pos = v.pos + 1 ∧ PulledOnly v v.pull) ∧
  ∀ (v : OutView) (b : Byte),
    Memory.read (v.drain b).space v.pos = b ∧ (v.drain b).pos = v.pos + 1 ∧ DrainedOnly v (v.drain b)

/-- R43, R140, R150. The steps that are no command: nothing to do, an edit of an input view, a reset. An edited byte of the
bound view reads as the host wrote it, every other byte and every register as before; a block reset leaves both units in the
constructed state and gives the host no response (that it gives none is the model's choice, assumption log 12). -/
def Obligations.StepsBetweenCommands : Prop :=
  (∀ s : State, s.host = [] → step s = .next s) ∧
  (∀ (s : State) (k : Nat) (b : Byte) (rest : List HostAct), s.host = .editIn .enc k b :: rest →
    ∃ t, step s = .next t ∧ t = { s with host := rest, enc := { s.enc with inp := t.enc.inp } } ∧
      t.enc.inp.len = s.enc.inp.len ∧ t.enc.inp.pos = s.enc.inp.pos ∧
      ∀ j, j < s.enc.inp.len →
        Memory.read t.enc.inp.space j = if j = k then b else Memory.read s.enc.inp.space j) ∧
  (∀ (s : State) (k : Nat) (b : Byte) (rest : List HostAct), s.host = .editIn .dec k b :: rest →
    ∃ t, step s = .next t ∧ t = { s with host := rest, dec := { s.dec with inp := t.dec.inp } } ∧
      t.dec.inp.len = s.dec.inp.len ∧ t.dec.inp.pos = s.dec.inp.pos ∧
      ∀ j, j < s.dec.inp.len →
        Memory.read t.dec.inp.space j = if j = k then b else Memory.read s.dec.inp.space j) ∧
  (∀ (s : State) (rest : List HostAct), s.host = .reset :: rest →
    ∃ t, step s = .next t ∧ FreshEnc t.enc ∧ FreshDec t.dec ∧ t.host = rest ∧ t.replies = s.replies)

/-- R8. "A unit is never stuck: every command is accepted in every state"; no step of the machine stops either. -/
def Obligations.EveryCommandIsAcceptedInEveryState : Prop :=
  (∀ (i : Instr) (s : State), ∃ t, exec i s = .next t) ∧ ∀ s : State, ∃ t, step s = .next t

/-! ### Construction and binding -/

/-- R80. `INIT` of either unit: the constructed state, whatever the state before; nothing of the other unit changes. The
staging registers are left unspecified, so nothing is said of them. -/
def Obligations.InitConstructsTheUnitAfresh : Prop :=
  ∀ s : State,
    (∃ t, exec .encInit s = .next t ∧ FreshEnc t.enc ∧ t.dec = s.dec ∧ t.host = s.host ∧ Answered s t .done) ∧
    (∃ t, exec .decInit s = .next t ∧ FreshDec t.dec ∧ t.enc = s.enc ∧ t.host = s.host ∧ Answered s t .done)

/-- R81. `BIND` of either unit, in every state: both views, and nothing else. -/
def Obligations.BindAttachesBothViews : Prop :=
  ∀ (i o : ViewOperand) (s : State),
    (encode (.encBind i o)).op = 0x1 ∧ (encode (.decBind i o)).op = 0x9 ∧
    (∃ t, exec (.encBind i o) s = .next t ∧ BoundIn i t.enc.inp ∧ BoundOut o t.enc.out ∧
      t.enc = { s.enc with inp := t.enc.inp, out := t.enc.out } ∧ OnlyEnc s t ∧ Answered s t .done) ∧
    (∃ t, exec (.decBind i o) s = .next t ∧ BoundIn i t.dec.inp ∧ BoundOut o t.dec.out ∧
      t.dec = { s.dec with inp := t.dec.inp, out := t.dec.out } ∧ OnlyDec s t ∧ Answered s t .done)

/-- R82. `REBIND_IN` of either unit, in every state: the input view, and nothing else. -/
def Obligations.RebindInReplacesTheInputView : Prop :=
  ∀ (i : ViewOperand) (s : State),
    (encode (.encRebindIn i)).op = 0x2 ∧ (encode (.decRebindIn i)).op = 0xA ∧
    (∃ t, exec (.encRebindIn i) s = .next t ∧ BoundIn i t.enc.inp ∧
      t.enc = { s.enc with inp := t.enc.inp } ∧ OnlyEnc s t ∧ Answered s t .done) ∧
    (∃ t, exec (.decRebindIn i) s = .next t ∧ BoundIn i t.dec.inp ∧
      t.dec = { s.dec with inp := t.dec.inp } ∧ OnlyDec s t ∧ Answered s t .done)

/-- R83. `REBIND_OUT` of either unit, in every state: the output view, and nothing else. -/
def Obligations.RebindOutReplacesTheOutputView : Prop :=
  ∀ (o : ViewOperand) (s : State),
    (encode (.encRebindOut o)).op = 0x3 ∧ (encode (.decRebindOut o)).op = 0xB ∧
    (∃ t, exec (.encRebindOut o) s = .next t ∧ BoundOut o t.enc.out ∧
      t.enc = { s.enc with out := t.enc.out } ∧ OnlyEnc s t ∧ Answered s t .done) ∧
    (∃ t, exec (.decRebindOut o) s = .next t ∧ BoundOut o t.dec.out ∧
      t.dec = { s.dec with out := t.dec.out } ∧ OnlyDec s t ∧ Answered s t .done)

/-- R81. `BIND` "has exactly the effect of `REBIND_IN in` followed by `REBIND_OUT out`", but for the number of responses. -/
def Obligations.BindIsRebindInThenRebindOut : Prop :=
  ∀ (i o : ViewOperand) (s t u v : State),
    (exec (.encBind i o) s = .next t → exec (.encRebindIn i) s = .next u → exec (.encRebindOut o) u = .next v →
      t = { v with replies := t.replies }) ∧
    (exec (.decBind i o) s = .next t → exec (.decRebindIn i) s = .next u → exec (.decRebindOut o) u = .next v →
      t = { v with replies := t.replies })

/-- R85. Binding on a Finalized unit is performed (`Done`), and lets no input or output follow: the run command and
`FINALIZE` then answer `AlreadyFinalized` and change nothing. -/
def Obligations.BindingDoesNotReviveAFinalizedUnit : Prop :=
  (∀ (i : Instr) (s : State), s.enc.fin = true →
    (∃ v w, i = .encBind v w ∨ i = .encRebindIn v ∨ i = .encRebindOut w) →
    ∃ t, exec i s = .next t ∧ Answered s t .done ∧ t.enc.fin = true ∧
      exec .encEncode t = .next { t with replies := t.replies ++ [⟨.alreadyFinalized, none⟩] } ∧
      exec .encFinalize t = .next { t with replies := t.replies ++ [⟨.alreadyFinalized, none⟩] }) ∧
  (∀ (i : Instr) (s : State), s.dec.fin = true →
    (∃ v w, i = .decBind v w ∨ i = .decRebindIn v ∨ i = .decRebindOut w) →
    ∃ t, exec i s = .next t ∧ Answered s t .done ∧ t.dec.fin = true ∧
      exec .decDecode t = .next { t with replies := t.replies ++ [⟨.alreadyFinalized, none⟩] } ∧
      exec .decFinalize t = .next { t with replies := t.replies ++ [⟨.alreadyFinalized, none⟩] })

/-! ### The datapath and the block commands -/

/-- R71, R72. The block layout of `encode_block`: bit `6 − i` of the guard byte is the high bit of raw byte `i`, its bit 7
is 0, and body byte `i + 1` is raw byte `i` with bit 7 cleared. -/
def Obligations.EncodeBlockLayout : Prop :=
  ∀ r : RawBlock,
    (encodeBlock r)[0].getLsbD 7 = false ∧
    ∀ i (h : i < 7), (encodeBlock r)[0].getLsbD (6 - i) = r[i].getLsbD 7 ∧ (encodeBlock r)[i + 1] = r[i] &&& 0x7F

/-- R73. The block layout of `decode_block`: bit 7 of raw byte `i` is guard bit `6 − i`, its bits 6 to 0 are those of body
byte `i + 1`. -/
def Obligations.DecodeBlockLayout : Prop :=
  ∀ (e : EncodedBlock) (i : Nat) (h : i < 7),
    (decodeBlock e)[i].getLsbD 7 = e[0].getLsbD (6 - i) ∧
    ∀ j, j < 7 → (decodeBlock e)[i].getLsbD j = e[i + 1].getLsbD j

/-- R74, R75. `decode_block` forgets exactly the eight reserved bits: two blocks decode alike just when they differ in
bits 7 only. -/
def Obligations.DecodeBlockForgetsExactlyTheReservedBits : Prop :=
  ∀ e e' : EncodedBlock,
    decodeBlock e = decodeBlock e' ↔ ∀ (j : Nat) (h : j < 8), e[j] &&& 0x7F = e'[j] &&& 0x7F

/-- R75. The inverse laws, with what follows from them: `encode_block` is injective, `decode_block` is onto, and it is 256-to-1:
a raw block is the decoding of exactly one encoded block for each setting of the eight reserved bits. -/
def Obligations.BlockTransformInverseLaws : Prop :=
  (∀ r : RawBlock, decodeBlock (encodeBlock r) = r) ∧
  (∀ (e : EncodedBlock) (j : Nat) (h : j < 8), (encodeBlock (decodeBlock e))[j] = e[j] &&& 0x7F) ∧
  (∀ e : EncodedBlock, encodeBlock (decodeBlock e) = e ↔ ∀ (j : Nat) (h : j < 8), e[j].getLsbD 7 = false) ∧
  Function.Injective encodeBlock ∧ Function.Surjective decodeBlock ∧
  ∀ (r : RawBlock) (c : BitVec 8), ∃ e : EncodedBlock,
    (decodeBlock e = r ∧ ∀ (j : Nat) (h : j < 8), e[j].getLsbD 7 = c.getLsbD j) ∧
    ∀ e' : EncodedBlock, decodeBlock e' = r → (∀ (j : Nat) (h : j < 8), e'[j].getLsbD 7 = c.getLsbD j) → e' = e

/-- R76, R54, R131. `ENCBLK`, `OP = 0x6`, in every state: with `BLK_N = 7` the response `Done` with the encoded block, its byte
`j` in bits `[8j+7 : 8j]` of `BLK_RES`; otherwise `BlockSizeError`. Nothing but the response changes. -/
def Obligations.EncblkEncodesTheBlockOperand : Prop :=
  ∀ (b : BlockOperand) (s : State),
    (encode (.encblk b)).op = 0x6 ∧
    (b.n = 7 → ∃ res : BitVec 64,
      exec (.encblk b) s = .next { s with replies := s.replies ++ [⟨.done, some res⟩] } ∧
      ∀ r : RawBlock, (∀ i (h : i < 7), r[i] = b.data.extractLsb' (8 * i) 8) →
        ∀ j (h : j < 8), res.extractLsb' (8 * j) 8 = (encodeBlock r)[j]) ∧
    (b.n ≠ 7 → exec (.encblk b) s = .next { s with replies := s.replies ++ [⟨.blockSizeError, none⟩] })

/-- R77, R54, R131. `DECBLK`, `OP = 0xE`, in every state: with `BLK_N = 8` the response `Done` with the raw block, its byte `j`
in bits `[8j+7 : 8j]` of `BLK_RES` and `BLK_RES[63:56] = 0`; otherwise `BlockSizeError`. Nothing but the response changes. -/
def Obligations.DecblkDecodesTheBlockOperand : Prop :=
  ∀ (b : BlockOperand) (s : State),
    (encode (.decblk b)).op = 0xE ∧
    (b.n = 8 → ∃ res : BitVec 64,
      exec (.decblk b) s = .next { s with replies := s.replies ++ [⟨.done, some res⟩] } ∧
      res.extractLsb' 56 8 = 0 ∧
      ∀ e : EncodedBlock, (∀ i (h : i < 8), e[i] = b.data.extractLsb' (8 * i) 8) →
        ∀ j (h : j < 7), res.extractLsb' (8 * j) 8 = (decodeBlock e)[j]) ∧
    (b.n ≠ 8 → exec (.decblk b) s = .next { s with replies := s.replies ++ [⟨.blockSizeError, none⟩] })

/-! ### Responses and faults -/

/-- R132, R57. The two reserved codes, in every state: `IllegalCommand`, response code 5, and no other change; and that response
comes from no other code. -/
def Obligations.ReservedCodesAnswerIllegalCommand : Prop :=
  rspCode .illegalCommand = 5 ∧
  (∀ s : State,
    exec .reserved7 s = .next { s with replies := s.replies ++ [⟨.illegalCommand, none⟩] } ∧
    exec .reservedF s = .next { s with replies := s.replies ++ [⟨.illegalCommand, none⟩] }) ∧
  ∀ (r : Request) (s t : State), exec (decode r) s = .next t →
    (Answered s t .illegalCommand ↔ r.op = 0x7 ∨ r.op = 0xF)

/-- R136. "A fault response is precise and side-effect-free": whatever command ends with one has changed nothing. -/
def Obligations.FaultResponsesChangeNothing : Prop :=
  ∀ (i : Instr) (s t : State) (r : Reply), exec i s = .next t → t.replies = s.replies ++ [r] →
    (r.rsp = .blockSizeError ∨ r.rsp = .illegalCommand) → t = { s with replies := s.replies ++ [r] }

/-- R62. The response matrix: each command answers exactly once, only with a response of its row, and with a block result
just when it is a block command that succeeds; and every response of its row is answered in some state. -/
def Obligations.ResponsesOfEachCommand : Prop :=
  (∀ (i : Instr) (s t : State), exec i s = .next t →
    ∃ r, t.replies = s.replies ++ [r] ∧ mayAnswer i r.rsp = true ∧
      (r.blkRes.isSome = true ↔ r.rsp = .done ∧ ∃ b, i = .encblk b ∨ i = .decblk b)) ∧
  (∀ (i : Instr) (a : Rsp), mayAnswer i a = true →
    ∃ s t r, exec i s = .next t ∧ t.replies = s.replies ++ [r] ∧ r.rsp = a)

/-- R141. A run command or `FINALIZE` on a Finalized unit answers `AlreadyFinalized`, code 2, and changes nothing; and that
response comes from nothing else. -/
def Obligations.AlreadyFinalizedHasNoSideEffect : Prop :=
  rspCode .alreadyFinalized = 2 ∧
  (∀ s : State, s.enc.fin = true →
    exec .encEncode s = .next { s with replies := s.replies ++ [⟨.alreadyFinalized, none⟩] } ∧
    exec .encFinalize s = .next { s with replies := s.replies ++ [⟨.alreadyFinalized, none⟩] }) ∧
  (∀ s : State, s.dec.fin = true →
    exec .decDecode s = .next { s with replies := s.replies ++ [⟨.alreadyFinalized, none⟩] } ∧
    exec .decFinalize s = .next { s with replies := s.replies ++ [⟨.alreadyFinalized, none⟩] }) ∧
  (∀ (i : Instr) (s t : State), exec i s = .next t → Answered s t .alreadyFinalized →
    ((i = .encEncode ∨ i = .encFinalize) ∧ s.enc.fin = true) ∨ ((i = .decDecode ∨ i = .decFinalize) ∧ s.dec.fin = true))

/-- R13. `FIN` of a unit changes by two events only: it is set by the unit's `FINALIZE` that answers `Finished`, and cleared
by the unit's `INIT`. -/
def Obligations.FinIsSetByFinishedAndClearedByInit : Prop :=
  ∀ (i : Instr) (s t : State), exec i s = .next t →
    (t.enc.fin = true ↔ (s.enc.fin = true ∧ i ≠ .encInit) ∨ (i = .encFinalize ∧ Answered s t .finished)) ∧
    (t.dec.fin = true ↔ (s.dec.fin = true ∧ i ≠ .decInit) ∨ (i = .decFinalize ∧ Answered s t .finished))

/-- R142. After `NeedsMoreOutput`, the same command issued again without new room answers `NeedsMoreOutput` again and changes
nothing. -/
def Obligations.RepeatingAStarvedCommandChangesNothing : Prop :=
  ∀ (i : Instr) (s t : State), exec i s = .next t → Answered s t .needsMoreOutput →
    exec i t = .next { t with replies := t.replies ++ [⟨.needsMoreOutput, none⟩] }

/-- R135, items 5 and 6. On a Streaming unit with both views exhausted the tie is settled by `PEND`; and when a block is pending
on entry that the output view cannot take whole, the run command answers `NeedsMoreOutput` and pulls nothing. -/
def Obligations.PendingBytesDecideTheStatus : Prop :=
  (∀ s : State, s.enc.fin = false → s.enc.inp.exhausted = true → s.enc.out.exhausted = true →
    ∃ t, exec .encEncode s = .next t ∧ Answered s t (if s.enc.pend then .needsMoreOutput else .allInputConsumed) ∧
      t.enc = s.enc) ∧
  (∀ s : State, s.dec.fin = false → s.dec.inp.exhausted = true → s.dec.out.exhausted = true →
    ∃ t, exec .decDecode s = .next t ∧ Answered s t (if s.dec.pend then .needsMoreOutput else .allInputConsumed) ∧
      t.dec = s.dec) ∧
  (∀ (i : Instr) (s : State), i = .encEncode ∨ i = .encFinalize → s.enc.fin = false → s.enc.pend = true →
    s.enc.out.room < 8 - s.enc.ecnt.val →
    ∃ t, exec i s = .next t ∧ Answered s t .needsMoreOutput ∧ t.enc.inp = s.enc.inp ∧ t.enc.rs = s.enc.rs) ∧
  (∀ (i : Instr) (s : State), i = .decDecode ∨ i = .decFinalize → DecInv Config.decTailPolicy s.dec → s.dec.fin = false →
    s.dec.pend = true → s.dec.out.room < s.dec.rlim.val - s.dec.rcnt.val →
    ∃ t, exec i s = .next t ∧ Answered s t .needsMoreOutput ∧ t.dec.inp = s.dec.inp ∧ t.dec.es = s.dec.es)

/-! ### The Encoder -/

/-- R91, R92, R93. The model's bounded recursions are the spec's loops: the bound never ends one early. -/
def Obligations.EncLoopsFollowTheSpec : Prop :=
  ∀ e : Enc,
    (encDrain e = if e.pend = true ∧ e.out.pos < e.out.cap then encDrain (encDrainByte e) else e) ∧
    (encFill e =
      if e.inp.pos < e.inp.len then
        if e.rcnt = 6 then (.full, encTransform (encStageByte e))
        else encFill { encStageByte e with rcnt := e.rcnt + 1 }
      else (.starved, e)) ∧
    (encRun e =
      if (encDrain e).pend = true then (.needsMoreOutput, encDrain e)
      else if (encFill (encDrain e)).1 = .starved then (.allInputConsumed, (encFill (encDrain e)).2)
      else encRun (encFill (encDrain e)).2)

/-- R17, R90. The run is one byte-level action after another, and the phase says which comes next: a Draining unit drains the next
owed byte if the view has room and else stops with `NeedsMoreOutput`; a Filling unit pulls the next byte if there is one, the
seventh followed at once by the transform, and else stops with `AllInputConsumed`. -/
def Obligations.EncRunGoesByteByByte : Prop :=
  ∀ e : Enc,
    (phaseOf e.fin e.pend = .draining → e.out.pos < e.out.cap → encRun e = encRun (encDrainByte e)) ∧
    (phaseOf e.fin e.pend = .draining → ¬ e.out.pos < e.out.cap → encRun e = (.needsMoreOutput, e)) ∧
    (phaseOf e.fin e.pend = .filling → e.inp.pos < e.inp.len → e.rcnt ≠ 6 →
      encRun e = encRun { encStageByte e with rcnt := e.rcnt + 1 }) ∧
    (phaseOf e.fin e.pend = .filling → e.inp.pos < e.inp.len → e.rcnt = 6 →
      encRun e = encRun (encTransform (encStageByte e))) ∧
    (phaseOf e.fin e.pend = .filling → ¬ e.inp.pos < e.inp.len → encRun e = (.allInputConsumed, e))

/-- R91. "The count of bytes drained is `min(p, c)`"; they are the first of the bytes owed, in index order; the counter and
`PEND` follow; nothing else of the unit changes. -/
def Obligations.EncDrainDeliversWhatTheViewAccepts : Prop :=
  ∀ (e : Enc) (p c n : Nat), p = (if e.pend then 8 - e.ecnt.val else 0) → c = e.out.room → n = min p c →
    (encDrain e).out.pos = e.out.pos + n ∧
    drained e.out (encDrain e).out = (encOwed e).take n ∧
    DrainedOnly e.out (encDrain e).out ∧
    ((encDrain e).pend = true ↔ n < p) ∧
    (encDrain e).ecnt.val = (if n < p then e.ecnt.val + n else if e.pend then 0 else e.ecnt.val) ∧
    encDrain e = { e with out := (encDrain e).out, pend := (encDrain e).pend, ecnt := (encDrain e).ecnt }

/-- R99, R94. `ENC.ENCODE` on a Streaming unit: the closed form of `EncRun`, with its status, its counters, how many bytes it
pulls and how many it drains. -/
def Obligations.EncodeClosedForm : Prop :=
  ∀ (s : State) (p r a c c' B m : Nat), EncInv s.enc → s.enc.fin = false →
    p = (if s.enc.pend then 8 - s.enc.ecnt.val else 0) → r = s.enc.rcnt.val →
    a = s.enc.inp.len - s.enc.inp.pos → c = s.enc.out.cap - s.enc.out.pos →
    c' = c - p → B = (r + a) / 7 → m = c' / 8 + 1 →
    ∃ t, exec .encEncode s = .next t ∧ OnlyEnc s t ∧ t.enc.fin = false ∧
      PulledOnly s.enc.inp t.enc.inp ∧ DrainedOnly s.enc.out t.enc.out ∧
      if c < p then
        Answered s t .needsMoreOutput ∧ t.enc.inp.pos = s.enc.inp.pos ∧ t.enc.out.pos = s.enc.out.pos + c ∧
        t.enc.pend = true ∧ t.enc.rcnt = 0 ∧ t.enc.ecnt.val = s.enc.ecnt.val + c
      else if 8 * B ≤ c' then
        Answered s t .allInputConsumed ∧ t.enc.inp.pos = s.enc.inp.pos + a ∧ t.enc.out.pos = s.enc.out.pos + (p + 8 * B) ∧
        t.enc.pend = false ∧ t.enc.rcnt.val = (r + a) % 7 ∧ t.enc.ecnt = 0
      else
        Answered s t .needsMoreOutput ∧ t.enc.inp.pos = s.enc.inp.pos + (7 * m - r) ∧
        t.enc.out.pos = s.enc.out.pos + c ∧
        t.enc.pend = true ∧ t.enc.rcnt = 0 ∧ t.enc.ecnt.val = c' % 8

/-- R94, R93, R35. `ENC.ENCODE` on a Streaming unit, the bytes: it drains, in order, as much as the view accepts of the bytes
owed and the encoding of the whole blocks that its staged and unread bytes make; what is left is still to come; it answers
`AllInputConsumed` just when all of it fitted, and then the bytes of the last incomplete block are staged. -/
def Obligations.EncodeDrainsTheEncodedStream : Prop :=
  ∀ s : State, EncInv s.enc → s.enc.fin = false →
    ∃ t, exec .encEncode s = .next t ∧ OnlyEnc s t ∧ t.enc.fin = false ∧
      PulledOnly s.enc.inp t.enc.inp ∧ DrainedOnly s.enc.out t.enc.out ∧
      drained s.enc.out t.enc.out = (encBlocksLeft s.enc).take s.enc.out.room ∧
      encBlocksLeft t.enc = (encBlocksLeft s.enc).drop s.enc.out.room ∧
      encStreamLeft s.enc = drained s.enc.out t.enc.out ++ encStreamLeft t.enc ∧
      if (encBlocksLeft s.enc).length ≤ s.enc.out.room then
        Answered s t .allInputConsumed ∧ t.enc.inp.exhausted = true ∧ t.enc.pend = false ∧
        encStaged t.enc = lastPart 7 (encStaged s.enc ++ unread s.enc.inp)
      else
        Answered s t .needsMoreOutput ∧ t.enc.out.exhausted = true ∧ t.enc.pend = true ∧ t.enc.rcnt = 0

/-- R95. `ENC.FINALIZE` on a Streaming unit: it drains as much as the view accepts of the bytes owed and the encoding of the
staged and unread bytes, the last block zero-padded; if all of it fits it answers `Finished` and the unit is Finalized, and
otherwise `NeedsMoreOutput` with the rest still to come. -/
def Obligations.EncFinalizeFlushesAndFinishes : Prop :=
  ∀ s : State, EncInv s.enc → s.enc.fin = false →
    ∃ t, exec .encFinalize s = .next t ∧ OnlyEnc s t ∧
      PulledOnly s.enc.inp t.enc.inp ∧ DrainedOnly s.enc.out t.enc.out ∧
      drained s.enc.out t.enc.out = (encStreamLeft s.enc).take s.enc.out.room ∧
      if (encStreamLeft s.enc).length ≤ s.enc.out.room then
        Answered s t .finished ∧ encPosition t.enc = (true, false, 0, 0) ∧ t.enc.inp.exhausted = true ∧
        t.enc.out.pos = s.enc.out.pos + (encStreamLeft s.enc).length
      else
        Answered s t .needsMoreOutput ∧ t.enc.fin = false ∧ t.enc.pend = true ∧ t.enc.rcnt = 0 ∧
        t.enc.out.exhausted = true ∧ encStreamLeft t.enc = (encStreamLeft s.enc).drop s.enc.out.room

/-- R96. Padding: `FINALIZE` with `k` raw bytes staged, `1 ≤ k ≤ 6`, nothing pending and the input exhausted. The padded
block's guard byte has bits `6 − k` to 0 equal to 0 and its body bytes from `k + 1` on are 0x00, the staged bytes are encoded as
usual, `RCNT` returns to 0, and `IN_POS` does not move.

The statement reads the padded block off `ES`. Where the output view has room for all of it, the block has been drained and `ES`
is dead (R27: any value): that it still holds the block is then the model's choice and no rule's (assumption log 10, DEDUCED,
unsafe). Of the bytes still owed it is what R92, R95 and R96 say. -/
def Obligations.EncFinalizePadsWithZeros : Prop :=
  ∀ s : State, s.enc.fin = false → s.enc.pend = false → 1 ≤ s.enc.rcnt.val → s.enc.inp.exhausted = true →
    ∃ t, exec .encFinalize s = .next t ∧ t.enc.inp = s.enc.inp ∧ t.enc.rcnt = 0 ∧ t.enc.es[0].getLsbD 7 = false ∧
      ∀ i (h : i < 7),
        if i < s.enc.rcnt.val then
          t.enc.es[0].getLsbD (6 - i) = s.enc.rs[i].getLsbD 7 ∧ t.enc.es[i + 1] = s.enc.rs[i] &&& 0x7F
        else
          t.enc.es[0].getLsbD (6 - i) = false ∧ t.enc.es[i + 1] = 0x00

/-- R97, R117. `FINALIZE` of a block-aligned unit with nothing pending and the input exhausted emits nothing more: the unit is
Finalized, and nothing else changes, whatever the output capacity. -/
def Obligations.FinalizeOfAnAlignedStreamEmitsNothing : Prop :=
  (∀ s : State, s.enc.fin = false → s.enc.pend = false → s.enc.rcnt = 0 → s.enc.inp.exhausted = true →
    exec .encFinalize s =
      .next { s with enc := { s.enc with fin := true }, replies := s.replies ++ [⟨.finished, none⟩] }) ∧
  (∀ s : State, s.dec.fin = false → s.dec.pend = false → s.dec.ecnt = 0 → s.dec.inp.exhausted = true →
    exec .decFinalize s =
      .next { s with dec := { s.dec with fin := true }, replies := s.replies ++ [⟨.finished, none⟩] })

/-- R100. "Every byte `ENC` drains has bit 7 equal to 0", by whatever command. -/
def Obligations.EncOutputIsSevenBitClean : Prop :=
  ∀ (i : Instr) (s t : State), EncInv s.enc → exec i s = .next t →
    ∀ b ∈ drained s.enc.out t.enc.out, b.getLsbD 7 = false

/-! ### The Decoder -/

/-- R111, R112, R113. The model's bounded recursions are the spec's loops: the bound never ends one early. -/
def Obligations.DecLoopsFollowTheSpec : Prop :=
  ∀ d : Dec,
    (decDrain d = if d.pend = true ∧ d.out.pos < d.out.cap then decDrain (decDrainByte d) else d) ∧
    (decFill d =
      if d.inp.pos < d.inp.len then
        if d.ecnt = 7 then (.full, decTransform 7 (decStageByte d))
        else decFill { decStageByte d with ecnt := d.ecnt + 1 }
      else (.starved, d)) ∧
    (decRun d =
      if (decDrain d).pend = true then (.needsMoreOutput, decDrain d)
      else if (decFill (decDrain d)).1 = .starved then (.allInputConsumed, (decFill (decDrain d)).2)
      else decRun (decFill (decDrain d)).2)

/-- R17, R110. The run is one byte-level action after another, and the phase says which comes next, as in the Encoder with the
block roles exchanged. -/
def Obligations.DecRunGoesByteByByte : Prop :=
  ∀ d : Dec,
    (phaseOf d.fin d.pend = .draining → d.out.pos < d.out.cap → decRun d = decRun (decDrainByte d)) ∧
    (phaseOf d.fin d.pend = .draining → ¬ d.out.pos < d.out.cap → decRun d = (.needsMoreOutput, d)) ∧
    (phaseOf d.fin d.pend = .filling → d.inp.pos < d.inp.len → d.ecnt ≠ 7 →
      decRun d = decRun { decStageByte d with ecnt := d.ecnt + 1 }) ∧
    (phaseOf d.fin d.pend = .filling → d.inp.pos < d.inp.len → d.ecnt = 7 →
      decRun d = decRun (decTransform 7 (decStageByte d))) ∧
    (phaseOf d.fin d.pend = .filling → ¬ d.inp.pos < d.inp.len → decRun d = (.allInputConsumed, d))

/-- R111. "The count of bytes drained is `min(p, c)`" with `p = RLIM − RCNT`; they are the first of the bytes owed, in index
order; the counter, `PEND` and `RLIM` follow; nothing else of the unit changes. The premise is R19(d), for either policy. -/
def Obligations.DecDrainDeliversWhatTheViewAccepts : Prop :=
  ∀ (d : Dec) (p c n : Nat), (d.pend = true → d.rcnt.val < d.rlim.val) →
    p = (if d.pend then d.rlim.val - d.rcnt.val else 0) → c = d.out.room → n = min p c →
    (decDrain d).out.pos = d.out.pos + n ∧
    drained d.out (decDrain d).out = (decOwed d).take n ∧
    DrainedOnly d.out (decDrain d).out ∧
    ((decDrain d).pend = true ↔ n < p) ∧
    (decDrain d).rcnt.val = (if n < p then d.rcnt.val + n else if d.pend then 0 else d.rcnt.val) ∧
    (decDrain d).rlim = (if d.pend = true ∧ n = p then 7 else d.rlim) ∧
    decDrain d =
      { d with out := (decDrain d).out, pend := (decDrain d).pend, rcnt := (decDrain d).rcnt, rlim := (decDrain d).rlim }

/-- R120, R114. `DEC.DECODE` on a Streaming unit: the closed form of `DecRun`, with its status, its counters, how many bytes
it pulls and how many it drains. -/
def Obligations.DecodeClosedForm : Prop :=
  ∀ (s : State) (p q a c c' B m : Nat), DecInv Config.decTailPolicy s.dec → s.dec.fin = false →
    p = (if s.dec.pend then s.dec.rlim.val - s.dec.rcnt.val else 0) → q = s.dec.ecnt.val →
    a = s.dec.inp.len - s.dec.inp.pos → c = s.dec.out.cap - s.dec.out.pos →
    c' = c - p → B = (q + a) / 8 → m = c' / 7 + 1 →
    ∃ t, exec .decDecode s = .next t ∧ OnlyDec s t ∧ t.dec.fin = false ∧ t.dec.rlim = 7 ∧
      PulledOnly s.dec.inp t.dec.inp ∧ DrainedOnly s.dec.out t.dec.out ∧
      if c < p then
        Answered s t .needsMoreOutput ∧ t.dec.inp.pos = s.dec.inp.pos ∧ t.dec.out.pos = s.dec.out.pos + c ∧
        t.dec.pend = true ∧ t.dec.ecnt = 0 ∧ t.dec.rcnt.val = s.dec.rcnt.val + c
      else if 7 * B ≤ c' then
        Answered s t .allInputConsumed ∧ t.dec.inp.pos = s.dec.inp.pos + a ∧ t.dec.out.pos = s.dec.out.pos + (p + 7 * B) ∧
        t.dec.pend = false ∧ t.dec.ecnt.val = (q + a) % 8 ∧ t.dec.rcnt = 0
      else
        Answered s t .needsMoreOutput ∧ t.dec.inp.pos = s.dec.inp.pos + (8 * m - q) ∧
        t.dec.out.pos = s.dec.out.pos + c ∧
        t.dec.pend = true ∧ t.dec.ecnt = 0 ∧ t.dec.rcnt.val = c' % 7

/-- R114, R113, R35. `DEC.DECODE` on a Streaming unit, the bytes: it drains, in order, as much as the view accepts of the bytes
owed and the decoding of the whole blocks that its staged and unread bytes make. -/
def Obligations.DecodeDrainsTheDecodedStream : Prop :=
  ∀ s : State, DecInv Config.decTailPolicy s.dec → s.dec.fin = false →
    ∃ t, exec .decDecode s = .next t ∧ OnlyDec s t ∧ t.dec.fin = false ∧
      PulledOnly s.dec.inp t.dec.inp ∧ DrainedOnly s.dec.out t.dec.out ∧
      drained s.dec.out t.dec.out = (decBlocksLeft s.dec).take s.dec.out.room ∧
      decBlocksLeft t.dec = (decBlocksLeft s.dec).drop s.dec.out.room ∧
      (∀ p, decStreamLeft p s.dec = drained s.dec.out t.dec.out ++ decStreamLeft p t.dec) ∧
      if (decBlocksLeft s.dec).length ≤ s.dec.out.room then
        Answered s t .allInputConsumed ∧ t.dec.inp.exhausted = true ∧ t.dec.pend = false ∧
        decStaged t.dec = lastPart 8 (decStaged s.dec ++ unread s.dec.inp)
      else
        Answered s t .needsMoreOutput ∧ t.dec.out.exhausted = true ∧ t.dec.pend = true ∧ t.dec.ecnt = 0

/-- R115, R116. `DEC.FINALIZE` on a Streaming unit, for hardware built with either tail policy: it drains as much as the view
accepts of the bytes owed and the decoding of the staged and unread bytes, the last block zero-padded and its first `TailCount`
bytes delivered; if all of it fits it answers `Finished` and the unit is Finalized, and otherwise `NeedsMoreOutput` with the
rest still to come. This hardware is built with `DRAIN_ALL`. -/
def Obligations.DecFinalizeFlushesAndFinishes : Prop :=
  (∀ (p : TailPolicy) (s : State), DecInv p s.dec → s.dec.fin = false →
    ∃ t, decFinalizeUnder p s = .next t ∧ OnlyDec s t ∧
      PulledOnly s.dec.inp t.dec.inp ∧ DrainedOnly s.dec.out t.dec.out ∧
      drained s.dec.out t.dec.out = (decStreamLeft p s.dec).take s.dec.out.room ∧
      if (decStreamLeft p s.dec).length ≤ s.dec.out.room then
        Answered s t .finished ∧ decPosition t.dec = (true, false, 0, 0) ∧ t.dec.inp.exhausted = true ∧
        t.dec.out.pos = s.dec.out.pos + (decStreamLeft p s.dec).length
      else
        Answered s t .needsMoreOutput ∧ t.dec.fin = false ∧ t.dec.pend = true ∧ t.dec.ecnt = 0 ∧
        t.dec.out.exhausted = true ∧ decStreamLeft p t.dec = (decStreamLeft p s.dec).drop s.dec.out.room) ∧
  ∀ s : State, exec .decFinalize s = decFinalizeUnder .drainAll s

/-- R123. The values of the derived trailing bytes: `FINALIZE` with `k` encoded bytes staged, `1 ≤ k ≤ 7`, nothing pending, the
input exhausted and room for the block. Raw bytes whose body byte was received are decoded from it; each of the others is 0x80
or 0x00 as its guard bit is 1 or 0. -/
def Obligations.DecFinalizeDerivesTheTrailingBytes : Prop :=
  ∀ s : State, s.dec.fin = false → s.dec.pend = false → 1 ≤ s.dec.ecnt.val → s.dec.inp.exhausted = true →
    7 ≤ s.dec.out.room →
    ∃ t, exec .decFinalize s = .next t ∧ Answered s t .finished ∧ t.dec.out.pos = s.dec.out.pos + 7 ∧
      ∀ i (_ : i < 7),
        Memory.read t.dec.out.space (s.dec.out.pos + i) =
          (if s.dec.es[0].getLsbD (6 - i) then 0x80 else 0x00) |||
            (if i + 1 < s.dec.ecnt.val then (s.dec.es.toList.getD (i + 1) 0) &&& 0x7F else 0x00)

/-- R118, R74, R143. Bit 7 of the encoded bytes is nobody's business: two Decoders whose unread bytes differ in bits 7 only
answer alike and drain the same bytes, and a byte with bit 7 set is stored in `ES` whole. -/
def Obligations.ReservedBitsOfTheInputAreIgnored : Prop :=
  (∀ (i : Instr) (s t t' : State) (m : Memory), i = .decDecode ∨ i = .decFinalize → SameLow7 s.dec.inp.space m →
    exec i s = .next t → exec i { s with dec := { s.dec with inp := { s.dec.inp with space := m } } } = .next t' →
    t'.replies = t.replies ∧ t'.dec.out = t.dec.out ∧ decPosition t'.dec = decPosition t.dec ∧
    t'.dec.inp.pos = t.dec.inp.pos) ∧
  (∀ d : Dec, (decStageByte d).es[d.ecnt] = Memory.read d.inp.space d.inp.pos)

/-! ### The whole machine -/

/-- R25, R151. The values the spec gives for reset (the staging bytes, which it leaves unspecified, are not spoken of). -/
def Obligations.ResetLeavesBothUnitsConstructed : Prop :=
  FreshEnc State.reset.enc ∧ FreshDec State.reset.dec

/-- R150. A reset of the block does to the units what `ENC.INIT` and then `DEC.INIT` do; it gives no response, which is the
model's choice (assumption log 12). -/
def Obligations.BlockResetIsBothInits : Prop :=
  ∀ (s t u v : State) (rest : List HostAct), s.host = .reset :: rest → step s = .next t →
    exec .encInit { s with host := rest } = .next u → exec .decInit u = .next v →
    t = { v with replies := s.replies }

/-- R19. The invariant holds at reset. -/
def Obligations.InvariantHoldsAtReset : Prop := Inv State.reset

/-- R19, R18. Every step keeps the invariant: the counters and flags stay consistent, positions stay within bounds, a pending
encoded block is 7-bit-clean, `RLIM` is 7, and the four view spaces keep their canonical form. -/
def Obligations.EveryStepKeepsTheInvariant : Prop :=
  ∀ s t : State, Inv s → step s = .next t → Inv t

/-- R19(d), R18. The same of `DEC` built with the other tail policy: `DEC.FINALIZE` keeps its invariant under either. -/
def Obligations.DecFinalizeKeepsTheInvariantUnderEitherPolicy : Prop :=
  ∀ (p : TailPolicy) (s t : State), DecInv p s.dec → execUnder p .decFinalize s = .next t → DecInv p t.dec

/-- R22, R23, R40. With views that fit `POSW` bits, whatever `POSW` is, no view register ever overflows. -/
def Obligations.PositionsNeverOverflow : Prop :=
  ∀ (posw : Nat) (s t : State), PositionsFit posw s → RequestsFit posw s → step s = .next t →
    PositionsFit posw t ∧ RequestsFit posw t

/-- R10, R42. The units share nothing: a command to `ENC` leaves `DEC` as it is, and what it does to `ENC` and answers does
not depend on `DEC`; and the other way round; the block commands and the reserved codes touch neither. -/
def Obligations.UnitsShareNothing : Prop :=
  ∀ (i : Instr) (s t : State), exec i s = .next t →
    (unitField (encode i).op = false → t.dec = s.dec ∧
      ∀ (d : Dec) (t' : State), exec i { s with dec := d } = .next t' → t'.enc = t.enc ∧ t'.replies = t.replies) ∧
    (unitField (encode i).op = true → t.enc = s.enc ∧
      ∀ (e : Enc) (t' : State), exec i { s with enc := e } = .next t' → t'.dec = t.dec ∧ t'.replies = t.replies) ∧
    (fnField (encode i).op = 6 ∨ fnField (encode i).op = 7 → t.enc = s.enc ∧ t.dec = s.dec)

/-- R27, R24. The dead staging registers are never read: two states that agree on the live state of both units, and on nothing
else of the staging registers, get the same response to every command and agree on the live state after it, and the host
sees the same of them. -/
def Obligations.DeadStagingRegistersAreNeverRead : Prop :=
  ∀ (i : Instr) (s s' t t' : State), Inv s → Inv s' → EncAlike s.enc s'.enc → DecAlike s.dec s'.dec →
    s.replies = s'.replies → exec i s = .next t → exec i s' = .next t' →
    EncAlike t.enc t'.enc ∧ DecAlike t.dec t'.dec ∧ t.replies = t'.replies ∧ ∀ u, observe u t = observe u t'

/-- R43. A change of `IN` below `IN_POS` has no effect on what a run command or `FINALIZE` then does; a change at or above it
is seen: the unread bytes are those with the one byte changed. -/
def Obligations.EditsAreSeenJustWhenUnread : Prop :=
  (∀ (i : Instr) (s t t' : State) (k : Nat) (b : Byte), i = .encEncode ∨ i = .encFinalize → k < s.enc.inp.pos →
    exec i s = .next t → exec i (hostEdit .enc k b s) = .next t' →
    t'.replies = t.replies ∧ t'.enc = { t.enc with inp := t'.enc.inp } ∧ t'.enc.inp.pos = t.enc.inp.pos) ∧
  (∀ (i : Instr) (s t t' : State) (k : Nat) (b : Byte), i = .decDecode ∨ i = .decFinalize → k < s.dec.inp.pos →
    exec i s = .next t → exec i (hostEdit .dec k b s) = .next t' →
    t'.replies = t.replies ∧ t'.dec = { t.dec with inp := t'.dec.inp } ∧ t'.dec.inp.pos = t.dec.inp.pos) ∧
  (∀ (v : InView) (k : Nat) (b : Byte), v.pos ≤ k → k < v.len → unread (v.edit k b) = (unread v).set (k - v.pos) b)

/-! ### The streams -/

/-- R101. Independence from fragmentation: whatever commands the host issues and however it cuts its input and its output
room, under the conditions of R101 the bytes drained until `ENC` is Finalized are `Mcoded7` of the bytes fed. -/
def Obligations.EncStreamIsMcoded7OfTheInput : Prop :=
  ∀ (s : State) (cmds : List Instr) (b : Books), FreshEnc s.enc → encBooks cmds (Books.opened s) = some b →
    b.st.enc.fin = true → b.got = mcoded7 b.fed

/-- R102. The length of the encoded stream is `8 · ceil(L / 7)`. -/
def Obligations.EncStreamLength : Prop :=
  ∀ (s : State) (cmds : List Instr) (b : Books), FreshEnc s.enc → encBooks cmds (Books.opened s) = some b →
    b.st.enc.fin = true → b.got.length = 8 * ((b.fed.length + 6) / 7)

/-- R103. No length is carried: a stream that is not block-aligned and the same stream followed by as many zero bytes as its last
block has room for give exactly the same encoded bytes. -/
def Obligations.NoLengthIsCarried : Prop :=
  ∀ (s s' : State) (cmds cmds' : List Instr) (b b' : Books) (z : Nat), FreshEnc s.enc → FreshEnc s'.enc →
    encBooks cmds (Books.opened s) = some b → encBooks cmds' (Books.opened s') = some b' →
    b.st.enc.fin = true → b'.st.enc.fin = true →
    b.fed.length % 7 ≠ 0 → z ≤ 7 - b.fed.length % 7 → b'.fed = b.fed ++ List.replicate z 0x00 → b'.got = b.got

/-- R122. The same of the Decoder, under either tail policy, with the length of the decoded stream. -/
def Obligations.DecStreamIsTheDecodingOfTheInput : Prop :=
  ∀ (p : TailPolicy) (s : State) (cmds : List Instr) (b : Books), FreshDec s.dec →
    decBooks p cmds (Books.opened s) = some b → b.st.dec.fin = true →
    b.got = unmcoded7 p b.fed ∧
    b.got.length =
      match p with
      | .drainAll => 7 * ((b.fed.length + 7) / 8)
      | .suppressPad => 7 * (b.fed.length / 8) + (b.fed.length % 8 - 1)

/-- R121. Round trip: a stream encoded by `ENC` and decoded by `DEC` under either tail policy, however either was driven, comes
back followed by the encoder's zero padding up to a whole block, and both streams are a whole number of blocks. -/
def Obligations.RoundTripThroughBothUnits : Prop :=
  ∀ (p : TailPolicy) (s s' : State) (cmds cmds' : List Instr) (b b' : Books), FreshEnc s.enc → FreshDec s'.dec →
    encBooks cmds (Books.opened s) = some b → decBooks p cmds' (Books.opened s') = some b' →
    b.st.enc.fin = true → b'.st.dec.fin = true → b'.fed = b.got →
    b'.got = b.fed ++ List.replicate ((7 - b.fed.length % 7) % 7) 0x00 ∧
    b.got.length = 8 * ((b.fed.length + 6) / 7) ∧ b'.got.length = 7 * ((b.fed.length + 6) / 7)

/-! ### What the host sees -/

/-- R24, R43, R163, R34, R23. Between commands the host reads the four view registers of a unit and every byte of its `OUT`, those
at `OUT_POS` and above too: a newly bound output view shows the bytes the host left in it, and the bytes a unit has written
into its view are those below `OUT_POS`. -/
def Obligations.HostReadsThePositionsAndAllOfOut : Prop :=
  (∀ s : State,
    (observe .enc s).inPos = s.enc.inp.pos ∧ (observe .enc s).inLen = s.enc.inp.len ∧
    (observe .enc s).outPos = s.enc.out.pos ∧ (observe .enc s).outCap = s.enc.out.cap ∧
    (observe .enc s).outBytes.length = s.enc.out.cap ∧
    (∀ k (h : k < (observe .enc s).outBytes.length), (observe .enc s).outBytes[k] = Memory.read s.enc.out.space k) ∧
    (s.enc.out.pos ≤ s.enc.out.cap →
      (observe .enc s).written = drained { s.enc.out with pos := 0 } s.enc.out) ∧
    (observe .dec s).inPos = s.dec.inp.pos ∧ (observe .dec s).inLen = s.dec.inp.len ∧
    (observe .dec s).outPos = s.dec.out.pos ∧ (observe .dec s).outCap = s.dec.out.cap ∧
    (observe .dec s).outBytes.length = s.dec.out.cap ∧
    (∀ k (h : k < (observe .dec s).outBytes.length), (observe .dec s).outBytes[k] = Memory.read s.dec.out.space k) ∧
    (s.dec.out.pos ≤ s.dec.out.cap →
      (observe .dec s).written = drained { s.dec.out with pos := 0 } s.dec.out)) ∧
  ∀ (o : ViewOperand) (s : State),
    (∃ t, exec (.encRebindOut o) s = .next t ∧ (observe .enc t).outBytes = o.ref ∧ (observe .enc t).written = []) ∧
    (∃ t, exec (.decRebindOut o) s = .next t ∧ (observe .dec t).outBytes = o.ref ∧ (observe .dec t).written = [])
end

