-- ==== Sys2Proof/Laws/Memory.lean ====
section
/-! SUPPORT. The laws of a view space: what a read gives after a write, and that every operation keeps the canonical form. -/

namespace Sys2Proof.Machine

/-! ### Reading -/

@[simp] theorem Memory.read_nil (i : Nat) : Memory.read [] i = Memory.unlisted := rfl

theorem Memory.read_without_same (m : Memory) (i : Nat) : Memory.read (Memory.without m i) i = Memory.unlisted := by
  induction m with
  | nil => rfl
  | cons c m ih =>
    obtain ⟨a, b⟩ := c
    by_cases h : a = i
    · simp_all [Memory.without]
    · have h' : i ≠ a := fun e => h e.symm
      simp_all [Memory.without, Memory.read]

theorem Memory.read_without_other (m : Memory) {i j : Nat} (h : j ≠ i) :
    Memory.read (Memory.without m i) j = Memory.read m j := by
  induction m with
  | nil => rfl
  | cons c m ih =>
    obtain ⟨a, b⟩ := c
    by_cases ha : a = i
    · have hj : j ≠ a := by omega
      simp_all [Memory.without, Memory.read]
    · simp_all [Memory.without, Memory.read]

/-- A placed cell is read back where no cell of its index stands before it. -/
theorem Memory.read_place_same (m : Memory) (i : Nat) (v : Byte) (h : ∀ c ∈ m, c.1 ≠ i) :
    Memory.read (Memory.place m i v) i = v := by
  induction m with
  | nil => simp [Memory.place, Memory.read]
  | cons c m ih =>
    obtain ⟨a, b⟩ := c
    have ha : i ≠ a := fun e => h (a, b) (by simp) e.symm
    simp only [Memory.place]
    split
    · simp [Memory.read]
    · simp [Memory.read, ha, ih fun c hc => h c (by simp [hc])]

theorem Memory.read_place_other (m : Memory) {i j : Nat} (v : Byte) (h : j ≠ i) :
    Memory.read (Memory.place m i v) j = Memory.read m j := by
  induction m with
  | nil => simp [Memory.place, Memory.read, h]
  | cons c m ih =>
    obtain ⟨a, b⟩ := c
    simp only [Memory.place]
    split <;> simp [Memory.read, h, ih]

/-- A read after a write to the same index gives the byte written. -/
@[simp] theorem Memory.read_write_same (m : Memory) (i : Nat) (v : Byte) : Memory.read (Memory.write m i v) i = v := by
  unfold Memory.write
  split
  · simp_all [Memory.read_without_same]
  · exact Memory.read_place_same _ _ _ (by simp [Memory.without])

/-- A write leaves every other index alone. -/
theorem Memory.read_write_other (m : Memory) {i j : Nat} (v : Byte) (h : j ≠ i) :
    Memory.read (Memory.write m i v) j = Memory.read m j := by
  unfold Memory.write
  split <;> simp [Memory.read_place_other, Memory.read_without_other, h]

theorem Memory.read_write (m : Memory) (i j : Nat) (v : Byte) :
    Memory.read (Memory.write m i v) j = if j = i then v else Memory.read m j := by
  split
  · subst_vars; simp
  · exact Memory.read_write_other m v ‹_›

theorem Memory.read_ofBytesFrom_below (bs : List Byte) (k i : Nat) (h : i < k) :
    Memory.read (Memory.ofBytesFrom k bs) i = Memory.unlisted := by
  induction bs generalizing k with
  | nil => rfl
  | cons b bs ih =>
    simp only [Memory.ofBytesFrom]
    split
    · exact ih (k + 1) (by omega)
    · simp [Memory.read, Nat.ne_of_lt h, ih (k + 1) (by omega)]

theorem Memory.read_ofBytesFrom (bs : List Byte) (k i : Nat) :
    Memory.read (Memory.ofBytesFrom k bs) (k + i) = bs.getD i Memory.unlisted := by
  induction bs generalizing k i with
  | nil => simp [Memory.ofBytesFrom]
  | cons b bs ih =>
    cases i with
    | zero =>
      simp only [Memory.ofBytesFrom]
      split
      · simp_all [Memory.read_ofBytesFrom_below]
      · simp [Memory.read]
    | succ i =>
      have := ih (k + 1) i
      simp only [Memory.ofBytesFrom]
      split
      · simpa [Nat.add_assoc, Nat.add_comm 1 i] using this
      · simpa [Memory.read, Nat.add_assoc, Nat.add_comm 1 i] using this

/-- The space of a byte sequence reads as the sequence. -/
theorem Memory.read_ofBytes (bs : List Byte) (i : Nat) :
    Memory.read (Memory.ofBytes bs) i = bs.getD i Memory.unlisted := by
  simpa [Memory.ofBytes] using Memory.read_ofBytesFrom bs 0 i

/-! ### The canonical form -/

theorem Memory.wfFrom_mono {m : Memory} {lo lo' : Nat} (h : lo' ≤ lo) (w : Memory.wfFrom lo m = true) :
    Memory.wfFrom lo' m = true := by
  cases m with
  | nil => rfl
  | cons c m =>
    obtain ⟨a, b⟩ := c
    simp only [Memory.wfFrom, Bool.and_eq_true, decide_eq_true_eq] at w ⊢
    exact ⟨⟨by omega, w.1.2⟩, w.2⟩

theorem Memory.wfFrom_without {m : Memory} {lo : Nat} (i : Nat) (w : Memory.wfFrom lo m = true) :
    Memory.wfFrom lo (Memory.without m i) = true := by
  induction m generalizing lo with
  | nil => rfl
  | cons c m ih =>
    obtain ⟨a, b⟩ := c
    simp only [Memory.wfFrom, Bool.and_eq_true, decide_eq_true_eq] at w
    by_cases h : a = i
    · simpa [Memory.without, h] using Memory.wfFrom_mono (by omega) (ih w.2)
    · simpa [Memory.without, h, Memory.wfFrom, w.1] using ih w.2

theorem Memory.wfFrom_place {m : Memory} {lo i : Nat} {v : Byte} (hv : v ≠ Memory.unlisted) (hi : lo ≤ i)
    (hm : ∀ c ∈ m, c.1 ≠ i) (w : Memory.wfFrom lo m = true) : Memory.wfFrom lo (Memory.place m i v) = true := by
  induction m generalizing lo with
  | nil => simp [Memory.place, Memory.wfFrom, hv, hi]
  | cons c m ih =>
    obtain ⟨a, b⟩ := c
    simp only [Memory.wfFrom, Bool.and_eq_true, decide_eq_true_eq] at w
    have ha : a ≠ i := hm (a, b) (by simp)
    simp only [Memory.place]
    split
    · simp only [Memory.wfFrom, Bool.and_eq_true, decide_eq_true_eq]
      exact ⟨⟨hi, hv⟩, ⟨by omega, w.1.2⟩, w.2⟩
    · simp only [Memory.wfFrom, Bool.and_eq_true, decide_eq_true_eq]
      exact ⟨w.1, ih (by omega) (fun c hc => hm c (by simp [hc])) w.2⟩

/-- A write keeps the canonical form. -/
theorem Memory.wf_write {m : Memory} (i : Nat) (v : Byte) (w : Memory.wf m = true) :
    Memory.wf (Memory.write m i v) = true := by
  unfold Memory.write
  split
  · exact Memory.wfFrom_without i w
  · exact Memory.wfFrom_place ‹_› (by omega) (by simp [Memory.without]) (Memory.wfFrom_without i w)

theorem Memory.wfFrom_ofBytesFrom (bs : List Byte) (k : Nat) : Memory.wfFrom k (Memory.ofBytesFrom k bs) = true := by
  induction bs generalizing k with
  | nil => rfl
  | cons b bs ih =>
    simp only [Memory.ofBytesFrom]
    split
    · exact Memory.wfFrom_mono (by omega) (ih (k + 1))
    · simp_all [Memory.wfFrom]

/-- The space of a byte sequence is in canonical form. -/
@[simp] theorem Memory.wf_ofBytes (bs : List Byte) : Memory.wf (Memory.ofBytes bs) = true :=
  Memory.wfFrom_ofBytesFrom bs 0

@[simp] theorem Memory.wf_nil : Memory.wf [] = true := rfl

/-! ### No cell outside the space -/

@[simp] theorem Memory.within_nil (n : Nat) : Memory.within n [] = true := rfl

theorem Memory.mem_place {m : Memory} {i : Nat} {v : Byte} {c : Host.Cell} (h : c ∈ Memory.place m i v) :
    c = (i, v) ∨ c ∈ m := by
  induction m with
  | nil => simpa [Memory.place] using h
  | cons d m ih =>
    obtain ⟨a, b⟩ := d
    simp only [Memory.place] at h
    split at h
    · simpa using h
    · rcases List.mem_cons.1 h with h | h
      · simp [h]
      · rcases ih h with h | h <;> simp [h]

/-- A write within the space adds no cell outside it. -/
theorem Memory.within_write {m : Memory} {n i : Nat} (v : Byte) (hi : i < n) (w : Memory.within n m = true) :
    Memory.within n (Memory.write m i v) = true := by
  simp only [Memory.within, List.all_eq_true, decide_eq_true_eq] at w ⊢
  intro c hc
  unfold Memory.write at hc
  split at hc
  · exact w c (List.mem_filter.1 hc).1
  · rcases Memory.mem_place hc with h | h
    · simp [h, hi]
    · exact w c (List.mem_filter.1 h).1

theorem Memory.within_ofBytesFrom (bs : List Byte) (k : Nat) :
    Memory.within (k + bs.length) (Memory.ofBytesFrom k bs) = true := by
  induction bs generalizing k with
  | nil => rfl
  | cons b bs ih =>
    have := ih (k + 1)
    have e : k + 1 + bs.length = k + (bs.length + 1) := by omega
    rw [e] at this
    simp only [Memory.ofBytesFrom, List.length_cons]
    split
    · exact this
    · simp only [Memory.within, List.all_cons, Bool.and_eq_true, decide_eq_true_eq] at this ⊢
      exact ⟨by omega, this⟩

/-- The space of a byte sequence has no cell outside the sequence. -/
theorem Memory.within_ofBytes (bs : List Byte) : Memory.within bs.length (Memory.ofBytes bs) = true := by
  simpa [Memory.ofBytes] using Memory.within_ofBytesFrom bs 0

/-! ### Slices -/

@[simp] theorem Memory.slice_zero (m : Memory) (k : Nat) : Memory.slice m k 0 = [] := rfl

theorem Memory.slice_succ (m : Memory) (k n : Nat) :
    Memory.slice m k (n + 1) = Memory.read m k :: Memory.slice m (k + 1) n := by
  simp [Memory.slice, List.range'_succ]

@[simp] theorem Memory.length_slice (m : Memory) (k n : Nat) : (Memory.slice m k n).length = n := by
  simp [Memory.slice]

@[simp] theorem Memory.getElem_slice (m : Memory) (k n i : Nat) (h : i < (Memory.slice m k n).length) :
    (Memory.slice m k n)[i] = Memory.read m (k + i) := by
  simp [Memory.slice]

/-- The first bytes of a slice are the shorter slice. -/
theorem Memory.take_slice (m : Memory) {k n n' : Nat} (h : n' ≤ n) :
    (Memory.slice m k n).take n' = Memory.slice m k n' :=
  List.ext_getElem (by simp [h]) (by simp)

/-- The space of a byte sequence, read whole, is the sequence. -/
theorem Memory.slice_ofBytes (bs : List Byte) : Memory.slice (Memory.ofBytes bs) 0 bs.length = bs :=
  List.ext_getElem (by simp) (by intro i h _; simp [Memory.read_ofBytes, (by simpa using h : i < bs.length)])

end Sys2Proof.Machine
end

