-- ==== Sys2Proof/Laws/State.lean ====
section
/-! SUPPORT. One lemma for each field under each update of State, and the small laws of the shared operations on it. -/

namespace Sys2Proof.Machine

/-! ### Responses: only `replies` changes -/

@[simp] theorem respond_enc (r : Rsp) (s : State) : (respond r s).enc = s.enc := rfl
@[simp] theorem respond_dec (r : Rsp) (s : State) : (respond r s).dec = s.dec := rfl
@[simp] theorem respond_host (r : Rsp) (s : State) : (respond r s).host = s.host := rfl
@[simp] theorem respond_free (r : Rsp) (s : State) : (respond r s).free = s.free := rfl
@[simp] theorem respond_replies (r : Rsp) (s : State) : (respond r s).replies = s.replies ++ [⟨r, none⟩] := rfl

@[simp] theorem respondBlock_enc (w : BitVec 64) (s : State) : (respondBlock w s).enc = s.enc := rfl
@[simp] theorem respondBlock_dec (w : BitVec 64) (s : State) : (respondBlock w s).dec = s.dec := rfl
@[simp] theorem respondBlock_host (w : BitVec 64) (s : State) : (respondBlock w s).host = s.host := rfl
@[simp] theorem respondBlock_free (w : BitVec 64) (s : State) : (respondBlock w s).free = s.free := rfl
@[simp] theorem respondBlock_replies (w : BitVec 64) (s : State) :
    (respondBlock w s).replies = s.replies ++ [⟨.done, some w⟩] := rfl

/-- Everything that raising a fault can do. -/
theorem raiseFault_next {f : FaultRsp} {s t : State} (h : raiseFault f s = .next t) :
    t = { s with replies := s.replies ++ [⟨faultRsp f, none⟩] } := by
  injection h with h; exact h.symm

/-! ### Construction and reset -/

@[simp] theorem constructEnc_dec (s : State) : (constructEnc s).dec = s.dec := rfl
@[simp] theorem constructEnc_host (s : State) : (constructEnc s).host = s.host := rfl
@[simp] theorem constructEnc_replies (s : State) : (constructEnc s).replies = s.replies := rfl
@[simp] theorem constructEnc_free (s : State) : (constructEnc s).free = s.free + 15 := rfl
@[simp] theorem constructEnc_fin (s : State) : (constructEnc s).enc.fin = false := rfl
@[simp] theorem constructEnc_pend (s : State) : (constructEnc s).enc.pend = false := rfl
@[simp] theorem constructEnc_rcnt (s : State) : (constructEnc s).enc.rcnt = 0 := rfl
@[simp] theorem constructEnc_ecnt (s : State) : (constructEnc s).enc.ecnt = 0 := rfl
@[simp] theorem constructEnc_inp (s : State) : (constructEnc s).enc.inp = InView.empty := rfl
@[simp] theorem constructEnc_out (s : State) : (constructEnc s).enc.out = OutView.empty := rfl

@[simp] theorem constructDec_enc (s : State) : (constructDec s).enc = s.enc := rfl
@[simp] theorem constructDec_host (s : State) : (constructDec s).host = s.host := rfl
@[simp] theorem constructDec_replies (s : State) : (constructDec s).replies = s.replies := rfl
@[simp] theorem constructDec_free (s : State) : (constructDec s).free = s.free + 15 := rfl
@[simp] theorem constructDec_fin (s : State) : (constructDec s).dec.fin = false := rfl
@[simp] theorem constructDec_pend (s : State) : (constructDec s).dec.pend = false := rfl
@[simp] theorem constructDec_rcnt (s : State) : (constructDec s).dec.rcnt = 0 := rfl
@[simp] theorem constructDec_ecnt (s : State) : (constructDec s).dec.ecnt = 0 := rfl
@[simp] theorem constructDec_rlim (s : State) : (constructDec s).dec.rlim = 7 := rfl
@[simp] theorem constructDec_inp (s : State) : (constructDec s).dec.inp = InView.empty := rfl
@[simp] theorem constructDec_out (s : State) : (constructDec s).dec.out = OutView.empty := rfl

/-! ### Binding: only the view changes -/

@[simp] theorem encSetIn_enc (v : ViewOperand) (s : State) : (encSetIn v s).enc = { s.enc with inp := bindIn v } := rfl
@[simp] theorem encSetIn_dec (v : ViewOperand) (s : State) : (encSetIn v s).dec = s.dec := rfl
@[simp] theorem encSetIn_host (v : ViewOperand) (s : State) : (encSetIn v s).host = s.host := rfl
@[simp] theorem encSetIn_replies (v : ViewOperand) (s : State) : (encSetIn v s).replies = s.replies := rfl
@[simp] theorem encSetIn_free (v : ViewOperand) (s : State) : (encSetIn v s).free = s.free := rfl

@[simp] theorem encSetOut_enc (v : ViewOperand) (s : State) : (encSetOut v s).enc = { s.enc with out := bindOut v } := rfl
@[simp] theorem encSetOut_dec (v : ViewOperand) (s : State) : (encSetOut v s).dec = s.dec := rfl
@[simp] theorem encSetOut_host (v : ViewOperand) (s : State) : (encSetOut v s).host = s.host := rfl
@[simp] theorem encSetOut_replies (v : ViewOperand) (s : State) : (encSetOut v s).replies = s.replies := rfl
@[simp] theorem encSetOut_free (v : ViewOperand) (s : State) : (encSetOut v s).free = s.free := rfl

@[simp] theorem decSetIn_dec (v : ViewOperand) (s : State) : (decSetIn v s).dec = { s.dec with inp := bindIn v } := rfl
@[simp] theorem decSetIn_enc (v : ViewOperand) (s : State) : (decSetIn v s).enc = s.enc := rfl
@[simp] theorem decSetIn_host (v : ViewOperand) (s : State) : (decSetIn v s).host = s.host := rfl
@[simp] theorem decSetIn_replies (v : ViewOperand) (s : State) : (decSetIn v s).replies = s.replies := rfl
@[simp] theorem decSetIn_free (v : ViewOperand) (s : State) : (decSetIn v s).free = s.free := rfl

@[simp] theorem decSetOut_dec (v : ViewOperand) (s : State) : (decSetOut v s).dec = { s.dec with out := bindOut v } := rfl
@[simp] theorem decSetOut_enc (v : ViewOperand) (s : State) : (decSetOut v s).enc = s.enc := rfl
@[simp] theorem decSetOut_host (v : ViewOperand) (s : State) : (decSetOut v s).host = s.host := rfl
@[simp] theorem decSetOut_replies (v : ViewOperand) (s : State) : (decSetOut v s).replies = s.replies := rfl
@[simp] theorem decSetOut_free (v : ViewOperand) (s : State) : (decSetOut v s).free = s.free := rfl

@[simp] theorem bindIn_space (v : ViewOperand) : (bindIn v).space = Memory.ofBytes v.ref := rfl
@[simp] theorem bindIn_len (v : ViewOperand) : (bindIn v).len = v.bound := rfl
@[simp] theorem bindIn_pos (v : ViewOperand) : (bindIn v).pos = 0 := rfl
@[simp] theorem bindOut_space (v : ViewOperand) : (bindOut v).space = Memory.ofBytes v.ref := rfl
@[simp] theorem bindOut_cap (v : ViewOperand) : (bindOut v).cap = v.bound := rfl
@[simp] theorem bindOut_pos (v : ViewOperand) : (bindOut v).pos = 0 := rfl

/-! ### The access primitives -/

@[simp] theorem pull_space (v : InView) : v.pull.space = v.space := rfl
@[simp] theorem pull_len (v : InView) : v.pull.len = v.len := rfl
@[simp] theorem pull_pos (v : InView) : v.pull.pos = v.pos + 1 := rfl
@[simp] theorem drain_space (v : OutView) (b : Byte) : (v.drain b).space = Memory.write v.space v.pos b := rfl
@[simp] theorem drain_cap (v : OutView) (b : Byte) : (v.drain b).cap = v.cap := rfl
@[simp] theorem drain_pos (v : OutView) (b : Byte) : (v.drain b).pos = v.pos + 1 := rfl

@[simp] theorem empty_in_avail : InView.empty.avail = 0 := rfl
@[simp] theorem empty_out_room : OutView.empty.room = 0 := rfl

/-- A view with a byte to give has one fewer after a pull. -/
theorem avail_pull (v : InView) (h : v.hasByte = true) : v.avail = v.pull.avail + 1 := by
  simp only [InView.hasByte, decide_eq_true_eq] at h
  simp only [InView.avail, pull_len, pull_pos]
  omega

/-- A view with room has one byte less of it after a drain. -/
theorem room_drain (v : OutView) (b : Byte) (h : v.hasRoom = true) : v.room = (v.drain b).room + 1 := by
  simp only [OutView.hasRoom, decide_eq_true_eq] at h
  simp only [OutView.room, drain_cap, drain_pos]
  omega

theorem hasByte_iff (v : InView) : v.hasByte = true ↔ 0 < v.avail := by
  simp only [InView.hasByte, InView.avail, decide_eq_true_eq]; omega

theorem hasRoom_iff (v : OutView) : v.hasRoom = true ↔ 0 < v.room := by
  simp only [OutView.hasRoom, OutView.room, decide_eq_true_eq]; omega

/-! ### What the host sees -/

@[simp] theorem observeViews_inPos (i : InView) (o : OutView) : (observeViews i o).inPos = i.pos := rfl
@[simp] theorem observeViews_inLen (i : InView) (o : OutView) : (observeViews i o).inLen = i.len := rfl
@[simp] theorem observeViews_outPos (i : InView) (o : OutView) : (observeViews i o).outPos = o.pos := rfl
@[simp] theorem observeViews_outCap (i : InView) (o : OutView) : (observeViews i o).outCap = o.cap := rfl
@[simp] theorem observeViews_outBytes (i : InView) (o : OutView) :
    (observeViews i o).outBytes = Memory.slice o.space 0 o.cap := rfl

/-- The bytes written are the bytes of `OUT` below `OUT_POS`. -/
theorem observeViews_written (i : InView) (o : OutView) (h : o.pos ≤ o.cap) :
    (observeViews i o).written = Memory.slice o.space 0 o.pos := Memory.take_slice o.space h

/-- A newly bound output view shows the host its own bytes. -/
theorem observeViews_bindOut (i : InView) (v : ViewOperand) : (observeViews i (bindOut v)).outBytes = v.ref :=
  Memory.slice_ofBytes v.ref

end Sys2Proof.Machine
end

