-- ==== Sys2Proof/Laws/Decoder.lean ====
section
/-! SUPPORT. What the byte-level steps of `DEC` change and what they leave (spec 43_decoder.md R111 to R113), said once: later
proofs cite these and do not unfold the loops. -/

namespace Sys2Proof.Machine

/-- What no part of a run touches: `FIN`, the input bytes and their number, the output capacity (R31, R111, R112). -/
structure DecKeeps (d d' : Dec) : Prop where
  fin : d'.fin = d.fin
  inSpace : d'.inp.space = d.inp.space
  inLen : d'.inp.len = d.inp.len
  outCap : d'.out.cap = d.out.cap

theorem DecKeeps.refl (d : Dec) : DecKeeps d d := ⟨rfl, rfl, rfl, rfl⟩

theorem DecKeeps.trans {a b c : Dec} (h : DecKeeps a b) (k : DecKeeps b c) : DecKeeps a c :=
  ⟨k.fin.trans h.fin, k.inSpace.trans h.inSpace, k.inLen.trans h.inLen, k.outCap.trans h.outCap⟩

/-! ### The single steps -/

@[simp] theorem decDrainByte_fin (d : Dec) : (decDrainByte d).fin = d.fin := by unfold decDrainByte; split <;> rfl
@[simp] theorem decDrainByte_ecnt (d : Dec) : (decDrainByte d).ecnt = d.ecnt := by unfold decDrainByte; split <;> rfl
@[simp] theorem decDrainByte_rs (d : Dec) : (decDrainByte d).rs = d.rs := by unfold decDrainByte; split <;> rfl
@[simp] theorem decDrainByte_es (d : Dec) : (decDrainByte d).es = d.es := by unfold decDrainByte; split <;> rfl
@[simp] theorem decDrainByte_inp (d : Dec) : (decDrainByte d).inp = d.inp := by unfold decDrainByte; split <;> rfl
@[simp] theorem decDrainByte_out (d : Dec) : (decDrainByte d).out = d.out.drain d.rs[d.rcnt] := by
  unfold decDrainByte; split <;> rfl

/-- The two cases of one drained byte (R111). -/
theorem decDrainByte_cases (d : Dec) :
    (d.rcnt.val + 1 = d.rlim.val ∧
      decDrainByte d = { d with out := d.out.drain d.rs[d.rcnt], rcnt := 0, pend := false, rlim := 7 }) ∨
    (d.rcnt.val + 1 ≠ d.rlim.val ∧ decDrainByte d = { d with out := d.out.drain d.rs[d.rcnt], rcnt := d.rcnt + 1 }) := by
  by_cases h : d.rcnt.val + 1 = d.rlim.val
  · exact .inl ⟨h, by simp [decDrainByte, rawDelivered, h]⟩
  · exact .inr ⟨h, by simp [decDrainByte, rawDelivered, rcntNext, h]⟩

@[simp] theorem decTransform_fin (n : Fin 8) (d : Dec) : (decTransform n d).fin = d.fin := rfl
@[simp] theorem decTransform_pend (n : Fin 8) (d : Dec) : (decTransform n d).pend = true := rfl
@[simp] theorem decTransform_rcnt (n : Fin 8) (d : Dec) : (decTransform n d).rcnt = 0 := rfl
@[simp] theorem decTransform_ecnt (n : Fin 8) (d : Dec) : (decTransform n d).ecnt = 0 := rfl
@[simp] theorem decTransform_rlim (n : Fin 8) (d : Dec) : (decTransform n d).rlim = n := rfl
@[simp] theorem decTransform_rs (n : Fin 8) (d : Dec) : (decTransform n d).rs = decodeBlock d.es := rfl
@[simp] theorem decTransform_inp (n : Fin 8) (d : Dec) : (decTransform n d).inp = d.inp := rfl
@[simp] theorem decTransform_out (n : Fin 8) (d : Dec) : (decTransform n d).out = d.out := rfl

@[simp] theorem decStageByte_fin (d : Dec) : (decStageByte d).fin = d.fin := rfl
@[simp] theorem decStageByte_pend (d : Dec) : (decStageByte d).pend = d.pend := rfl
@[simp] theorem decStageByte_rcnt (d : Dec) : (decStageByte d).rcnt = d.rcnt := rfl
@[simp] theorem decStageByte_ecnt (d : Dec) : (decStageByte d).ecnt = d.ecnt := rfl
@[simp] theorem decStageByte_rlim (d : Dec) : (decStageByte d).rlim = d.rlim := rfl
@[simp] theorem decStageByte_rs (d : Dec) : (decStageByte d).rs = d.rs := rfl
@[simp] theorem decStageByte_inp (d : Dec) : (decStageByte d).inp = d.inp.pull := rfl
@[simp] theorem decStageByte_out (d : Dec) : (decStageByte d).out = d.out := rfl
@[simp] theorem decStageByte_es (d : Dec) : (decStageByte d).es = d.es.set d.ecnt.val d.inp.head := rfl

theorem decDrainByte_keeps (d : Dec) : DecKeeps d (decDrainByte d) :=
  ⟨by simp, by simp, by simp, by simp⟩

/-! ### The drain -/

/-- The drain keeps what each drained byte keeps. -/
theorem decDrainLoop_induct {P : Dec → Dec → Prop} (base : ∀ d, P d d)
    (turn : ∀ d d', d.pend = true → d.out.hasRoom = true → P (decDrainByte d) d' → P d d') (n : Nat) (d : Dec) :
    P d (decDrainLoop n d) := by
  induction n generalizing d with
  | zero => exact base d
  | succ n ih =>
    unfold decDrainLoop
    split
    · rename_i h
      simp only [Bool.and_eq_true] at h
      exact turn d _ h.1 h.2 (ih _)
    · exact base d

theorem decDrain_keeps (d : Dec) : DecKeeps d (decDrain d) :=
  decDrainLoop_induct (P := DecKeeps) DecKeeps.refl (fun d _ _ _ h => (decDrainByte_keeps d).trans h) _ d

/-- The drain leaves the input view and the encoded staging as they are (R111). -/
theorem decDrain_staging (d : Dec) :
    (decDrain d).inp = d.inp ∧ (decDrain d).es = d.es ∧ (decDrain d).ecnt = d.ecnt ∧ (decDrain d).rs = d.rs :=
  decDrainLoop_induct (P := fun d d' => d'.inp = d.inp ∧ d'.es = d.es ∧ d'.ecnt = d.ecnt ∧ d'.rs = d.rs)
    (fun _ => ⟨rfl, rfl, rfl, rfl⟩) (fun d d' _ _ h => by simpa using h) _ d

/-- With nothing pending the drain does nothing (R111). -/
theorem decDrain_idle (d : Dec) (h : d.pend = false) : decDrain d = d := by
  unfold decDrain
  cases d.out.room <;> simp [decDrainLoop, h]

/-! ### The fill and the run -/

theorem decFillLoop_keeps (n : Nat) (d : Dec) : DecKeeps d (decFillLoop n d).2 ∧ (decFillLoop n d).2.out = d.out := by
  induction n generalizing d with
  | zero => exact ⟨DecKeeps.refl d, rfl⟩
  | succ n ih =>
    unfold decFillLoop
    split
    · split
      · exact ⟨⟨rfl, rfl, rfl, rfl⟩, rfl⟩
      · have h := ih { decStageByte d with ecnt := ecntNext d.ecnt }
        exact ⟨⟨h.1.fin, h.1.inSpace, h.1.inLen, h.1.outCap⟩, h.2⟩
    · exact ⟨DecKeeps.refl d, rfl⟩

theorem decFill_keeps (d : Dec) : DecKeeps d (decFill d).2 := (decFillLoop_keeps _ d).1

/-- The fill drains nothing (R112). -/
theorem decFill_out (d : Dec) : (decFill d).2.out = d.out := (decFillLoop_keeps _ d).2

theorem decRunLoop_keeps (n : Nat) (d : Dec) : DecKeeps d (decRunLoop n d).2 := by
  induction n generalizing d with
  | zero => unfold decRunLoop; split <;> exact decDrain_keeps d
  | succ n ih =>
    unfold decRunLoop
    split
    · exact decDrain_keeps d
    · have h := (decDrain_keeps d).trans (decFill_keeps (decDrain d))
      split <;> rename_i he <;> rw [he] at h
      · exact h
      · exact h.trans (ih _)

theorem decRun_keeps (d : Dec) : DecKeeps d (decRun d).2 := decRunLoop_keeps _ d

end Sys2Proof.Machine
end

