-- ==== Sys2Proof/Laws/Encoder.lean ====
section
/-! SUPPORT. What the byte-level steps of `ENC` change and what they leave (spec 42_encoder.md R91 to R93), said once: later
proofs cite these and do not unfold the loops. -/

namespace Sys2Proof.Machine

/-- What no part of a run touches: `FIN`, the input bytes and their number, the output capacity (R31, R91, R92). -/
structure EncKeeps (e e' : Enc) : Prop where
  fin : e'.fin = e.fin
  inSpace : e'.inp.space = e.inp.space
  inLen : e'.inp.len = e.inp.len
  outCap : e'.out.cap = e.out.cap

theorem EncKeeps.refl (e : Enc) : EncKeeps e e := ⟨rfl, rfl, rfl, rfl⟩

theorem EncKeeps.trans {a b c : Enc} (h : EncKeeps a b) (k : EncKeeps b c) : EncKeeps a c :=
  ⟨k.fin.trans h.fin, k.inSpace.trans h.inSpace, k.inLen.trans h.inLen, k.outCap.trans h.outCap⟩

/-! ### The single steps -/

@[simp] theorem encDrainByte_fin (e : Enc) : (encDrainByte e).fin = e.fin := by unfold encDrainByte; split <;> rfl
@[simp] theorem encDrainByte_rcnt (e : Enc) : (encDrainByte e).rcnt = e.rcnt := by unfold encDrainByte; split <;> rfl
@[simp] theorem encDrainByte_rs (e : Enc) : (encDrainByte e).rs = e.rs := by unfold encDrainByte; split <;> rfl
@[simp] theorem encDrainByte_es (e : Enc) : (encDrainByte e).es = e.es := by unfold encDrainByte; split <;> rfl
@[simp] theorem encDrainByte_inp (e : Enc) : (encDrainByte e).inp = e.inp := by unfold encDrainByte; split <;> rfl
@[simp] theorem encDrainByte_out (e : Enc) : (encDrainByte e).out = e.out.drain e.es[e.ecnt] := by
  unfold encDrainByte; split <;> rfl

/-- The two cases of one drained byte (R91). -/
theorem encDrainByte_cases (e : Enc) :
    (e.ecnt = 7 ∧ encDrainByte e = { e with out := e.out.drain e.es[e.ecnt], ecnt := 0, pend := false }) ∨
    (e.ecnt ≠ 7 ∧ encDrainByte e = { e with out := e.out.drain e.es[e.ecnt], ecnt := e.ecnt + 1 }) := by
  by_cases h : e.ecnt = 7
  · exact .inl ⟨h, by simp [encDrainByte, encodedFull, h]⟩
  · exact .inr ⟨h, by simp [encDrainByte, encodedFull, ecntNext, h]⟩

@[simp] theorem encTransform_fin (e : Enc) : (encTransform e).fin = e.fin := rfl
@[simp] theorem encTransform_pend (e : Enc) : (encTransform e).pend = true := rfl
@[simp] theorem encTransform_rcnt (e : Enc) : (encTransform e).rcnt = 0 := rfl
@[simp] theorem encTransform_ecnt (e : Enc) : (encTransform e).ecnt = 0 := rfl
@[simp] theorem encTransform_es (e : Enc) : (encTransform e).es = encodeBlock e.rs := rfl
@[simp] theorem encTransform_inp (e : Enc) : (encTransform e).inp = e.inp := rfl
@[simp] theorem encTransform_out (e : Enc) : (encTransform e).out = e.out := rfl

@[simp] theorem encStageByte_fin (e : Enc) : (encStageByte e).fin = e.fin := rfl
@[simp] theorem encStageByte_pend (e : Enc) : (encStageByte e).pend = e.pend := rfl
@[simp] theorem encStageByte_rcnt (e : Enc) : (encStageByte e).rcnt = e.rcnt := rfl
@[simp] theorem encStageByte_ecnt (e : Enc) : (encStageByte e).ecnt = e.ecnt := rfl
@[simp] theorem encStageByte_es (e : Enc) : (encStageByte e).es = e.es := rfl
@[simp] theorem encStageByte_inp (e : Enc) : (encStageByte e).inp = e.inp.pull := rfl
@[simp] theorem encStageByte_out (e : Enc) : (encStageByte e).out = e.out := rfl
@[simp] theorem encStageByte_rs (e : Enc) : (encStageByte e).rs = e.rs.set e.rcnt.val e.inp.head := rfl

theorem encDrainByte_keeps (e : Enc) : EncKeeps e (encDrainByte e) :=
  ⟨by simp, by simp, by simp, by simp⟩

/-! ### The drain -/

/-- The drain keeps what each drained byte keeps. -/
theorem encDrainLoop_induct {P : Enc → Enc → Prop} (base : ∀ e, P e e)
    (turn : ∀ e e', e.pend = true → e.out.hasRoom = true → P (encDrainByte e) e' → P e e') (n : Nat) (e : Enc) :
    P e (encDrainLoop n e) := by
  induction n generalizing e with
  | zero => exact base e
  | succ n ih =>
    unfold encDrainLoop
    split
    · rename_i h
      simp only [Bool.and_eq_true] at h
      exact turn e _ h.1 h.2 (ih _)
    · exact base e

theorem encDrain_keeps (e : Enc) : EncKeeps e (encDrain e) :=
  encDrainLoop_induct (P := EncKeeps) EncKeeps.refl (fun e _ _ _ h => (encDrainByte_keeps e).trans h) _ e

/-- The drain leaves the input view and the raw staging as they are (R91). -/
theorem encDrain_staging (e : Enc) :
    (encDrain e).inp = e.inp ∧ (encDrain e).rs = e.rs ∧ (encDrain e).rcnt = e.rcnt ∧ (encDrain e).es = e.es :=
  encDrainLoop_induct (P := fun e e' => e'.inp = e.inp ∧ e'.rs = e.rs ∧ e'.rcnt = e.rcnt ∧ e'.es = e.es)
    (fun _ => ⟨rfl, rfl, rfl, rfl⟩) (fun e e' _ _ h => by simpa using h) _ e

/-- With nothing pending the drain does nothing (R91). -/
theorem encDrain_idle (e : Enc) (h : e.pend = false) : encDrain e = e := by
  unfold encDrain
  cases e.out.room <;> simp [encDrainLoop, h]

/-! ### The fill and the run -/

theorem encFillLoop_keeps (n : Nat) (e : Enc) : EncKeeps e (encFillLoop n e).2 ∧ (encFillLoop n e).2.out = e.out := by
  induction n generalizing e with
  | zero => exact ⟨EncKeeps.refl e, rfl⟩
  | succ n ih =>
    unfold encFillLoop
    split
    · split
      · exact ⟨⟨rfl, rfl, rfl, rfl⟩, rfl⟩
      · have h := ih { encStageByte e with rcnt := rcntNext e.rcnt }
        exact ⟨⟨h.1.fin, h.1.inSpace, h.1.inLen, h.1.outCap⟩, h.2⟩
    · exact ⟨EncKeeps.refl e, rfl⟩

theorem encFill_keeps (e : Enc) : EncKeeps e (encFill e).2 := (encFillLoop_keeps _ e).1

/-- The fill drains nothing (R92). -/
theorem encFill_out (e : Enc) : (encFill e).2.out = e.out := (encFillLoop_keeps _ e).2

theorem encRunLoop_keeps (n : Nat) (e : Enc) : EncKeeps e (encRunLoop n e).2 := by
  induction n generalizing e with
  | zero => unfold encRunLoop; split <;> exact encDrain_keeps e
  | succ n ih =>
    unfold encRunLoop
    split
    · exact encDrain_keeps e
    · have h := (encDrain_keeps e).trans (encFill_keeps (encDrain e))
      split <;> rename_i he <;> rw [he] at h
      · exact h
      · exact h.trans (ih _)

theorem encRun_keeps (e : Enc) : EncKeeps e (encRun e).2 := encRunLoop_keeps _ e

end Sys2Proof.Machine
end

