-- ==== Sys2Proof/Laws/PerInstr.lean ====
section
/-! SUPPORT. What is said of every command as syntax, one lemma a constructor: a command that fits narrow view registers fits
wider ones (R53: the bound is a `POSW`-bit number). -/

namespace Sys2Proof

theorem ViewOperand.fits_mono {p q : Nat} (h : p ≤ q) {v : ViewOperand} (w : v.fits p = true) : v.fits q = true := by
  simp only [ViewOperand.fits, decide_eq_true_eq] at w ⊢
  exact Nat.lt_of_lt_of_le w (Nat.pow_le_pow_right (by omega) h)

namespace Laws.FitsWiderRegisters

/-- A command well formed for `POSW = p` is well formed for every larger `POSW`. -/
def Statement (i : Instr) : Prop :=
  ∀ p q : Nat, p ≤ q → i.wellFormed p = true → i.wellFormed q = true

theorem encInit : Statement .encInit := fun _ _ _ _ => rfl

theorem encBind (i o : ViewOperand) : Statement (.encBind i o) := by
  intro p q h w
  simp only [Instr.wellFormed, Bool.and_eq_true] at w ⊢
  exact ⟨i.fits_mono h w.1, o.fits_mono h w.2⟩

theorem encRebindIn (i : ViewOperand) : Statement (.encRebindIn i) := fun _ _ h w => i.fits_mono h w

theorem encRebindOut (o : ViewOperand) : Statement (.encRebindOut o) := fun _ _ h w => o.fits_mono h w

theorem encEncode : Statement .encEncode := fun _ _ _ _ => rfl

theorem encFinalize : Statement .encFinalize := fun _ _ _ _ => rfl

theorem encblk (b : BlockOperand) : Statement (.encblk b) := fun _ _ _ _ => rfl

theorem reserved7 : Statement .reserved7 := fun _ _ _ _ => rfl

theorem decInit : Statement .decInit := fun _ _ _ _ => rfl

theorem decBind (i o : ViewOperand) : Statement (.decBind i o) := by
  intro p q h w
  simp only [Instr.wellFormed, Bool.and_eq_true] at w ⊢
  exact ⟨i.fits_mono h w.1, o.fits_mono h w.2⟩

theorem decRebindIn (i : ViewOperand) : Statement (.decRebindIn i) := fun _ _ h w => i.fits_mono h w

theorem decRebindOut (o : ViewOperand) : Statement (.decRebindOut o) := fun _ _ h w => o.fits_mono h w

theorem decDecode : Statement .decDecode := fun _ _ _ _ => rfl

theorem decFinalize : Statement .decFinalize := fun _ _ _ _ => rfl

theorem decblk (b : BlockOperand) : Statement (.decblk b) := fun _ _ _ _ => rfl

theorem reservedF : Statement .reservedF := fun _ _ _ _ => rfl

end Laws.FitsWiderRegisters

end Sys2Proof
end

