-- ==== Sys2Proof/Laws/Transform.lean ====
section
/-! SUPPORT. The bits of the datapath's parts (spec 40_transform.md R70, R71, R73). -/

namespace Sys2Proof.Machine

/-- `low7(b)` is `b & 0x7F` (R70). -/
theorem low7_eq_and (b : Byte) : low7 b = b &&& 0x7F := by
  revert b; decide

/-- `b = (hibit(b) << 7) | low7(b)` (R70). -/
theorem hibit_low7 (b : Byte) : ((hibit b).setWidth 8 <<< 7) ||| low7 b = b := by
  revert b; decide

@[simp] theorem low7_bit7 (b : Byte) : (low7 b).getLsbD 7 = false := by
  revert b; decide

end Sys2Proof.Machine
end

