-- ==== Sys2Proof/Tests/Slice0.lean ====
section
/-! SUPPORT. Tests: the checks of WellFormed, the words of the opcode map, vectors of spec/95_test_vectors.md on one command each,
and for each statement with hypotheses a concrete state that meets them. Expected values stand in the spec, none is the
model's own answer. -/

namespace Sys2Proof.Tests

open Sys2Proof Sys2Proof.Machine Sys2Proof.Safety

/-! ### Helpers -/

/-- The state a command ends in. -/
def after (o : Host.Outcome State Fault Refusal) : State :=
  match o with
  | .next t => t
  | .fault _ => State.reset
  | .refused _ => State.reset

/-- The last response. -/
def lastRsp (s : State) : Option Rsp := s.replies.getLast?.map Reply.rsp

/-- A view operand of `n` bytes that the host has left as 0xEE. -/
def roomFor (n : Nat) : ViewOperand := ⟨List.replicate n 0xEE⟩

/-- Reset, then both units bound to the same operands. -/
def bound (i o : ViewOperand) : State := decSetOut o (decSetIn i (encSetOut o (encSetIn i State.reset)))

/-- `ENC` and `DEC` with `FIN = 1`. -/
def finalized : State :=
  { State.reset with enc := { State.reset.enc with fin := true }, dec := { State.reset.dec with fin := true } }

/-- The seven bytes of the source's scenario A. -/
def seven : List Byte := [0x41, 0x42, 0x43, 0x44, 0x45, 0x46, 0x47]

/-- `ENC` as in vector E3a after the first `ENCODE` (`ECNT = 5`), bound to an output view of `n` bytes. -/
def encPending (n : Nat) : State :=
  { State.reset with
    enc :=
      { State.reset.enc with
        pend := true, ecnt := 5, es := #v[0x00, 0x41, 0x42, 0x43, 0x44, 0x45, 0x46, 0x47], out := bindOut (roomFor n) } }

/-- `DEC` as in vector D3 after the first `DECODE` (`RCNT = 5`), bound to an output view of `n` bytes. -/
def decPending (n : Nat) : State :=
  { State.reset with
    dec :=
      { State.reset.dec with
        pend := true, rcnt := 5, rs := #v[0x41, 0x42, 0x43, 0x44, 0x45, 0x46, 0x47], out := bindOut (roomFor n) } }

/-- `ENC` with `RS[0..2] = [41,42,43]` staged (vector E6), bound to an output view of `n` bytes. -/
def encPartial (n : Nat) : State :=
  { State.reset with
    enc :=
      { State.reset.enc with rcnt := 3, rs := #v[0x41, 0x42, 0x43, 0, 0, 0, 0], out := bindOut (roomFor n) } }

/-- `DEC` with `ES[0..2] = [60,01,02]` staged (vector D8), bound to an output view of `n` bytes. -/
def decPartial (n : Nat) : State :=
  { State.reset with
    dec :=
      { State.reset.dec with ecnt := 3, es := #v[0x60, 0x01, 0x02, 0, 0, 0, 0, 0], out := bindOut (roomFor n) } }

/-! ### WellFormed: each check refuses a term -/

theorem test_wf_bind_in_too_long : (Instr.encBind (roomFor 4) (roomFor 0)).wellFormed 2 = false := by decide
theorem test_wf_bind_out_too_long : (Instr.decBind (roomFor 0) (roomFor 4)).wellFormed 2 = false := by decide
theorem test_wf_rebind_in_too_long : (Instr.encRebindIn (roomFor 2)).wellFormed 1 = false := by decide
theorem test_wf_rebind_out_too_long : (Instr.decRebindOut (roomFor 2)).wellFormed 1 = false := by decide
theorem test_wf_longest_view : (Instr.encBind (roomFor 3) (roomFor 3)).wellFormed 2 = true := by decide

/-! ### Decoding: the words of R52, bit by bit -/

theorem test_decode_enc_init : decodeTableWord 8 0b0000 = some .encInit := by decide
theorem test_decode_enc_bind : decodeTableWord 8 0b0001 = some (.encBind ⟨[]⟩ ⟨[]⟩) := by decide
theorem test_decode_enc_rebind_in : decodeTableWord 8 0b0010 = some (.encRebindIn ⟨[]⟩) := by decide
theorem test_decode_enc_rebind_out : decodeTableWord 8 0b0011 = some (.encRebindOut ⟨[]⟩) := by decide
theorem test_decode_enc_encode : decodeTableWord 8 0b0100 = some .encEncode := by decide
theorem test_decode_enc_finalize : decodeTableWord 8 0b0101 = some .encFinalize := by decide
theorem test_decode_encblk : decodeTableWord 8 0b0110 = some (.encblk ⟨0, 0⟩) := by decide
theorem test_decode_reserved_7 : decodeTableWord 8 0b0111 = some .reserved7 := by decide
theorem test_decode_dec_init : decodeTableWord 8 0b1000 = some .decInit := by decide
theorem test_decode_dec_bind : decodeTableWord 8 0b1001 = some (.decBind ⟨[]⟩ ⟨[]⟩) := by decide
theorem test_decode_dec_rebind_in : decodeTableWord 8 0b1010 = some (.decRebindIn ⟨[]⟩) := by decide
theorem test_decode_dec_rebind_out : decodeTableWord 8 0b1011 = some (.decRebindOut ⟨[]⟩) := by decide
theorem test_decode_dec_decode : decodeTableWord 8 0b1100 = some .decDecode := by decide
theorem test_decode_dec_finalize : decodeTableWord 8 0b1101 = some .decFinalize := by decide
theorem test_decode_decblk : decodeTableWord 8 0b1110 = some (.decblk ⟨0, 0⟩) := by decide
theorem test_decode_reserved_f : decodeTableWord 8 0b1111 = some .reservedF := by decide
/-- R51: a code is 4 bits. -/
theorem test_decode_rejects_wide_code : codeOfWord 16 = .error (.widerThanOpw 16) ∧ decodeTableWord 8 16 = none := by
  decide
/-- The operands of program P1 line 2 travel to the command. -/
theorem test_decode_keeps_operands :
    decode ⟨0b0001, ⟨seven⟩, roomFor 5, ⟨7, 0⟩⟩ = .encBind ⟨seven⟩ (roomFor 5) := by decide

/-- `step` runs the command that the host issues (R50): `ENC.FINALIZE` on the reset state (vector E4). -/
theorem test_step_runs_fetched_word :
    lastRsp (after (step (State.reset.withFetchWord 8 0b0101))) = some .finished := by decide

/-! ### The transform and the block commands (95_test_vectors.md section 2) -/

/-- Vector T12, through `ENCBLK`. -/
theorem test_encblk_T12 :
    (after (exec (.encblk ⟨7, 0x00DEBC9A78563412⟩) State.reset)).replies = [⟨.done, some 0x5E3C1A7856341207⟩] := by
  decide
/-- Vector F3: eight bytes. -/
theorem test_encblk_F3 : lastRsp (after (exec (.encblk ⟨8, 0x4140⟩) State.reset)) = some .blockSizeError := by decide
/-- Vector U3, through `DECBLK`: nonzero reserved bits are ignored. -/
theorem test_decblk_U3 :
    (after (exec (.decblk ⟨8, 0x000000000080C1C0⟩) State.reset)).replies = [⟨.done, some 0xC1⟩] := by decide
/-- Vector F7: `BLK_N = 9`. -/
theorem test_decblk_F7 : lastRsp (after (exec (.decblk ⟨9, 0⟩) State.reset)) = some .blockSizeError := by decide
/-- Vectors F9, F10. -/
theorem test_reserved_codes :
    lastRsp (after (exec .reserved7 State.reset)) = some .illegalCommand ∧
    lastRsp (after (exec .reservedF State.reset)) = some .illegalCommand := by decide

/-! ### Binding and construction (95_test_vectors.md section 5) -/

/-- Vector B2: a `BIND` to empty views keeps the staged bytes. -/
theorem test_bind_B2 :
    (after (exec (.encBind ⟨[]⟩ ⟨[]⟩) (encPartial 8))).enc.rcnt = 3 ∧
    (after (exec (.encBind ⟨[]⟩ ⟨[]⟩) (encPartial 8))).enc.out.cap = 0 := by decide
/-- Vector B3: `REBIND_IN` keeps the pending block and the output view. -/
theorem test_rebind_in_B3 :
    encPosition (after (exec (.encRebindIn ⟨[0xAA]⟩) (encPending 5))).enc = (false, true, 0, 5) ∧
    (after (exec (.encRebindIn ⟨[0xAA]⟩) (encPending 5))).enc.inp.len = 1 ∧
    (after (exec (.encRebindIn ⟨[0xAA]⟩) (encPending 5))).enc.out.cap = 5 := by decide
/-- Vector B6: `INIT` abandons a pending block. -/
theorem test_init_B6 : encPosition (after (exec .encInit (encPending 5))).enc = (false, false, 0, 0) := by decide
/-- Vector B5, of `DEC`. -/
theorem test_dec_init : decPosition (after (exec .decInit finalized)).dec = (false, false, 0, 0) := by decide
/-- P3 line 9, 7: `DEC.REBIND_IN` and `DEC.REBIND_OUT` keep the unit's counters. -/
theorem test_dec_rebind :
    decPosition (after (exec (.decRebindIn ⟨[0x3C]⟩) (decPending 4))).dec = (false, true, 5, 0) ∧
    (after (exec (.decRebindOut (roomFor 9)) (decPending 4))).dec.out.cap = 9 := by decide
/-- P3 line 5. -/
theorem test_dec_bind :
    (after (exec (.decBind ⟨[0x52, 0x00, 0x01]⟩ (roomFor 4)) State.reset)).dec.inp.len = 3 ∧
    Memory.read (after (exec (.decBind ⟨[0x52, 0x00, 0x01]⟩ (roomFor 4)) State.reset)).dec.inp.space 2 = 0x01 := by
  decide
/-- E3a: `REBIND_OUT` sets `OUT_POS` to 0 and leaves the bytes owed. -/
theorem test_rebind_out :
    (after (exec (.encRebindOut (roomFor 3)) (encPending 5))).enc.out.pos = 0 ∧
    encOwed (after (exec (.encRebindOut (roomFor 3)) (encPending 5))).enc = [0x45, 0x46, 0x47] := by decide

/-! ### The Encoder (95_test_vectors.md section 3) -/

/-- Vector E3a, first `ENCODE`: `NeedsMoreOutput`, `0 1 0 5`, five bytes out. -/
theorem test_encode_E3a :
    lastRsp (after (exec .encEncode (bound ⟨seven⟩ (roomFor 5)))) = some .needsMoreOutput ∧
    encPosition (after (exec .encEncode (bound ⟨seven⟩ (roomFor 5)))).enc = (false, true, 0, 5) ∧
    Memory.slice (after (exec .encEncode (bound ⟨seven⟩ (roomFor 5)))).enc.out.space 0 5 =
      [0x00, 0x41, 0x42, 0x43, 0x44] := by decide
/-- Vector E3a, second `ENCODE`: an exact fit is `AllInputConsumed`. -/
theorem test_encode_exact_fit :
    lastRsp (after (exec .encEncode (encPending 3))) = some .allInputConsumed ∧
    Memory.slice (after (exec .encEncode (encPending 3))).enc.out.space 0 3 = [0x45, 0x46, 0x47] := by decide
/-- Vector E2 (scenario B). -/
theorem test_finalize_E2 :
    lastRsp (after (exec .encFinalize (bound ⟨[0xC1]⟩ (roomFor 8)))) = some .finished ∧
    Memory.slice (after (exec .encFinalize (bound ⟨[0xC1]⟩ (roomFor 8)))).enc.out.space 0 8 =
      [0x40, 0x41, 0x00, 0x00, 0x00, 0x00, 0x00, 0x00] := by decide
/-- Vector E6: `FINALIZE` with no room pads, drains nothing, and counts the padding as staged. -/
theorem test_finalize_E6 :
    lastRsp (after (exec .encFinalize (encPartial 0))) = some .needsMoreOutput ∧
    encPosition (after (exec .encFinalize (encPartial 0))).enc = (false, true, 0, 0) ∧
    encOwed (after (exec .encFinalize (encPartial 0))).enc = [0x00, 0x41, 0x42, 0x43, 0x00, 0x00, 0x00, 0x00] := by
  decide

/-! ### The Decoder (95_test_vectors.md section 4) -/

/-- Vector D3, first `DECODE`: `NeedsMoreOutput`, `0 1 5 0`. -/
theorem test_decode_D3 :
    lastRsp (after (exec .decDecode (bound ⟨0x00 :: seven⟩ (roomFor 5)))) = some .needsMoreOutput ∧
    Sys2Proof.Machine.decPosition (after (exec .decDecode (bound ⟨0x00 :: seven⟩ (roomFor 5)))).dec =
      (false, true, 5, 0) ∧
    Memory.slice (after (exec .decDecode (bound ⟨0x00 :: seven⟩ (roomFor 5)))).dec.out.space 0 5 =
      [0x41, 0x42, 0x43, 0x44, 0x45] := by decide
/-- P3 line 6: the next block's bytes are not pulled while a block is pending. -/
theorem test_decode_leaves_next_block :
    (after (exec .decDecode (bound ⟨[0x52, 0x00, 0x01, 0x7F, 0x7F, 0x00, 0x2A, 0x55, 0x40, 0x43]⟩ (roomFor 4)))).dec.inp.pos
      = 8 := by decide
/-- Vector D8, first `FINALIZE`. -/
theorem test_dec_finalize_D8 :
    lastRsp (after (exec .decFinalize (decPartial 4))) = some .needsMoreOutput ∧
    Memory.slice (after (exec .decFinalize (decPartial 4))).dec.out.space 0 4 = [0x81, 0x82, 0x00, 0x00] ∧
    (after (exec .decFinalize (decPartial 4))).dec.rcnt = 4 := by decide
/-- Vector D8 under `SUPPRESS_PAD`: two bytes and `Finished` at once. -/
theorem test_dec_finalize_suppress_pad :
    lastRsp (after (decFinalizeUnder .suppressPad (decPartial 4))) = some .finished ∧
    (after (decFinalizeUnder .suppressPad (decPartial 4))).dec.out.pos = 2 := by decide

/-! ### Reset -/

/-- The reset memory is in canonical form. -/
theorem test_reset_memory_wf :
    Memory.wf State.reset.enc.inp.space = true ∧ Memory.wf State.reset.enc.out.space = true ∧
    Memory.wf State.reset.dec.inp.space = true ∧ Memory.wf State.reset.dec.out.space = true := by decide

/-! ### Witnesses: for each statement with hypotheses, concrete states that meet them together

`witness_<Statement>` names the obligation; where the statement has cases, one witness stands in each, at a boundary. -/

/-- The Decoder of a state in which only the Encoder has worked. -/
theorem decInv_idle (p : TailPolicy) : DecInv p State.reset.dec :=
  ⟨by decide, by decide, by decide, by decide, fun _ => by decide, by decide, by decide, by decide, by decide, by decide,
    by decide, by decide⟩

theorem encInv_pending2 : EncInv (encPending 2).enc :=
  ⟨by decide, by decide, by decide, by decide, by decide, by decide, by decide, by decide, by decide, by decide⟩

theorem encInv_pending3 : EncInv (encPending 3).enc :=
  ⟨by decide, by decide, by decide, by decide, by decide, by decide, by decide, by decide, by decide, by decide⟩

theorem encInv_partial (n : Nat) (h : n = 7 ∨ n = 8) : EncInv (encPartial n).enc := by
  rcases h with rfl | rfl <;>
    exact ⟨by decide, by decide, by decide, by decide, by decide, by decide, by decide, by decide, by decide, by decide⟩

theorem encInv_bound (n : Nat) (h : n = 7 ∨ n = 8) : EncInv (bound ⟨seven⟩ (roomFor n)).enc := by
  rcases h with rfl | rfl <;>
    exact ⟨by decide, by decide, by decide, by decide, by decide, by decide, by decide, by decide, by decide, by decide⟩

theorem decInv_pending (p : TailPolicy) (n : Nat) (h : n = 1 ∨ n = 2) : DecInv p (decPending n).dec := by
  rcases h with rfl | rfl <;>
    exact ⟨by decide, by decide, by decide, by decide, fun _ => by decide, by decide, by decide, by decide, by decide,
      by decide, by decide, by decide⟩

theorem decInv_partial (p : TailPolicy) (n : Nat) (h : n = 6 ∨ n = 7) : DecInv p (decPartial n).dec := by
  rcases h with rfl | rfl <;>
    exact ⟨by decide, by decide, by decide, by decide, fun _ => by decide, by decide, by decide, by decide, by decide,
      by decide, by decide, by decide⟩

theorem decInv_bound (p : TailPolicy) (n : Nat) (h : n = 6 ∨ n = 7) :
    DecInv p (bound ⟨0x00 :: seven⟩ (roomFor n)).dec := by
  rcases h with rfl | rfl <;>
    exact ⟨by decide, by decide, by decide, by decide, fun _ => by decide, by decide, by decide, by decide, by decide,
      by decide, by decide, by decide⟩

/-- One state for each first action of the host; an edit of the last byte of a bound view. -/
theorem witness_StepsBetweenCommands :
    State.reset.host = [] ∧
    ({ bound ⟨seven⟩ (roomFor 0) with host := [.editIn .enc 6 0xFF] } : State).host = .editIn .enc 6 0xFF :: [] ∧
    6 < (bound ⟨seven⟩ (roomFor 0)).enc.inp.len ∧
    ({ bound ⟨seven⟩ (roomFor 0) with host := [.editIn .dec 6 0xFF] } : State).host = .editIn .dec 6 0xFF :: [] ∧
    6 < (bound ⟨seven⟩ (roomFor 0)).dec.inp.len ∧
    ({ State.reset with host := [.reset, .reset] } : State).host = .reset :: [.reset] := by decide

theorem witness_StepPerformsTheDecodedRequest :
    (State.reset.withFetchWord 8 0x5).host = .request (bareRequest 0x5) :: [] := by decide

theorem witness_BindIsRebindInThenRebindOut :
    (∃ t u v, exec (.encBind ⟨seven⟩ (roomFor 5)) (encPending 3) = .next t ∧
      exec (.encRebindIn ⟨seven⟩) (encPending 3) = .next u ∧ exec (.encRebindOut (roomFor 5)) u = .next v) ∧
    (∃ t u v, exec (.decBind ⟨seven⟩ (roomFor 5)) (decPending 2) = .next t ∧
      exec (.decRebindIn ⟨seven⟩) (decPending 2) = .next u ∧ exec (.decRebindOut (roomFor 5)) u = .next v) :=
  ⟨⟨_, _, _, rfl, rfl, rfl⟩, ⟨_, _, _, rfl, rfl, rfl⟩⟩

theorem witness_BindingDoesNotReviveAFinalizedUnit :
    finalized.enc.fin = true ∧ (∃ v w, Instr.encRebindIn ⟨[0x01]⟩ = .encBind v w ∨
      Instr.encRebindIn ⟨[0x01]⟩ = .encRebindIn v ∨ Instr.encRebindIn ⟨[0x01]⟩ = .encRebindOut w) ∧
    finalized.dec.fin = true ∧ (∃ v w, Instr.decBind ⟨[0x01]⟩ (roomFor 8) = .decBind v w ∨
      Instr.decBind ⟨[0x01]⟩ (roomFor 8) = .decRebindIn v ∨ Instr.decBind ⟨[0x01]⟩ (roomFor 8) = .decRebindOut w) :=
  ⟨rfl, ⟨⟨[0x01]⟩, roomFor 0, .inr (.inl rfl)⟩, rfl, ⟨⟨[0x01]⟩, roomFor 8, .inl rfl⟩⟩

/-- The last lane. -/
theorem witness_EncodeBlockLayout : 6 < 7 ∧ (encodeBlock #v[0, 0, 0, 0, 0, 0, 0x80])[0].getLsbD 0 = true := by decide
theorem witness_DecodeBlockLayout : 6 < 7 ∧ (decodeBlock #v[1, 0, 0, 0, 0, 0, 0, 0x7F])[6] = 0xFF := by decide

/-- Blocks that differ in the reserved bits only (vector U1). -/
theorem witness_DecodeBlockForgetsExactlyTheReservedBits :
    ∀ (j : Nat) (h : j < 8), (#v[0xFF, 0xFF, 0xFF, 0xFF, 0xFF, 0xFF, 0xFF, 0xFF] : EncodedBlock)[j] &&& 0x7F =
      (#v[0x7F, 0x7F, 0x7F, 0x7F, 0x7F, 0x7F, 0x7F, 0x7F] : EncodedBlock)[j] &&& 0x7F := by decide

/-- A block with reserved bits set beside the clean block that decodes alike. -/
theorem witness_BlockTransformInverseLaws :
    decodeBlock #v[0xC0, 0xC1, 0, 0, 0, 0, 0, 0x80] = #v[0xC1, 0, 0, 0, 0, 0, 0] ∧
    ∀ (j : Nat) (h : j < 8),
      (#v[0xC0, 0xC1, 0, 0, 0, 0, 0, 0x80] : EncodedBlock)[j].getLsbD 7 = (0x83 : BitVec 8).getLsbD j := by decide

theorem witness_ReservedCodesAnswerIllegalCommand :
    (∃ t, exec (decode (bareRequest 0xF)) finalized = .next t ∧ Answered finalized t .illegalCommand) ∧
    (∃ t, exec (decode (bareRequest 0x6)) finalized = .next t ∧ ¬Answered finalized t .illegalCommand) :=
  ⟨⟨_, rfl, rfl⟩, ⟨_, rfl, by unfold Answered; decide⟩⟩

theorem witness_EncblkEncodesTheBlockOperand :
    (⟨7, 0x00DEBC9A78563412⟩ : BlockOperand).n = 7 ∧
    (∀ i (h : i < 7), (#v[0x12, 0x34, 0x56, 0x78, 0x9A, 0xBC, 0xDE] : RawBlock)[i] =
      (0x00DEBC9A78563412 : BitVec 64).extractLsb' (8 * i) 8) ∧
    (⟨6, 0⟩ : BlockOperand).n ≠ 7 ∧ (⟨8, 0⟩ : BlockOperand).n ≠ 7 := by decide

theorem witness_DecblkDecodesTheBlockOperand :
    (⟨8, 0x5E3C1A7856341207⟩ : BlockOperand).n = 8 ∧
    (∀ i (h : i < 8), (#v[0x07, 0x12, 0x34, 0x56, 0x78, 0x1A, 0x3C, 0x5E] : EncodedBlock)[i] =
      (0x5E3C1A7856341207 : BitVec 64).extractLsb' (8 * i) 8) ∧
    (⟨7, 0⟩ : BlockOperand).n ≠ 8 ∧ (⟨9, 0⟩ : BlockOperand).n ≠ 8 := by decide

theorem witness_FaultResponsesChangeNothing :
    ∃ t r, exec (.encblk ⟨6, 0⟩) finalized = .next t ∧ t.replies = finalized.replies ++ [r] ∧
      (r.rsp = .blockSizeError ∨ r.rsp = .illegalCommand) :=
  ⟨_, _, rfl, rfl, .inl rfl⟩

theorem witness_ResponsesOfEachCommand :
    (∃ t, exec (.decblk ⟨8, 0⟩) State.reset = .next t) ∧ mayAnswer (.decblk ⟨9, 0⟩) .blockSizeError = true ∧
    mayAnswer .encFinalize .finished = true :=
  ⟨⟨_, rfl⟩, by decide, by decide⟩

theorem witness_AlreadyFinalizedHasNoSideEffect :
    finalized.enc.fin = true ∧ finalized.dec.fin = true ∧
    (∃ t, exec .encEncode finalized = .next t ∧ Answered finalized t .alreadyFinalized) ∧
    (∃ t, exec .decFinalize finalized = .next t ∧ Answered finalized t .alreadyFinalized) :=
  ⟨rfl, rfl, ⟨_, rfl, rfl⟩, ⟨_, rfl, rfl⟩⟩

theorem witness_FinIsSetByFinishedAndClearedByInit :
    (∃ t, exec .encFinalize State.reset = .next t ∧ Answered State.reset t .finished ∧ t.enc.fin = true) ∧
    (∃ t, exec .decInit finalized = .next t ∧ t.dec.fin = false) :=
  ⟨⟨_, rfl, rfl, rfl⟩, ⟨_, rfl, rfl⟩⟩

/-- Vector E5: no room at all. -/
theorem witness_RepeatingAStarvedCommandChangesNothing :
    (∃ t, exec .encEncode (encPending 0) = .next t ∧ Answered (encPending 0) t .needsMoreOutput) ∧
    (∃ t, exec .decFinalize (decPending 1) = .next t ∧ Answered (decPending 1) t .needsMoreOutput) :=
  ⟨⟨_, rfl, rfl⟩, ⟨_, rfl, by unfold Answered; decide⟩⟩

theorem witness_PendingBytesDecideTheStatus :
    ((encPending 0).enc.fin = false ∧ (encPending 0).enc.inp.exhausted = true ∧ (encPending 0).enc.out.exhausted = true ∧
      (encPending 0).enc.pend = true ∧ State.reset.enc.pend = false ∧ State.reset.enc.inp.exhausted = true ∧
      State.reset.enc.out.exhausted = true) ∧
    ((decPending 0).dec.fin = false ∧ (decPending 0).dec.inp.exhausted = true ∧ (decPending 0).dec.out.exhausted = true ∧
      (decPending 0).dec.pend = true) ∧
    ((encPending 2).enc.pend = true ∧ (encPending 2).enc.out.room < 8 - (encPending 2).enc.ecnt.val) ∧
    ((decPending 1).dec.pend = true ∧ (decPending 1).dec.fin = false ∧
      (decPending 1).dec.out.room < (decPending 1).dec.rlim.val - (decPending 1).dec.rcnt.val) ∧
    DecInv Config.decTailPolicy (decPending 1).dec :=
  ⟨by decide, by decide, by decide, by decide, decInv_pending _ 1 (.inl rfl)⟩

/-- `c = p` and `c < p`. -/
theorem witness_EncDrainDeliversWhatTheViewAccepts :
    (3 = (if (encPending 3).enc.pend then 8 - (encPending 3).enc.ecnt.val else 0) ∧ 3 = (encPending 3).enc.out.room ∧
      3 = min 3 3) ∧
    (3 = (if (encPending 2).enc.pend then 8 - (encPending 2).enc.ecnt.val else 0) ∧ 2 = (encPending 2).enc.out.room ∧
      2 = min 3 2) ∧
    (0 = (if State.reset.enc.pend then 8 - State.reset.enc.ecnt.val else 0) ∧ 0 = State.reset.enc.out.room) := by decide

theorem witness_EncRunGoesByteByByte :
    (phaseOf (encPending 1).enc.fin (encPending 1).enc.pend = .draining ∧
      (encPending 1).enc.out.pos < (encPending 1).enc.out.cap) ∧
    (phaseOf (encPending 0).enc.fin (encPending 0).enc.pend = .draining ∧
      ¬ (encPending 0).enc.out.pos < (encPending 0).enc.out.cap) ∧
    (phaseOf (bound ⟨seven⟩ (roomFor 5)).enc.fin (bound ⟨seven⟩ (roomFor 5)).enc.pend = .filling ∧
      (bound ⟨seven⟩ (roomFor 5)).enc.inp.pos < (bound ⟨seven⟩ (roomFor 5)).enc.inp.len ∧
      (bound ⟨seven⟩ (roomFor 5)).enc.rcnt ≠ 6) ∧
    (∃ e : Enc, phaseOf e.fin e.pend = .filling ∧ e.inp.pos < e.inp.len ∧ e.rcnt = 6) ∧
    (phaseOf State.reset.enc.fin State.reset.enc.pend = .filling ∧ ¬ State.reset.enc.inp.pos < State.reset.enc.inp.len) :=
  ⟨by decide, by decide, by decide, ⟨{ (bound ⟨seven⟩ (roomFor 5)).enc with rcnt := 6 }, by decide⟩, by decide⟩

/-- The first case with `c = p − 1`, the second with `8·B = c'` and after `c = p`, the third with `8·B = c' + 1`. -/
theorem witness_EncodeClosedForm :
    (EncInv (encPending 2).enc ∧ (encPending 2).enc.fin = false ∧ (encPending 2).enc.out.room = 2) ∧
    (EncInv (encPending 3).enc ∧ (encPending 3).enc.fin = false ∧ (encPending 3).enc.out.room = 3) ∧
    (EncInv (bound ⟨seven⟩ (roomFor 8)).enc ∧ (bound ⟨seven⟩ (roomFor 8)).enc.fin = false ∧
      (bound ⟨seven⟩ (roomFor 8)).enc.inp.avail = 7 ∧ (bound ⟨seven⟩ (roomFor 8)).enc.out.room = 8) ∧
    (EncInv (bound ⟨seven⟩ (roomFor 7)).enc ∧ (bound ⟨seven⟩ (roomFor 7)).enc.fin = false ∧
      (bound ⟨seven⟩ (roomFor 7)).enc.out.room = 7) :=
  ⟨⟨encInv_pending2, by decide⟩, ⟨encInv_pending3, by decide⟩, ⟨encInv_bound 8 (.inr rfl), by decide⟩,
    ⟨encInv_bound 7 (.inl rfl), by decide⟩⟩

theorem witness_EncodeDrainsTheEncodedStream :
    (EncInv (bound ⟨seven⟩ (roomFor 8)).enc ∧ (bound ⟨seven⟩ (roomFor 8)).enc.fin = false ∧
      (encBlocksLeft (bound ⟨seven⟩ (roomFor 8)).enc).length ≤ (bound ⟨seven⟩ (roomFor 8)).enc.out.room) ∧
    (EncInv (bound ⟨seven⟩ (roomFor 7)).enc ∧ (bound ⟨seven⟩ (roomFor 7)).enc.fin = false ∧
      ¬ (encBlocksLeft (bound ⟨seven⟩ (roomFor 7)).enc).length ≤ (bound ⟨seven⟩ (roomFor 7)).enc.out.room) :=
  ⟨⟨encInv_bound 8 (.inr rfl), by decide⟩, ⟨encInv_bound 7 (.inl rfl), by decide⟩⟩

theorem witness_EncFinalizeFlushesAndFinishes :
    (EncInv (encPartial 8).enc ∧ (encPartial 8).enc.fin = false ∧
      (encStreamLeft (encPartial 8).enc).length ≤ (encPartial 8).enc.out.room) ∧
    (EncInv (encPartial 7).enc ∧ (encPartial 7).enc.fin = false ∧
      ¬ (encStreamLeft (encPartial 7).enc).length ≤ (encPartial 7).enc.out.room) :=
  ⟨⟨encInv_partial 8 (.inr rfl), by decide⟩, ⟨encInv_partial 7 (.inl rfl), by decide⟩⟩

theorem witness_EncFinalizePadsWithZeros :
    (encPartial 0).enc.fin = false ∧ (encPartial 0).enc.pend = false ∧ 1 ≤ (encPartial 0).enc.rcnt.val ∧
    (encPartial 0).enc.inp.exhausted = true ∧ 2 < (encPartial 0).enc.rcnt.val ∧ ¬ 3 < (encPartial 0).enc.rcnt.val := by
  decide

theorem witness_FinalizeOfAnAlignedStreamEmitsNothing :
    (State.reset.enc.fin = false ∧ State.reset.enc.pend = false ∧ State.reset.enc.rcnt = 0 ∧
      State.reset.enc.inp.exhausted = true) ∧
    (State.reset.dec.fin = false ∧ State.reset.dec.pend = false ∧ State.reset.dec.ecnt = 0 ∧
      State.reset.dec.inp.exhausted = true) := by decide

theorem witness_EncOutputIsSevenBitClean :
    EncInv (encPending 3).enc ∧ ∃ t, exec .encEncode (encPending 3) = .next t ∧
      drained (encPending 3).enc.out t.enc.out = [0x45, 0x46, 0x47] :=
  ⟨encInv_pending3, _, rfl, by decide⟩

theorem witness_DecDrainDeliversWhatTheViewAccepts :
    (((decPending 2).dec.pend = true → (decPending 2).dec.rcnt.val < (decPending 2).dec.rlim.val) ∧
      2 = (if (decPending 2).dec.pend then (decPending 2).dec.rlim.val - (decPending 2).dec.rcnt.val else 0) ∧
      2 = (decPending 2).dec.out.room ∧ 2 = min 2 2) ∧
    (2 = (if (decPending 1).dec.pend then (decPending 1).dec.rlim.val - (decPending 1).dec.rcnt.val else 0) ∧
      1 = (decPending 1).dec.out.room ∧ 1 = min 2 1) := by decide

theorem witness_DecRunGoesByteByByte :
    (phaseOf (decPending 1).dec.fin (decPending 1).dec.pend = .draining ∧
      (decPending 1).dec.out.pos < (decPending 1).dec.out.cap) ∧
    (phaseOf (decPending 0).dec.fin (decPending 0).dec.pend = .draining ∧
      ¬ (decPending 0).dec.out.pos < (decPending 0).dec.out.cap) ∧
    (phaseOf (bound ⟨seven⟩ (roomFor 5)).dec.fin (bound ⟨seven⟩ (roomFor 5)).dec.pend = .filling ∧
      (bound ⟨seven⟩ (roomFor 5)).dec.inp.pos < (bound ⟨seven⟩ (roomFor 5)).dec.inp.len ∧
      (bound ⟨seven⟩ (roomFor 5)).dec.ecnt ≠ 7) ∧
    (∃ d : Dec, phaseOf d.fin d.pend = .filling ∧ d.inp.pos < d.inp.len ∧ d.ecnt = 7) ∧
    (phaseOf State.reset.dec.fin State.reset.dec.pend = .filling ∧ ¬ State.reset.dec.inp.pos < State.reset.dec.inp.len) :=
  ⟨by decide, by decide, by decide, ⟨{ (bound ⟨seven⟩ (roomFor 5)).dec with ecnt := 7 }, by decide⟩, by decide⟩

/-- The first case with `c = p − 1`, the second with `c = p` and with `7·B = c'`, the third with `7·B = c' + 1`. -/
theorem witness_DecodeClosedForm :
    (DecInv Config.decTailPolicy (decPending 1).dec ∧ (decPending 1).dec.fin = false ∧ (decPending 1).dec.out.room = 1) ∧
    (DecInv Config.decTailPolicy (decPending 2).dec ∧ (decPending 2).dec.fin = false ∧ (decPending 2).dec.out.room = 2) ∧
    (DecInv Config.decTailPolicy (bound ⟨0x00 :: seven⟩ (roomFor 7)).dec ∧
      (bound ⟨0x00 :: seven⟩ (roomFor 7)).dec.fin = false ∧ (bound ⟨0x00 :: seven⟩ (roomFor 7)).dec.inp.avail = 8 ∧
      (bound ⟨0x00 :: seven⟩ (roomFor 7)).dec.out.room = 7) ∧
    (DecInv Config.decTailPolicy (bound ⟨0x00 :: seven⟩ (roomFor 6)).dec ∧
      (bound ⟨0x00 :: seven⟩ (roomFor 6)).dec.fin = false ∧ (bound ⟨0x00 :: seven⟩ (roomFor 6)).dec.out.room = 6) :=
  ⟨⟨decInv_pending _ 1 (.inl rfl), by decide⟩, ⟨decInv_pending _ 2 (.inr rfl), by decide⟩,
    ⟨decInv_bound _ 7 (.inr rfl), by decide⟩, ⟨decInv_bound _ 6 (.inl rfl), by decide⟩⟩

theorem witness_DecodeDrainsTheDecodedStream :
    (DecInv Config.decTailPolicy (bound ⟨0x00 :: seven⟩ (roomFor 7)).dec ∧
      (bound ⟨0x00 :: seven⟩ (roomFor 7)).dec.fin = false ∧
      (decBlocksLeft (bound ⟨0x00 :: seven⟩ (roomFor 7)).dec).length ≤ (bound ⟨0x00 :: seven⟩ (roomFor 7)).dec.out.room) ∧
    (DecInv Config.decTailPolicy (bound ⟨0x00 :: seven⟩ (roomFor 6)).dec ∧
      (bound ⟨0x00 :: seven⟩ (roomFor 6)).dec.fin = false ∧
      ¬ (decBlocksLeft (bound ⟨0x00 :: seven⟩ (roomFor 6)).dec).length ≤ (bound ⟨0x00 :: seven⟩ (roomFor 6)).dec.out.room) :=
  ⟨⟨decInv_bound _ 7 (.inr rfl), by decide⟩, ⟨decInv_bound _ 6 (.inl rfl), by decide⟩⟩

theorem witness_DecFinalizeFlushesAndFinishes :
    (DecInv .drainAll (decPartial 7).dec ∧ (decPartial 7).dec.fin = false ∧
      (decStreamLeft .drainAll (decPartial 7).dec).length ≤ (decPartial 7).dec.out.room) ∧
    (DecInv .drainAll (decPartial 6).dec ∧ (decPartial 6).dec.fin = false ∧
      ¬ (decStreamLeft .drainAll (decPartial 6).dec).length ≤ (decPartial 6).dec.out.room) ∧
    (DecInv .suppressPad (decPartial 6).dec ∧ (decPartial 6).dec.fin = false ∧
      (decStreamLeft .suppressPad (decPartial 6).dec).length = 2) :=
  ⟨⟨decInv_partial _ 7 (.inr rfl), by decide⟩, ⟨decInv_partial _ 6 (.inl rfl), by decide⟩,
    ⟨decInv_partial _ 6 (.inl rfl), by decide⟩⟩

theorem witness_DecFinalizeDerivesTheTrailingBytes :
    (decPartial 7).dec.fin = false ∧ (decPartial 7).dec.pend = false ∧ 1 ≤ (decPartial 7).dec.ecnt.val ∧
    (decPartial 7).dec.inp.exhausted = true ∧ 7 ≤ (decPartial 7).dec.out.room ∧
    1 + 1 < (decPartial 7).dec.ecnt.val ∧ ¬ 2 + 1 < (decPartial 7).dec.ecnt.val := by decide

/-- Vector D5: `C0` for `40`. -/
theorem witness_ReservedBitsOfTheInputAreIgnored :
    SameLow7 (Memory.ofBytes [0x40]) (Memory.ofBytes [0xC0]) ∧
    (∃ t, exec .decDecode (bound ⟨[0x40]⟩ (roomFor 7)) = .next t) ∧
    (bound ⟨[0x40]⟩ (roomFor 7)).dec.inp.space = Memory.ofBytes [0x40] := by
  refine ⟨fun k => ?_, ⟨_, rfl⟩, rfl⟩
  cases k <;> simp [Memory.read_ofBytes, Memory.unlisted]

theorem witness_BlockResetIsBothInits :
    ∃ t u v, ({ encPending 3 with host := [.reset] } : State).host = .reset :: [] ∧
      step { encPending 3 with host := [.reset] } = .next t ∧
      exec .encInit { encPending 3 with host := [] } = .next u ∧ exec .decInit u = .next v :=
  ⟨_, _, _, rfl, rfl, rfl, rfl⟩

/-- A state in the middle of a stream, with its next request. -/
theorem witness_EveryStepKeepsTheInvariant :
    Inv { encPending 3 with host := [.request (bareRequest 0x4)] } ∧
    ∃ t, step { encPending 3 with host := [.request (bareRequest 0x4)] } = .next t :=
  ⟨⟨encInv_pending3, decInv_idle _⟩, _, rfl⟩

theorem witness_DecFinalizeKeepsTheInvariantUnderEitherPolicy :
    (DecInv .suppressPad (decPartial 6).dec ∧ ∃ t, execUnder .suppressPad .decFinalize (decPartial 6) = .next t) ∧
    (DecInv .drainAll (decPartial 6).dec ∧ ∃ t, execUnder .drainAll .decFinalize (decPartial 6) = .next t) :=
  ⟨⟨decInv_partial _ 6 (.inl rfl), _, rfl⟩, ⟨decInv_partial _ 6 (.inl rfl), _, rfl⟩⟩

/-- `POSW = 3` and views of seven bytes, the longest. -/
theorem witness_PositionsNeverOverflow :
    PositionsFit 3 { State.reset with host := [.request (encode (.encBind ⟨seven⟩ (roomFor 7)))] } ∧
    RequestsFit 3 { State.reset with host := [.request (encode (.encBind ⟨seven⟩ (roomFor 7)))] } ∧
    ∃ t, step { State.reset with host := [.request (encode (.encBind ⟨seven⟩ (roomFor 7)))] } = .next t := by
  refine ⟨by unfold PositionsFit; decide, fun r h => ?_, _, rfl⟩
  simp only [List.mem_singleton, HostAct.request.injEq] at h
  subst h
  decide

theorem witness_UnitsShareNothing :
    (∃ t t', exec .encEncode (encPending 3) = .next t ∧ unitField (encode .encEncode).op = false ∧
      exec .encEncode { encPending 3 with dec := finalized.dec } = .next t') ∧
    (∃ t t', exec .decDecode (decPending 2) = .next t ∧ unitField (encode .decDecode).op = true ∧
      exec .decDecode { decPending 2 with enc := finalized.enc } = .next t') ∧
    (∃ t, exec .reserved7 finalized = .next t ∧ fnField (encode .reserved7).op = 7) ∧
    (∃ t, exec (.decblk ⟨8, 0⟩) finalized = .next t ∧ fnField (encode (.decblk ⟨8, 0⟩)).op = 6) :=
  ⟨⟨_, _, rfl, by decide, rfl⟩, ⟨_, _, rfl, by decide, rfl⟩, ⟨_, rfl, by decide⟩, ⟨_, rfl, by decide⟩⟩

/-- Two Encoders that differ in the dead bytes `RS[3..6]`. -/
theorem witness_DeadStagingRegistersAreNeverRead :
    ∃ s s' t t', Inv s ∧ Inv s' ∧ EncAlike s.enc s'.enc ∧ DecAlike s.dec s'.dec ∧ s.replies = s'.replies ∧
      s.enc.rs ≠ s'.enc.rs ∧ exec .encFinalize s = .next t ∧ exec .encFinalize s' = .next t' :=
  ⟨encPartial 8, { encPartial 8 with enc := { (encPartial 8).enc with rs := #v[0x41, 0x42, 0x43, 9, 9, 9, 9] } }, _, _,
    ⟨encInv_partial 8 (.inr rfl), decInv_idle _⟩,
    ⟨⟨by decide, by decide, by decide, by decide, by decide, by decide, by decide, by decide, by decide, by decide⟩,
      decInv_idle _⟩,
    by unfold EncAlike; decide, by unfold DecAlike; decide, rfl, by decide, rfl, rfl⟩

/-- Byte 0 of a view of which one byte is pulled, and the first and the last unread byte. -/
theorem witness_EditsAreSeenJustWhenUnread :
    ∃ s : State, 0 < s.enc.inp.pos ∧ 0 < s.dec.inp.pos ∧ s.enc.inp.pos ≤ 1 ∧ 1 < s.enc.inp.len ∧
      s.enc.inp.pos ≤ 6 ∧ 6 < s.enc.inp.len ∧ (∃ t, exec .encEncode s = .next t) ∧
      (∃ t, exec .encEncode (hostEdit .enc 0 0xFF s) = .next t) ∧ (∃ t, exec .decDecode s = .next t) ∧
      (∃ t, exec .decDecode (hostEdit .dec 0 0xFF s) = .next t) := by
  let b := bound ⟨seven⟩ (roomFor 3)
  refine ⟨{ b with enc := { b.enc with inp := b.enc.inp.pull }, dec := { b.dec with inp := b.dec.inp.pull } },
    ?_, ?_, ?_, ?_, ?_, ?_, ⟨_, rfl⟩, ⟨_, rfl⟩, ⟨_, rfl⟩, ⟨_, rfl⟩⟩ <;> decide

/-- The message `[C1]` through an output view of three bytes and one of five, and `[C1, 00]` in two pieces. -/
theorem witness_EncStreamIsMcoded7OfTheInput :
    FreshEnc State.reset.enc ∧
    (encBooks [.encBind ⟨[0xC1]⟩ (roomFor 3), .encFinalize, .encRebindOut (roomFor 5), .encFinalize]
      (Books.opened State.reset)).map (fun b => (b.st.enc.fin, b.fed, b.got)) =
      some (true, [0xC1], [0x40, 0x41, 0x00, 0x00, 0x00, 0x00, 0x00, 0x00]) :=
  ⟨by unfold FreshEnc; decide, by decide⟩

theorem witness_EncStreamLength :
    FreshEnc State.reset.enc ∧
    (encBooks [.encFinalize] (Books.opened State.reset)).map (fun b => (b.st.enc.fin, b.fed, b.got)) =
      some (true, [], []) :=
  ⟨by unfold FreshEnc; decide, by decide⟩

theorem witness_NoLengthIsCarried :
    (encBooks [.encBind ⟨[0xC1]⟩ (roomFor 8), .encEncode, .encRebindIn ⟨[0x00]⟩, .encFinalize]
      (Books.opened State.reset)).map (fun b => (b.st.enc.fin, b.fed, b.got)) =
      some (true, [0xC1] ++ List.replicate 1 0x00, [0x40, 0x41, 0x00, 0x00, 0x00, 0x00, 0x00, 0x00]) ∧
    [0xC1].length % 7 ≠ 0 ∧ 1 ≤ 7 - [0xC1].length % 7 ∧
    (encBooks [.encBind ⟨[0xC1]⟩ (roomFor 8), .encFinalize] (Books.opened State.reset)).map
      (fun b => (b.st.enc.fin, b.fed)) = some (true, [0xC1]) := by decide

/-- Vector D8, under each policy. -/
theorem witness_DecStreamIsTheDecodingOfTheInput :
    FreshDec State.reset.dec ∧
    (decBooks .drainAll [.decBind ⟨[0x60, 0x01, 0x02]⟩ (roomFor 4), .decFinalize, .decRebindOut (roomFor 3), .decFinalize]
      (Books.opened State.reset)).map (fun b => (b.st.dec.fin, b.fed, b.got)) =
      some (true, [0x60, 0x01, 0x02], [0x81, 0x82, 0x00, 0x00, 0x00, 0x00, 0x00]) ∧
    (decBooks .suppressPad [.decBind ⟨[0x60, 0x01, 0x02]⟩ (roomFor 4), .decFinalize]
      (Books.opened State.reset)).map (fun b => (b.st.dec.fin, b.fed, b.got)) =
      some (true, [0x60, 0x01, 0x02], [0x81, 0x82]) :=
  ⟨by unfold FreshDec; decide, by decide, by decide⟩

/-- Vector D2 after vector E2. -/
theorem witness_RoundTripThroughBothUnits :
    (encBooks [.encBind ⟨[0xC1]⟩ (roomFor 8), .encFinalize] (Books.opened State.reset)).map
      (fun b => (b.st.enc.fin, b.fed, b.got)) =
      some (true, [0xC1], [0x40, 0x41, 0x00, 0x00, 0x00, 0x00, 0x00, 0x00]) ∧
    (decBooks .drainAll [.decBind ⟨[0x40, 0x41, 0x00, 0x00, 0x00, 0x00, 0x00, 0x00]⟩ (roomFor 7), .decFinalize]
      (Books.opened State.reset)).map (fun b => (b.st.dec.fin, b.fed, b.got)) =
      some (true, [0x40, 0x41, 0x00, 0x00, 0x00, 0x00, 0x00, 0x00], [0xC1, 0x00, 0x00, 0x00, 0x00, 0x00, 0x00]) := by
  decide

/-- Vector E3a after the first `ENCODE`, with a view of seven bytes and room in it for two more: the host reads what the unit
wrote, and above it what the host left (R34). -/
theorem test_observe_reads_all_of_out :
    (observe .enc (after (exec .encEncode (encPending 7)))).outBytes = [0x45, 0x46, 0x47, 0xEE, 0xEE, 0xEE, 0xEE] ∧
    (observe .enc (after (exec .encEncode (encPending 7)))).written = [0x45, 0x46, 0x47] := by decide

theorem witness_HostReadsThePositionsAndAllOfOut :
    (encPending 3).enc.out.pos ≤ (encPending 3).enc.out.cap ∧ 2 < (observe .enc (encPending 3)).outBytes.length ∧
    (decPending 2).dec.out.pos ≤ (decPending 2).dec.out.cap ∧ 1 < (observe .dec (decPending 2)).outBytes.length := by
  decide

end Sys2Proof.Tests
end

section
/-! The block commands by the size of their operand (R76, R77), and totality of `exec` and `step` (R8). -/

namespace Sys2Proof.Machine

theorem execEncblk_of_size {b : BlockOperand} (h : b.n = 7) (s : State) :
    execEncblk b s = .next (respondBlock (packEncoded (encodeBlock (rawOperand b))) s) := if_pos h

theorem execEncblk_of_wrong_size {b : BlockOperand} (h : b.n ≠ 7) (s : State) :
    execEncblk b s = raiseFault .blockSize s := if_neg h

theorem execDecblk_of_size {b : BlockOperand} (h : b.n = 8) (s : State) :
    execDecblk b s = .next (respondBlock (packRaw (decodeBlock (encodedOperand b))) s) := if_pos h

theorem execDecblk_of_wrong_size {b : BlockOperand} (h : b.n ≠ 8) (s : State) :
    execDecblk b s = raiseFault .blockSize s := if_neg h

/-- Taking an exception does not stop the machine (R136, R137). -/
theorem raiseFault_accepts (f : FaultRsp) (s : State) : ∃ t, raiseFault f s = .next t := ⟨_, rfl⟩

/-- `ENCBLK` goes on whatever the size of its operand: a wrong size is a response, no stop. -/
theorem execEncblk_accepts (b : BlockOperand) (s : State) : ∃ t, execEncblk b s = .next t := by
  by_cases h : b.n = 7
  · exact ⟨_, execEncblk_of_size h s⟩
  · rw [execEncblk_of_wrong_size h]
    exact raiseFault_accepts .blockSize s

/-- `DECBLK` goes on whatever the size of its operand. -/
theorem execDecblk_accepts (b : BlockOperand) (s : State) : ∃ t, execDecblk b s = .next t := by
  by_cases h : b.n = 8
  · exact ⟨_, execDecblk_of_size h s⟩
  · rw [execDecblk_of_wrong_size h]
    exact raiseFault_accepts .blockSize s

/-- Every command has a next state. Only the block commands and the reserved codes can take an exception; the meaning of every
other command answers its next state outright. -/
theorem exec_accepts (i : Instr) (s : State) : ∃ t, exec i s = .next t :=
  match i with
  | .encblk b => execEncblk_accepts b s
  | .decblk b => execDecblk_accepts b s
  | .reserved7 | .reservedF => raiseFault_accepts .illegal s
  | .encInit | .encBind _ _ | .encRebindIn _ | .encRebindOut _ | .encEncode | .encFinalize
  | .decInit | .decBind _ _ | .decRebindIn _ | .decRebindOut _ | .decDecode | .decFinalize => ⟨_, rfl⟩

/-- A step that takes a request performs the command it decodes to (R50). -/
theorem step_of_request {s : State} {r : Request} {rest : List HostAct} (h : s.host = .request r :: rest) :
    step s = exec (decode r) { s with host := rest } := by
  simp only [step, h]

/-- Every state has a next state, whatever the host does first. -/
theorem step_accepts (s : State) : ∃ t, step s = .next t := by
  match h : s.host with
  | [] => exact ⟨s, by simp only [step, h]⟩
  | .request r :: rest =>
    rw [step_of_request h]
    exact exec_accepts (decode r) _
  | .editIn u k b :: rest => exact ⟨hostEdit u k b { s with host := rest }, by simp only [step, h]⟩
  | .reset :: rest => exact ⟨blockReset { s with host := rest }, by simp only [step, h]⟩

/-- Settles O6: R8, by the cases of the command and of the host's next action. -/
theorem everyCommandIsAcceptedInEveryState : Obligations.EveryCommandIsAcceptedInEveryState :=
  ⟨exec_accepts, step_accepts⟩

end Sys2Proof.Machine
end

section
/-! The loops of `ENC`, one turn at a time (spec 42_encoder.md R91 to R93): the bounds of the model's recursions drop out, and
the run is an induction over byte-level actions (R17, R90). -/

namespace Sys2Proof.Machine

/-! ### The drain and the fill -/

theorem encDrain_inp (e : Enc) : (encDrain e).inp = e.inp := (encDrain_staging e).1

theorem encDrain_rcnt (e : Enc) : (encDrain e).rcnt = e.rcnt := by
  obtain ⟨-, -, h, -⟩ := encDrain_staging e
  exact h

theorem encDrain_of_room {e : Enc} (hp : e.pend = true) (hr : e.out.hasRoom = true) :
    encDrain e = encDrain (encDrainByte e) := by
  unfold encDrain
  rw [encDrainByte_out, room_drain e.out e.es[e.ecnt] hr, encDrainLoop]
  simp [hp, hr]

theorem encDrain_of_no_room {e : Enc} (hr : e.out.hasRoom = false) : encDrain e = e := by
  unfold encDrain
  cases e.out.room <;> simp [encDrainLoop, hr]

theorem encFill_of_byte {e : Enc} (hb : e.inp.hasByte = true) (hc : e.rcnt ≠ 6) :
    encFill e = encFill { encStageByte e with rcnt := e.rcnt + 1 } := by
  unfold encFill
  rw [avail_pull e.inp hb, encFillLoop]
  simp [hb, hc, rawFull, rcntNext]

/-- The seventh byte is followed at once by the transform (R92). -/
theorem encFill_of_last_byte {e : Enc} (hb : e.inp.hasByte = true) (hc : e.rcnt = 6) :
    encFill e = (.full, encTransform (encStageByte e)) := by
  unfold encFill
  rw [avail_pull e.inp hb, encFillLoop]
  simp [hb, hc, rawFull]

theorem encFill_of_no_byte {e : Enc} (hb : e.inp.hasByte = false) : encFill e = (.starved, e) := by
  unfold encFill
  cases e.inp.avail <;> simp [encFillLoop, hb]

/-- A fill that completes a block has pulled a byte. -/
theorem encFillLoop_full_avail {n : Nat} {e e' : Enc} (h : encFillLoop n e = (.full, e')) :
    e'.inp.avail < e.inp.avail := by
  induction n generalizing e with
  | zero => simp [encFillLoop] at h
  | succ n ih =>
    unfold encFillLoop at h
    split at h
    · have hp := avail_pull e.inp ‹_›
      split at h
      · cases h
        simp only [encTransform_inp, encStageByte_inp]
        omega
      · have := ih h
        simp only [encStageByte_inp] at this
        omega
    · cases h

/-! ### The run -/

/-- A bound of as many fills as there are unread bytes is enough: one more changes nothing. -/
theorem encRunLoop_succ {n : Nat} {e : Enc} (h : e.inp.avail ≤ n) : encRunLoop (n + 1) e = encRunLoop n e := by
  induction n generalizing e with
  | zero =>
    have hb : (encDrain e).inp.hasByte = false := by
      rw [encDrain_inp, Bool.eq_false_iff, ne_eq, hasByte_iff]; omega
    simp [encRunLoop, encFill_of_no_byte hb]
  | succ n ih =>
    rw [encRunLoop, encRunLoop]
    split
    · rfl
    · split
      · rfl
      · rename_i e' hf
        have ha := encFillLoop_full_avail hf
        rw [encDrain_inp] at ha
        exact ih (by omega)

theorem encRunLoop_eq_encRun {n : Nat} {e : Enc} (h : e.inp.avail ≤ n) : encRunLoop n e = encRun e := by
  induction n, h using Nat.le_induction with
  | base => rfl
  | succ n h ih => rw [encRunLoop_succ h, ih]

theorem encRun_of_room {e : Enc} (hp : e.pend = true) (hr : e.out.hasRoom = true) :
    encRun e = encRun (encDrainByte e) := by
  unfold encRun
  rw [encDrainByte_inp, ← encRunLoop_succ (e := e) le_rfl, ← encRunLoop_succ (e := encDrainByte e) (by simp),
    encRunLoop, encRunLoop, encDrain_of_room hp hr]

theorem encRun_of_no_room {e : Enc} (hp : e.pend = true) (hr : e.out.hasRoom = false) :
    encRun e = (.needsMoreOutput, e) := by
  unfold encRun
  rw [← encRunLoop_succ le_rfl, encRunLoop]
  simp [encDrain_of_no_room hr, hp]

/-- Of a unit with nothing pending, the run is the fill and what follows it. -/
theorem encRun_of_idle {e : Enc} (hp : e.pend = false) :
    encRun e = if (encFill e).1 = .full then encRun (encFill e).2 else (.allInputConsumed, (encFill e).2) := by
  rw [← encRunLoop_eq_encRun (Nat.le_succ e.inp.avail), encRunLoop, encDrain_idle e hp]
  simp only [hp, Bool.false_eq_true, if_false]
  split
  · simp [*]
  · rename_i e' hf
    simp [hf, encRunLoop_eq_encRun (encFillLoop_full_avail hf).le]

theorem encRun_of_no_byte {e : Enc} (hp : e.pend = false) (hb : e.inp.hasByte = false) :
    encRun e = (.allInputConsumed, e) := by
  simp [encRun_of_idle hp, encFill_of_no_byte hb]

theorem encRun_of_byte {e : Enc} (hp : e.pend = false) (hb : e.inp.hasByte = true) (hc : e.rcnt ≠ 6) :
    encRun e = encRun { encStageByte e with rcnt := e.rcnt + 1 } := by
  rw [encRun_of_idle hp, encFill_of_byte hb hc, ← encRun_of_idle (by simpa using hp)]

theorem encRun_of_last_byte {e : Enc} (hp : e.pend = false) (hb : e.inp.hasByte = true) (hc : e.rcnt = 6) :
    encRun e = encRun (encTransform (encStageByte e)) := by
  simp [encRun_of_idle hp, encFill_of_last_byte hb hc]

/-- Induction over the byte-level actions of a run: each uses up a byte of output room or an unread byte. -/
theorem encRun_induct {P : Enc → RunEnd × Enc → Prop}
    (drain : ∀ e r, e.pend = true → e.out.hasRoom = true → P (encDrainByte e) r → P e r)
    (noRoom : ∀ e, e.pend = true → e.out.hasRoom = false → P e (.needsMoreOutput, e))
    (byte : ∀ e r, e.pend = false → e.inp.hasByte = true → e.rcnt ≠ 6 →
      P { encStageByte e with rcnt := e.rcnt + 1 } r → P e r)
    (lastByte : ∀ e r, e.pend = false → e.inp.hasByte = true → e.rcnt = 6 →
      P (encTransform (encStageByte e)) r → P e r)
    (noByte : ∀ e, e.pend = false → e.inp.hasByte = false → P e (.allInputConsumed, e)) (e : Enc) :
    P e (encRun e) := by
  induction h : e.inp.avail + e.out.room using Nat.strong_induction_on generalizing e with
  | _ n ih =>
    subst h
    cases hp : e.pend with
    | true =>
      cases hr : e.out.hasRoom with
      | true =>
        have := room_drain e.out e.es[e.ecnt] hr
        rw [encRun_of_room hp hr]
        exact drain e _ hp hr (ih _ (by simp only [encDrainByte_inp, encDrainByte_out]; omega) _ rfl)
      | false => rw [encRun_of_no_room hp hr]; exact noRoom e hp hr
    | false =>
      cases hb : e.inp.hasByte with
      | true =>
        have := avail_pull e.inp hb
        by_cases hc : e.rcnt = 6
        · rw [encRun_of_last_byte hp hb hc]
          exact lastByte e _ hp hb hc (ih _ (by simp; omega) _ rfl)
        · rw [encRun_of_byte hp hb hc]
          exact byte e _ hp hb hc (ih _ (by simp; omega) _ rfl)
      | false => rw [encRun_of_no_byte hp hb]; exact noByte e hp hb

/-! ### The phase table -/

theorem phaseOf_eq_draining {fin pend : Bool} : phaseOf fin pend = .draining ↔ fin = false ∧ pend = true := by
  cases fin <;> cases pend <;> simp [phaseOf]

theorem phaseOf_eq_filling {fin pend : Bool} : phaseOf fin pend = .filling ↔ fin = false ∧ pend = false := by
  cases fin <;> cases pend <;> simp [phaseOf]

/-- Settles O27: R17 and R90, one equation of the run for each row. -/
theorem encRunGoesByteByByte : Obligations.EncRunGoesByteByByte := fun _ =>
  ⟨fun h hr => encRun_of_room (phaseOf_eq_draining.1 h).2 (decide_eq_true hr),
    fun h hr => encRun_of_no_room (phaseOf_eq_draining.1 h).2 (decide_eq_false hr),
    fun h hb hc => encRun_of_byte (phaseOf_eq_filling.1 h).2 (decide_eq_true hb) hc,
    fun h hb hc => encRun_of_last_byte (phaseOf_eq_filling.1 h).2 (decide_eq_true hb) hc,
    fun h hb => encRun_of_no_byte (phaseOf_eq_filling.1 h).2 (decide_eq_false hb)⟩

end Sys2Proof.Machine
end

section
/-! The loops of `DEC`, one turn at a time (spec 43_decoder.md R111 to R113): the bounds of the model's recursions drop out, and
the run is an induction over byte-level actions, as in `ENC` with the block roles exchanged (R17, R110). -/

namespace Sys2Proof.Machine

/-! ### The drain and the fill -/

theorem decDrain_inp (d : Dec) : (decDrain d).inp = d.inp := (decDrain_staging d).1

theorem decDrain_ecnt (d : Dec) : (decDrain d).ecnt = d.ecnt := by
  obtain ⟨-, -, h, -⟩ := decDrain_staging d
  exact h

theorem decDrain_of_room {d : Dec} (hp : d.pend = true) (hr : d.out.hasRoom = true) :
    decDrain d = decDrain (decDrainByte d) := by
  unfold decDrain
  rw [decDrainByte_out, room_drain d.out d.rs[d.rcnt] hr, decDrainLoop]
  simp [hp, hr]

theorem decDrain_of_no_room {d : Dec} (hr : d.out.hasRoom = false) : decDrain d = d := by
  unfold decDrain
  cases d.out.room <;> simp [decDrainLoop, hr]

theorem decFill_of_byte {d : Dec} (hb : d.inp.hasByte = true) (hc : d.ecnt ≠ 7) :
    decFill d = decFill { decStageByte d with ecnt := d.ecnt + 1 } := by
  unfold decFill
  rw [avail_pull d.inp hb, decFillLoop]
  simp [hb, hc, encodedFull, ecntNext]

/-- The eighth byte is followed at once by the transform (R112). -/
theorem decFill_of_last_byte {d : Dec} (hb : d.inp.hasByte = true) (hc : d.ecnt = 7) :
    decFill d = (.full, decTransform 7 (decStageByte d)) := by
  unfold decFill
  rw [avail_pull d.inp hb, decFillLoop]
  simp [hb, hc, encodedFull]

theorem decFill_of_no_byte {d : Dec} (hb : d.inp.hasByte = false) : decFill d = (.starved, d) := by
  unfold decFill
  cases d.inp.avail <;> simp [decFillLoop, hb]

/-- A fill that completes a block has pulled a byte. -/
theorem decFillLoop_full_avail {n : Nat} {d d' : Dec} (h : decFillLoop n d = (.full, d')) :
    d'.inp.avail < d.inp.avail := by
  induction n generalizing d with
  | zero => simp [decFillLoop] at h
  | succ n ih =>
    unfold decFillLoop at h
    split at h
    · have hp := avail_pull d.inp ‹_›
      split at h
      · cases h
        simp only [decTransform_inp, decStageByte_inp]
        omega
      · have := ih h
        simp only [decStageByte_inp] at this
        omega
    · cases h

/-! ### The run -/

/-- A bound of as many fills as there are unread bytes is enough: one more changes nothing. -/
theorem decRunLoop_succ {n : Nat} {d : Dec} (h : d.inp.avail ≤ n) : decRunLoop (n + 1) d = decRunLoop n d := by
  induction n generalizing d with
  | zero =>
    have hb : (decDrain d).inp.hasByte = false := by
      rw [decDrain_inp, Bool.eq_false_iff, ne_eq, hasByte_iff]; omega
    simp [decRunLoop, decFill_of_no_byte hb]
  | succ n ih =>
    rw [decRunLoop, decRunLoop]
    split
    · rfl
    · split
      · rfl
      · rename_i d' hf
        have ha := decFillLoop_full_avail hf
        rw [decDrain_inp] at ha
        exact ih (by omega)

theorem decRunLoop_eq_decRun {n : Nat} {d : Dec} (h : d.inp.avail ≤ n) : decRunLoop n d = decRun d := by
  induction n, h using Nat.le_induction with
  | base => rfl
  | succ n h ih => rw [decRunLoop_succ h, ih]

theorem decRun_of_room {d : Dec} (hp : d.pend = true) (hr : d.out.hasRoom = true) :
    decRun d = decRun (decDrainByte d) := by
  unfold decRun
  rw [decDrainByte_inp, ← decRunLoop_succ (d := d) le_rfl, ← decRunLoop_succ (d := decDrainByte d) (by simp),
    decRunLoop, decRunLoop, decDrain_of_room hp hr]

theorem decRun_of_no_room {d : Dec} (hp : d.pend = true) (hr : d.out.hasRoom = false) :
    decRun d = (.needsMoreOutput, d) := by
  unfold decRun
  rw [← decRunLoop_succ le_rfl, decRunLoop]
  simp [decDrain_of_no_room hr, hp]

/-- Of a unit with nothing pending, the run is the fill and what follows it. -/
theorem decRun_of_idle {d : Dec} (hp : d.pend = false) :
    decRun d = if (decFill d).1 = .full then decRun (decFill d).2 else (.allInputConsumed, (decFill d).2) := by
  rw [← decRunLoop_eq_decRun (Nat.le_succ d.inp.avail), decRunLoop, decDrain_idle d hp]
  simp only [hp, Bool.false_eq_true, if_false]
  split
  · simp [*]
  · rename_i d' hf
    simp [hf, decRunLoop_eq_decRun (decFillLoop_full_avail hf).le]

theorem decRun_of_no_byte {d : Dec} (hp : d.pend = false) (hb : d.inp.hasByte = false) :
    decRun d = (.allInputConsumed, d) := by
  simp [decRun_of_idle hp, decFill_of_no_byte hb]

theorem decRun_of_byte {d : Dec} (hp : d.pend = false) (hb : d.inp.hasByte = true) (hc : d.ecnt ≠ 7) :
    decRun d = decRun { decStageByte d with ecnt := d.ecnt + 1 } := by
  rw [decRun_of_idle hp, decFill_of_byte hb hc, ← decRun_of_idle (by simpa using hp)]

theorem decRun_of_last_byte {d : Dec} (hp : d.pend = false) (hb : d.inp.hasByte = true) (hc : d.ecnt = 7) :
    decRun d = decRun (decTransform 7 (decStageByte d)) := by
  simp [decRun_of_idle hp, decFill_of_last_byte hb hc]

/-- Induction over the byte-level actions of a run: each uses up a byte of output room or an unread byte. -/
theorem decRun_induct {P : Dec → RunEnd × Dec → Prop}
    (drain : ∀ d r, d.pend = true → d.out.hasRoom = true → P (decDrainByte d) r → P d r)
    (noRoom : ∀ d, d.pend = true → d.out.hasRoom = false → P d (.needsMoreOutput, d))
    (byte : ∀ d r, d.pend = false → d.inp.hasByte = true → d.ecnt ≠ 7 →
      P { decStageByte d with ecnt := d.ecnt + 1 } r → P d r)
    (lastByte : ∀ d r, d.pend = false → d.inp.hasByte = true → d.ecnt = 7 →
      P (decTransform 7 (decStageByte d)) r → P d r)
    (noByte : ∀ d, d.pend = false → d.inp.hasByte = false → P d (.allInputConsumed, d)) (d : Dec) :
    P d (decRun d) := by
  induction h : d.inp.avail + d.out.room using Nat.strong_induction_on generalizing d with
  | _ n ih =>
    subst h
    cases hp : d.pend with
    | true =>
      cases hr : d.out.hasRoom with
      | true =>
        have := room_drain d.out d.rs[d.rcnt] hr
        rw [decRun_of_room hp hr]
        exact drain d _ hp hr (ih _ (by simp only [decDrainByte_inp, decDrainByte_out]; omega) _ rfl)
      | false => rw [decRun_of_no_room hp hr]; exact noRoom d hp hr
    | false =>
      cases hb : d.inp.hasByte with
      | true =>
        have := avail_pull d.inp hb
        by_cases hc : d.ecnt = 7
        · rw [decRun_of_last_byte hp hb hc]
          exact lastByte d _ hp hb hc (ih _ (by simp; omega) _ rfl)
        · rw [decRun_of_byte hp hb hc]
          exact byte d _ hp hb hc (ih _ (by simp; omega) _ rfl)
      | false => rw [decRun_of_no_byte hp hb]; exact noByte d hp hb

/-- Settles O36: R17 and R110, one equation of the run for each row. -/
theorem decRunGoesByteByByte : Obligations.DecRunGoesByteByByte := fun _ =>
  ⟨fun h hr => decRun_of_room (phaseOf_eq_draining.1 h).2 (decide_eq_true hr),
    fun h hr => decRun_of_no_room (phaseOf_eq_draining.1 h).2 (decide_eq_false hr),
    fun h hb hc => decRun_of_byte (phaseOf_eq_filling.1 h).2 (decide_eq_true hb) hc,
    fun h hb hc => decRun_of_last_byte (phaseOf_eq_filling.1 h).2 (decide_eq_true hb) hc,
    fun h hb => decRun_of_no_byte (phaseOf_eq_filling.1 h).2 (decide_eq_false hb)⟩

end Sys2Proof.Machine
end

section
/-! What one command can do, said once: what it leaves in each unit is a function of that unit alone, and what it answers a
function of the unit it names (R10, R42). What one step can do, and the cases of a `FINALIZE` (R95, R115). -/

namespace Sys2Proof.Machine

/-! ### The effect of a command -/

/-- What a command leaves in `ENC`, `k` free values having been drawn before. -/
def encAfter (i : Instr) (k : Nat) (e : Enc) : Enc :=
  match i with
  | .encInit =>
    { fin := false, pend := false, rcnt := 0, ecnt := 0, rs := freeRaw k, es := freeEncoded (k + 7)
      inp := InView.empty, out := OutView.empty }
  | .encBind i o => { e with inp := bindIn i, out := bindOut o }
  | .encRebindIn i => { e with inp := bindIn i }
  | .encRebindOut o => { e with out := bindOut o }
  | .encEncode => (encEncodeUnit e).2
  | .encFinalize => (encFinalizeUnit e).2
  | _ => e

/-- What a command leaves in `DEC`, `k` free values having been drawn before. -/
def decAfter (i : Instr) (k : Nat) (d : Dec) : Dec :=
  match i with
  | .decInit =>
    { fin := false, pend := false, rcnt := 0, ecnt := 0, rlim := 7, rs := freeRaw k, es := freeEncoded (k + 7)
      inp := InView.empty, out := OutView.empty }
  | .decBind i o => { d with inp := bindIn i, out := bindOut o }
  | .decRebindIn i => { d with inp := bindIn i }
  | .decRebindOut o => { d with out := bindOut o }
  | .decDecode => (decDecodeUnit d).2
  | .decFinalize => (decFinalizeUnit Config.decTailPolicy d).2
  | _ => d

/-- What a command answers. -/
def replyTo (i : Instr) (e : Enc) (d : Dec) : Reply :=
  match i with
  | .encEncode => ⟨(encEncodeUnit e).1, none⟩
  | .encFinalize => ⟨(encFinalizeUnit e).1, none⟩
  | .encblk b =>
    if b.n = 7 then ⟨.done, some (packEncoded (encodeBlock (rawOperand b)))⟩ else ⟨.blockSizeError, none⟩
  | .decDecode => ⟨(decDecodeUnit d).1, none⟩
  | .decFinalize => ⟨(decFinalizeUnit Config.decTailPolicy d).1, none⟩
  | .decblk b =>
    if b.n = 8 then ⟨.done, some (packRaw (decodeBlock (encodedOperand b)))⟩ else ⟨.blockSizeError, none⟩
  | .reserved7 | .reservedF => ⟨.illegalCommand, none⟩
  | _ => ⟨.done, none⟩

/-- Everything that a command can do to the units and the interface. -/
theorem exec_next {i : Instr} {s t : State} (h : exec i s = .next t) :
    t.enc = encAfter i s.free s.enc ∧ t.dec = decAfter i s.free s.dec ∧ t.host = s.host ∧
      t.replies = s.replies ++ [replyTo i s.enc s.dec] := by
  cases i with
  | encblk b =>
    by_cases hn : b.n = 7
    · cases (execEncblk_of_size hn s).symm.trans h
      exact ⟨rfl, rfl, rfl, congrArg (s.replies ++ [·]) (if_pos hn).symm⟩
    · cases (execEncblk_of_wrong_size hn s).symm.trans h
      exact ⟨rfl, rfl, rfl, congrArg (s.replies ++ [·]) (if_neg hn).symm⟩
  | decblk b =>
    by_cases hn : b.n = 8
    · cases (execDecblk_of_size hn s).symm.trans h
      exact ⟨rfl, rfl, rfl, congrArg (s.replies ++ [·]) (if_pos hn).symm⟩
    · cases (execDecblk_of_wrong_size hn s).symm.trans h
      exact ⟨rfl, rfl, rfl, congrArg (s.replies ++ [·]) (if_neg hn).symm⟩
  | _ => cases h; exact ⟨rfl, rfl, rfl, rfl⟩

/-- Everything that a step can do (R5, R50, R43, R150). -/
theorem step_next {s t : State} (h : step s = .next t) :
    t = s ∨ ∃ a rest, s.host = a :: rest ∧ t.host = rest ∧
      match a with
      | .request r => exec (decode r) { s with host := rest } = .next t
      | .editIn u i b => t = hostEdit u i b { s with host := rest }
      | .reset => t = blockReset { s with host := rest } := by
  unfold step at h
  split at h
  · cases h; exact .inl rfl
  · obtain ⟨-, -, hh, -⟩ := exec_next h
    exact .inr ⟨_, _, ‹_›, hh, h⟩
  · rename_i u _ _ _ _
    cases h
    exact .inr ⟨_, _, ‹_›, by cases u <;> rfl, rfl⟩
  · cases h; exact .inr ⟨_, _, ‹_›, rfl, rfl⟩

theorem answered_iff {i : Instr} {s t : State} (h : exec i s = .next t) (r : Rsp) :
    Safety.Answered s t r ↔ replyTo i s.enc s.dec = ⟨r, none⟩ := by
  obtain ⟨-, -, -, hr⟩ := exec_next h
  simp [Safety.Answered, hr]

/-! ### Each unit by itself -/

/-- A command to `ENC` leaves `DEC` as it is, and its answer does not depend on `DEC`. -/
theorem after_of_enc_unit {i : Instr} (h : unitField (encode i).op = false) :
    (∀ k d, decAfter i k d = d) ∧ ∀ e d d', replyTo i e d = replyTo i e d' := by
  cases i with
  | encInit | encBind | encRebindIn | encRebindOut | encEncode | encFinalize | encblk | reserved7 =>
    exact ⟨fun _ _ => rfl, fun _ _ _ => rfl⟩
  | decInit | decBind | decRebindIn | decRebindOut | decDecode | decFinalize | decblk | reservedF =>
    simp [unitField, encode, bareRequest] at h

/-- A command to `DEC` leaves `ENC` as it is, and its answer does not depend on `ENC`. -/
theorem after_of_dec_unit {i : Instr} (h : unitField (encode i).op = true) :
    (∀ k e, encAfter i k e = e) ∧ ∀ e e' d, replyTo i e d = replyTo i e' d := by
  cases i with
  | decInit | decBind | decRebindIn | decRebindOut | decDecode | decFinalize | decblk | reservedF =>
    exact ⟨fun _ _ => rfl, fun _ _ _ => rfl⟩
  | encInit | encBind | encRebindIn | encRebindOut | encEncode | encFinalize | encblk | reserved7 =>
    simp [unitField, encode, bareRequest] at h

/-- The block commands and the reserved codes, `FN` 6 and 7, touch no unit (R28, R57). -/
theorem after_of_no_unit {i : Instr} (h : fnField (encode i).op = 6 ∨ fnField (encode i).op = 7) (k : Nat) (e : Enc)
    (d : Dec) : encAfter i k e = e ∧ decAfter i k d = d := by
  cases i with
  | encblk | reserved7 | decblk | reservedF => exact ⟨rfl, rfl⟩
  | encInit | encBind | encRebindIn | encRebindOut | encEncode | encFinalize
  | decInit | decBind | decRebindIn | decRebindOut | decDecode | decFinalize =>
    simp [fnField, encode, bareRequest] at h

/-- Settles O49: R10, R42 and R28, since effect and answer are functions of the unit the command names. -/
theorem unitsShareNothing : Obligations.UnitsShareNothing := by
  intro i s t h
  obtain ⟨he, hd, -, hr⟩ := exec_next h
  refine ⟨fun hu => ⟨hd.trans ((after_of_enc_unit hu).1 _ _), fun d t' h' => ?_⟩,
    fun hu => ⟨he.trans ((after_of_dec_unit hu).1 _ _), fun e t' h' => ?_⟩, fun hf => ?_⟩
  · obtain ⟨he', -, -, hr'⟩ := exec_next h'
    exact ⟨he'.trans he.symm, by rw [hr, hr', (after_of_enc_unit hu).2 _ d s.dec]⟩
  · obtain ⟨-, hd', -, hr'⟩ := exec_next h'
    exact ⟨hd'.trans hd.symm, by rw [hr, hr', (after_of_dec_unit hu).2 e s.enc]⟩
  · obtain ⟨he', hd'⟩ := after_of_no_unit hf s.free s.enc s.dec
    exact ⟨he.trans he', hd.trans hd'⟩

/-! ### The cases of `FINALIZE` -/

theorem encFinalizeUnit_of_fin {e : Enc} (hf : e.fin = true) : encFinalizeUnit e = (.alreadyFinalized, e) := if_pos hf

theorem encFinalizeUnit_of_blocked {e : Enc} (hf : e.fin = false) (hr : (encRun e).1 = .needsMoreOutput) :
    encFinalizeUnit e = (.needsMoreOutput, (encRun e).2) := by
  unfold encFinalizeUnit
  rw [if_neg (by simp [hf])]
  split <;> simp_all

theorem encFinalizeUnit_of_consumed {e : Enc} (hf : e.fin = false) (hr : (encRun e).1 = .allInputConsumed) :
    encFinalizeUnit e = encFlush (encRun e).2 := by
  unfold encFinalizeUnit
  rw [if_neg (by simp [hf])]
  split <;> simp_all

theorem decFinalizeUnit_of_fin (p : TailPolicy) {d : Dec} (hf : d.fin = true) :
    decFinalizeUnit p d = (.alreadyFinalized, d) := if_pos hf

theorem decFinalizeUnit_of_blocked (p : TailPolicy) {d : Dec} (hf : d.fin = false)
    (hr : (decRun d).1 = .needsMoreOutput) : decFinalizeUnit p d = (.needsMoreOutput, (decRun d).2) := by
  unfold decFinalizeUnit
  rw [if_neg (by simp [hf])]
  split <;> simp_all

theorem decFinalizeUnit_of_consumed (p : TailPolicy) {d : Dec} (hf : d.fin = false)
    (hr : (decRun d).1 = .allInputConsumed) : decFinalizeUnit p d = decFlush p (decRun d).2 := by
  unfold decFinalizeUnit
  rw [if_neg (by simp [hf])]
  split <;> simp_all

end Sys2Proof.Machine
end

section
/-! A command that works on a stream is a sequence of byte-level moves (R17, R90, R110): whatever every move keeps, `ENCODE`,
`DECODE` and `FINALIZE` keep. -/

namespace Sys2Proof.Machine

/-! ### How a run ends -/

/-- `ENC` has stopped for want of room with a block pending, or for want of input with none (R93). -/
abbrev EncStopped (r : RunEnd × Enc) : Prop :=
  (r.1 = .needsMoreOutput ∧ r.2.pend = true ∧ r.2.out.hasRoom = false) ∨
  (r.1 = .allInputConsumed ∧ r.2.pend = false ∧ r.2.inp.hasByte = false)

theorem encRun_stopped (e : Enc) : EncStopped (encRun e) :=
  encRun_induct (P := fun _ => EncStopped)
    (fun _ _ _ _ ih => ih) (fun _ hp hr => .inl ⟨rfl, hp, hr⟩) (fun _ _ _ _ _ ih => ih) (fun _ _ _ _ _ ih => ih)
    (fun _ hp hb => .inr ⟨rfl, hp, hb⟩) e

/-- `DEC` has stopped for want of room with a block pending, or for want of input with none (R113). -/
abbrev DecStopped (r : RunEnd × Dec) : Prop :=
  (r.1 = .needsMoreOutput ∧ r.2.pend = true ∧ r.2.out.hasRoom = false) ∨
  (r.1 = .allInputConsumed ∧ r.2.pend = false ∧ r.2.inp.hasByte = false)

theorem decRun_stopped (d : Dec) : DecStopped (decRun d) :=
  decRun_induct (P := fun _ => DecStopped)
    (fun _ _ _ _ ih => ih) (fun _ hp hr => .inl ⟨rfl, hp, hr⟩) (fun _ _ _ _ _ ih => ih) (fun _ _ _ _ _ ih => ih)
    (fun _ hp hb => .inr ⟨rfl, hp, hb⟩) d

/-! ### The moves of `ENC` -/

/-- One move of `ENC` within `ENCODE` or `FINALIZE`. -/
inductive EncMove : Enc → Enc → Prop where
  /-- drain a byte owed (R91). -/
  | drain {e} (hp : e.pend = true) (hr : e.out.hasRoom = true) : EncMove e (encDrainByte e)
  /-- stage a byte (R92). -/
  | byte {e} (hf : e.fin = false) (hp : e.pend = false) (hb : e.inp.hasByte = true) (hc : e.rcnt ≠ 6) :
    EncMove e { encStageByte e with rcnt := e.rcnt + 1 }
  /-- stage the seventh byte and transform (R92). -/
  | lastByte {e} (hf : e.fin = false) (hp : e.pend = false) (hb : e.inp.hasByte = true) (hc : e.rcnt = 6) :
    EncMove e (encTransform (encStageByte e))
  /-- pad the staged bytes and transform (R95, R96). -/
  | pad {e} (hf : e.fin = false) (hp : e.pend = false) (hc : e.rcnt ≠ 0) :
    EncMove e (encTransform { e with rs := padRaw e.rcnt.val e.rs })
  /-- finish (R95). -/
  | finish {e} (hp : e.pend = false) (hc : e.rcnt = 0) : EncMove e { e with fin := true }

/-- Some moves of `ENC`, one after another. -/
abbrev EncMoves : Enc → Enc → Prop := Relation.ReflTransGen EncMove

/-- Whatever every move keeps, any number of moves keep. -/
theorem EncMoves.keep {P : Enc → Prop} (move : ∀ {a b}, EncMove a b → P a → P b) {a b : Enc} (m : EncMoves a b)
    (h : P a) : P b := by
  induction m with
  | refl => exact h
  | tail _ m ih => exact move m ih

theorem encDrain_moves (e : Enc) : EncMoves e (encDrain e) :=
  encDrainLoop_induct (P := EncMoves) (fun _ => .refl) (fun _ _ hp hr ih => .head (.drain hp hr) ih) _ e

theorem encRun_moves (e : Enc) : e.fin = false → EncMoves e (encRun e).2 :=
  encRun_induct (P := fun e r => e.fin = false → EncMoves e r.2)
    (fun e _ hp hr ih hf => .head (.drain hp hr) (ih ((encDrainByte_fin e).trans hf)))
    (fun _ _ _ _ => .refl)
    (fun _ _ hp hb hc ih hf => .head (.byte hf hp hb hc) (ih hf))
    (fun _ _ hp hb hc ih hf => .head (.lastByte hf hp hb hc) (ih hf))
    (fun _ _ _ _ => .refl) e

theorem encFinish_moves {e : Enc} (hc : e.rcnt = 0) : EncMoves e (encFinish e).2 := by
  unfold encFinish
  split
  · exact .refl
  · exact .single (.finish (Bool.eq_false_iff.2 ‹_›) hc)

theorem encFlush_moves {e : Enc} (hf : e.fin = false) (hp : e.pend = false) : EncMoves e (encFlush e).2 := by
  unfold encFlush
  split
  · exact encFinish_moves ‹_›
  · exact .head (.pad hf hp ‹_›) ((encDrain_moves _).trans (encFinish_moves (encDrain_rcnt _)))

theorem encEncodeUnit_moves (e : Enc) : EncMoves e (encEncodeUnit e).2 := by
  cases hf : e.fin with
  | true => simpa [encEncodeUnit, hf] using Relation.ReflTransGen.refl
  | false => simpa [encEncodeUnit, hf] using encRun_moves e hf

theorem encFinalizeUnit_moves (e : Enc) : EncMoves e (encFinalizeUnit e).2 := by
  cases hf : e.fin with
  | true => rw [encFinalizeUnit_of_fin hf]
  | false =>
    rcases encRun_stopped e with ⟨hr, -, -⟩ | ⟨hr, hp, -⟩
    · rw [encFinalizeUnit_of_blocked hf hr]
      exact encRun_moves e hf
    · rw [encFinalizeUnit_of_consumed hf hr]
      exact (encRun_moves e hf).trans (encFlush_moves ((encRun_keeps e).fin.trans hf) hp)

/-! ### The moves of `DEC` -/

/-- One move of `DEC` built with the tail policy `p` within `DECODE` or `FINALIZE`. -/
inductive DecMove (p : TailPolicy) : Dec → Dec → Prop where
  /-- drain a byte owed (R111). -/
  | drain {d} (hp : d.pend = true) (hr : d.out.hasRoom = true) : DecMove p d (decDrainByte d)
  /-- stage a byte (R112). -/
  | byte {d} (hf : d.fin = false) (hp : d.pend = false) (hb : d.inp.hasByte = true) (hc : d.ecnt ≠ 7) :
    DecMove p d { decStageByte d with ecnt := d.ecnt + 1 }
  /-- stage the eighth byte and transform (R112). -/
  | lastByte {d} (hf : d.fin = false) (hp : d.pend = false) (hb : d.inp.hasByte = true) (hc : d.ecnt = 7) :
    DecMove p d (decTransform 7 (decStageByte d))
  /-- pad the staged bytes and transform, where the tail has bytes to deliver (R115, R116). -/
  | pad {d} (hf : d.fin = false) (hp : d.pend = false) (hn : tailCount p d.ecnt ≠ 0) :
    DecMove p d (decTransform (tailCount p d.ecnt) { d with es := padEncoded d.ecnt.val d.es })
  /-- drop the staged bytes, where the tail has none to deliver (R115, R116). -/
  | drop {d} (hp : d.pend = false) :
    DecMove p d { d with es := padEncoded d.ecnt.val d.es, ecnt := 0 }
  /-- finish (R115). -/
  | finish {d} (hp : d.pend = false) (hc : d.ecnt = 0) : DecMove p d { d with fin := true }

/-- Some moves of `DEC`, one after another. -/
abbrev DecMoves (p : TailPolicy) : Dec → Dec → Prop := Relation.ReflTransGen (DecMove p)

/-- Whatever every move keeps, any number of moves keep. -/
theorem DecMoves.keep {p : TailPolicy} {P : Dec → Prop} (move : ∀ {a b}, DecMove p a b → P a → P b) {a b : Dec}
    (m : DecMoves p a b) (h : P a) : P b := by
  induction m with
  | refl => exact h
  | tail _ m ih => exact move m ih

section
variable (p : TailPolicy)

theorem decDrain_moves (d : Dec) : DecMoves p d (decDrain d) :=
  decDrainLoop_induct (P := DecMoves p) (fun _ => .refl) (fun _ _ hp hr ih => .head (.drain hp hr) ih) _ d

theorem decRun_moves (d : Dec) : d.fin = false → DecMoves p d (decRun d).2 :=
  decRun_induct (P := fun d r => d.fin = false → DecMoves p d r.2)
    (fun d _ hp hr ih hf => .head (.drain hp hr) (ih ((decDrainByte_fin d).trans hf)))
    (fun _ _ _ _ => .refl)
    (fun _ _ hp hb hc ih hf => .head (.byte hf hp hb hc) (ih hf))
    (fun _ _ hp hb hc ih hf => .head (.lastByte hf hp hb hc) (ih hf))
    (fun _ _ _ _ => .refl) d

theorem decFinish_moves {d : Dec} (hc : d.ecnt = 0) : DecMoves p d (decFinish d).2 := by
  unfold decFinish
  split
  · exact .refl
  · exact .single (.finish (Bool.eq_false_iff.2 ‹_›) hc)

theorem decFlush_moves {d : Dec} (hf : d.fin = false) (hp : d.pend = false) : DecMoves p d (decFlush p d).2 := by
  unfold decFlush
  split
  · exact decFinish_moves p ‹_›
  · unfold decDeliverTail
    split
    · exact .head (.drop hp) (decFinish_moves p rfl)
    · exact .head (.pad hf hp ‹_›) ((decDrain_moves p _).trans (decFinish_moves p (decDrain_ecnt _)))

theorem decDecodeUnit_moves (d : Dec) : DecMoves p d (decDecodeUnit d).2 := by
  cases hf : d.fin with
  | true => simpa [decDecodeUnit, hf] using Relation.ReflTransGen.refl
  | false => simpa [decDecodeUnit, hf] using decRun_moves p d hf

theorem decFinalizeUnit_moves (d : Dec) : DecMoves p d (decFinalizeUnit p d).2 := by
  cases hf : d.fin with
  | true => rw [decFinalizeUnit_of_fin p hf]
  | false =>
    rcases decRun_stopped d with ⟨hr, -, -⟩ | ⟨hr, hp, -⟩
    · rw [decFinalizeUnit_of_blocked p hf hr]
      exact decRun_moves p d hf
    · rw [decFinalizeUnit_of_consumed p hf hr]
      exact (decRun_moves p d hf).trans (decFlush_moves p ((decRun_keeps d).fin.trans hf) hp)

end

end Sys2Proof.Machine
end

section
/-! The invariant of R19 and R18: every move of a unit, every binding and every edit of the host keeps it; so every command and
every step does. -/

namespace Sys2Proof.Machine

/-! ### The views -/

/-- What the invariant says of an input view. -/
structure InView.Ok (v : InView) : Prop where
  bounded : v.pos ≤ v.len
  wf : Memory.wf v.space = true
  within : Memory.within v.len v.space = true

/-- What the invariant says of an output view. -/
structure OutView.Ok (v : OutView) : Prop where
  bounded : v.pos ≤ v.cap
  wf : Memory.wf v.space = true
  within : Memory.within v.cap v.space = true

theorem InView.Ok.pull {v : InView} (h : v.Ok) (hb : v.hasByte = true) : v.pull.Ok :=
  ⟨Nat.succ_le_of_lt (of_decide_eq_true hb), h.wf, h.within⟩

theorem OutView.Ok.drain {v : OutView} (h : v.Ok) (hr : v.hasRoom = true) (b : Byte) : (v.drain b).Ok :=
  have hr : v.pos < v.cap := of_decide_eq_true hr
  ⟨hr, Memory.wf_write _ b h.wf, Memory.within_write b hr h.within⟩

theorem InView.Ok.edit {v : InView} (h : v.Ok) (k : Nat) (b : Byte) : (v.edit k b).Ok := by
  unfold InView.edit
  split
  · exact ⟨h.bounded, Memory.wf_write k b h.wf, Memory.within_write b ‹_› h.within⟩
  · exact h

theorem bindIn_ok (v : ViewOperand) : (bindIn v).Ok := ⟨Nat.zero_le _, Memory.wf_ofBytes _, Memory.within_ofBytes _⟩

theorem bindOut_ok (v : ViewOperand) : (bindOut v).Ok := ⟨Nat.zero_le _, Memory.wf_ofBytes _, Memory.within_ofBytes _⟩

theorem empty_in_ok : InView.empty.Ok := ⟨le_rfl, rfl, rfl⟩

theorem empty_out_ok : OutView.empty.Ok := ⟨le_rfl, rfl, rfl⟩

end Sys2Proof.Machine

namespace Sys2Proof.Safety

open Sys2Proof.Machine

/-! ### `ENC` -/

theorem EncInv.inp_ok {e : Enc} (h : EncInv e) : e.inp.Ok := ⟨h.inBounded, h.inSpaceWf, h.inSpaceWithin⟩

theorem EncInv.out_ok {e : Enc} (h : EncInv e) : e.out.Ok := ⟨h.outBounded, h.outSpaceWf, h.outSpaceWithin⟩

theorem EncInv.setIn {e : Enc} (h : EncInv e) {v : InView} (hv : v.Ok) : EncInv { e with inp := v } :=
  { h with inBounded := hv.bounded, inSpaceWf := hv.wf, inSpaceWithin := hv.within }

theorem EncInv.setOut {e : Enc} (h : EncInv e) {v : OutView} (hv : v.Ok) : EncInv { e with out := v } :=
  { h with outBounded := hv.bounded, outSpaceWf := hv.wf, outSpaceWithin := hv.within }

/-- A unit with a block pending is not Finalized. -/
theorem EncInv.streaming {e : Enc} (h : EncInv e) (hp : e.pend = true) : e.fin = false := by
  cases hf : e.fin with
  | true => simp [(h.finalizedIdle hf).1] at hp
  | false => rfl

/-- The constructed state has the invariant, whatever the staging registers hold (R25). -/
theorem encInv_of_fresh {e : Enc} (h : FreshEnc e) : EncInv e := by
  obtain ⟨hf, hp, hr, he, hi, ho⟩ := h
  constructor <;> simp [hf, hp, hr, he, hi, ho, InView.empty, OutView.empty]

/-- The guard byte has its own bit 7 clear (R71). -/
theorem guardByte_bit7 (r : RawBlock) : (guardByte r).getLsbD 7 = false := by
  simp only [guardByte, BitVec.getLsbD_append]
  simp

/-- What the transform makes is 7-bit-clean (R72). -/
theorem encodeBlock_clean (r : RawBlock) (i : Fin 8) : (encodeBlock r)[i].getLsbD 7 = false := by
  cases i using Fin.cases with
  | zero => exact guardByte_bit7 r
  | succ j => fin_cases j <;> exact low7_bit7 _

/-- The transform of a Streaming unit with nothing pending. -/
theorem EncInv.transform {e : Enc} (h : EncInv e) (hf : e.fin = false) : EncInv (encTransform e) :=
  { h with
    notPendingDrained := fun hp => by simp at hp
    pendingUnstaged := fun _ => rfl
    finalizedIdle := fun hf' => by simp [hf] at hf'
    pendingClean := fun _ => encodeBlock_clean e.rs }

theorem EncInv.drainByte {e : Enc} (h : EncInv e) (hp : e.pend = true) (hr : e.out.hasRoom = true) :
    EncInv (encDrainByte e) := by
  have ho := h.setOut (h.out_ok.drain hr e.es[e.ecnt])
  have hf := h.streaming hp
  rcases encDrainByte_cases e with ⟨-, he⟩ | ⟨-, he⟩
  · rw [he]
    exact { ho with
      notPendingDrained := fun _ => rfl
      pendingUnstaged := fun hp' => by simp at hp'
      finalizedIdle := fun hf' => by simp [hf] at hf'
      pendingClean := fun hp' => by simp at hp' }
  · rw [he]
    exact { ho with
      notPendingDrained := fun hp' => by simp [hp] at hp'
      finalizedIdle := fun hf' => by simp [hf] at hf' }

theorem encMove_inv {a b : Enc} (m : EncMove a b) (h : EncInv a) : EncInv b := by
  cases m with
  | drain hp hr => exact h.drainByte hp hr
  | byte hf hp hb _ =>
    exact { h.setIn (h.inp_ok.pull hb) with
      pendingUnstaged := fun hp' => by simp [hp] at hp'
      finalizedIdle := fun hf' => by simp [hf] at hf' }
  | lastByte hf hp hb _ => exact EncInv.transform (e := encStageByte a) { h.setIn (h.inp_ok.pull hb) with } hf
  | pad hf hp _ => exact EncInv.transform (e := { a with rs := padRaw a.rcnt.val a.rs }) { h with } hf
  | finish hp hc => exact { h with finalizedIdle := fun _ => ⟨hp, hc, h.notPendingDrained hp⟩ }

theorem encAfter_inv (i : Instr) (k : Nat) {e : Enc} (h : EncInv e) : EncInv (encAfter i k e) :=
  match i with
  | .encInit => encInv_of_fresh ⟨rfl, rfl, rfl, rfl, rfl, rfl⟩
  | .encBind i o => (h.setIn (bindIn_ok i)).setOut (bindOut_ok o)
  | .encRebindIn i => h.setIn (bindIn_ok i)
  | .encRebindOut o => h.setOut (bindOut_ok o)
  | .encEncode => (encEncodeUnit_moves e).keep encMove_inv h
  | .encFinalize => (encFinalizeUnit_moves e).keep encMove_inv h
  | .encblk _ | .reserved7 | .decInit | .decBind _ _ | .decRebindIn _ | .decRebindOut _ | .decDecode | .decFinalize
  | .decblk _ | .reservedF => h

/-! ### `DEC` -/

section
variable {p : TailPolicy}

theorem DecInv.inp_ok {d : Dec} (h : DecInv p d) : d.inp.Ok := ⟨h.inBounded, h.inSpaceWf, h.inSpaceWithin⟩

theorem DecInv.out_ok {d : Dec} (h : DecInv p d) : d.out.Ok := ⟨h.outBounded, h.outSpaceWf, h.outSpaceWithin⟩

theorem DecInv.setIn {d : Dec} (h : DecInv p d) {v : InView} (hv : v.Ok) : DecInv p { d with inp := v } :=
  { h with inBounded := hv.bounded, inSpaceWf := hv.wf, inSpaceWithin := hv.within }

theorem DecInv.setOut {d : Dec} (h : DecInv p d) {v : OutView} (hv : v.Ok) : DecInv p { d with out := v } :=
  { h with outBounded := hv.bounded, outSpaceWf := hv.wf, outSpaceWithin := hv.within }

/-- A unit with a block pending is not Finalized. -/
theorem DecInv.streaming {d : Dec} (h : DecInv p d) (hp : d.pend = true) : d.fin = false := by
  cases hf : d.fin with
  | true => simp [(h.finalizedIdle hf).1] at hp
  | false => rfl

/-- The constructed state has the invariant, whatever the staging registers hold (R25). -/
theorem decInv_of_fresh {d : Dec} (h : FreshDec d) : DecInv p d := by
  obtain ⟨hf, hp, hr, he, hl, hi, ho⟩ := h
  constructor <;> simp [hf, hp, hr, he, hl, hi, ho, InView.empty, OutView.empty]

/-- The transform of a Streaming unit, `n` of its bytes to be delivered: 7 where the policy is `DRAIN_ALL` (R18). -/
theorem DecInv.transform {d : Dec} (h : DecInv p d) (hf : d.fin = false) {n : Fin 8} (hn : n ≠ 0)
    (hd : p = .drainAll → n = 7) : DecInv p (decTransform n d) :=
  { h with
    notPendingDrained := fun _ => rfl
    pendingUnstaged := fun _ => rfl
    pendingOwes := fun _ => Fin.pos_iff_ne_zero.2 hn
    limitIdle := fun hp => by simp at hp
    limitDrainAll := hd
    finalizedIdle := fun hf' => by simp [hf] at hf' }

/-- A drained byte that is not the last owed leaves some owed: `RCNT` does not wrap (R19(d)). -/
theorem rcnt_succ_lt {c : Fin 7} {lim : Fin 8} (h : c.val < lim.val) (hn : c.val + 1 ≠ lim.val) :
    (c + 1).val < lim.val := by
  rw [Fin.val_add_one_of_lt (by simp only [Fin.lt_def, Fin.val_last]; omega)]
  omega

theorem DecInv.drainByte {d : Dec} (h : DecInv p d) (hp : d.pend = true) (hr : d.out.hasRoom = true) :
    DecInv p (decDrainByte d) := by
  have ho := h.setOut (h.out_ok.drain hr d.rs[d.rcnt])
  have hf := h.streaming hp
  rcases decDrainByte_cases d with ⟨-, he⟩ | ⟨hl, he⟩
  · rw [he]
    exact { ho with
      notPendingDrained := fun _ => rfl
      pendingUnstaged := fun hp' => by simp at hp'
      pendingOwes := fun hp' => by simp at hp'
      limitIdle := fun _ => rfl
      limitDrainAll := fun _ => rfl
      finalizedIdle := fun hf' => by simp [hf] at hf' }
  · rw [he]
    exact { ho with
      notPendingDrained := fun hp' => by simp [hp] at hp'
      pendingOwes := fun _ => rcnt_succ_lt (h.pendingOwes hp) hl
      finalizedIdle := fun hf' => by simp [hf] at hf' }

theorem decMove_inv {a b : Dec} (m : DecMove p a b) (h : DecInv p a) : DecInv p b := by
  cases m with
  | drain hp hr => exact h.drainByte hp hr
  | byte hf hp hb _ =>
    exact { h.setIn (h.inp_ok.pull hb) with
      pendingUnstaged := fun hp' => by simp [hp] at hp'
      finalizedIdle := fun hf' => by simp [hf] at hf' }
  | lastByte hf hp hb _ =>
    exact DecInv.transform (d := decStageByte a) { h.setIn (h.inp_ok.pull hb) with } hf (by decide) fun _ => rfl
  | pad hf hp hn =>
    exact DecInv.transform (d := { a with es := padEncoded a.ecnt.val a.es }) { h with } hf hn fun hd => by
      subst hd; rfl
  | drop hp =>
    exact { h with
      pendingUnstaged := fun _ => rfl
      finalizedIdle := fun _ => ⟨hp, h.notPendingDrained hp, rfl⟩ }
  | finish hp hc => exact { h with finalizedIdle := fun _ => ⟨hp, h.notPendingDrained hp, hc⟩ }

end

theorem decAfter_inv (i : Instr) (k : Nat) {d : Dec} (h : DecInv Config.decTailPolicy d) :
    DecInv Config.decTailPolicy (decAfter i k d) :=
  match i with
  | .decInit => decInv_of_fresh ⟨rfl, rfl, rfl, rfl, rfl, rfl, rfl⟩
  | .decBind i o => (h.setIn (bindIn_ok i)).setOut (bindOut_ok o)
  | .decRebindIn i => h.setIn (bindIn_ok i)
  | .decRebindOut o => h.setOut (bindOut_ok o)
  | .decDecode => (decDecodeUnit_moves _ d).keep decMove_inv h
  | .decFinalize => (decFinalizeUnit_moves _ d).keep decMove_inv h
  | .decblk _ | .reservedF | .encInit | .encBind _ _ | .encRebindIn _ | .encRebindOut _ | .encEncode | .encFinalize
  | .encblk _ | .reserved7 => h

/-! ### The machine -/

theorem exec_inv {i : Instr} {s t : State} (hs : Inv s) (h : exec i s = .next t) : Inv t := by
  obtain ⟨he, hd, -, -⟩ := exec_next h
  exact ⟨he ▸ encAfter_inv i s.free hs.enc, hd ▸ decAfter_inv i s.free hs.dec⟩

theorem hostEdit_inv {s : State} (hs : Inv s) (u : UnitSel) (k : Nat) (b : Byte) : Inv (hostEdit u k b s) := by
  cases u with
  | enc => exact ⟨hs.enc.setIn (hs.enc.inp_ok.edit k b), hs.dec⟩
  | dec => exact ⟨hs.enc, hs.dec.setIn (hs.dec.inp_ok.edit k b)⟩

theorem blockReset_inv (s : State) : Inv (blockReset s) :=
  ⟨encInv_of_fresh ⟨rfl, rfl, rfl, rfl, rfl, rfl⟩, decInv_of_fresh ⟨rfl, rfl, rfl, rfl, rfl, rfl, rfl⟩⟩

/-- Settles O46: R19 and R18, by the cases of the host's next action. -/
theorem everyStepKeepsTheInvariant : Obligations.EveryStepKeepsTheInvariant := by
  intro s t hs h
  rcases step_next h with rfl | ⟨a, rest, -, -, ha⟩
  · exact hs
  · have hs' : Inv { s with host := rest } := ⟨hs.enc, hs.dec⟩
    cases a with
    | request r => exact exec_inv hs' ha
    | editIn u k b => exact ha ▸ hostEdit_inv hs' u k b
    | reset => exact ha ▸ blockReset_inv _

/-- Settles O45: the reset state is a constructed state (R25). -/
theorem invariantHoldsAtReset : Obligations.InvariantHoldsAtReset :=
  ⟨encInv_of_fresh ⟨rfl, rfl, rfl, rfl, rfl, rfl⟩, decInv_of_fresh ⟨rfl, rfl, rfl, rfl, rfl, rfl, rfl⟩⟩

/-- Settles O47: `FINALIZE` is a sequence of moves of `DEC`, each of which keeps the invariant under either policy (R116). -/
theorem decFinalizeKeepsTheInvariantUnderEitherPolicy : Obligations.DecFinalizeKeepsTheInvariantUnderEitherPolicy := by
  intro p s t hs h
  have ht : t.dec = (decFinalizeUnit p s.dec).2 := by cases h; rfl
  exact ht ▸ (decFinalizeUnit_moves p s.dec).keep decMove_inv hs

end Sys2Proof.Safety
end

section
/-! View registers of `POSW` bits (R22, R23, R40): a position moves only below its bound. -/

namespace Sys2Proof.Safety

open Sys2Proof.Machine

variable {posw : Nat}

/-- Both registers of an input view fit `POSW` bits (R22). -/
def InFits (posw : Nat) (v : InView) : Prop := v.len < 2 ^ posw ∧ v.pos < 2 ^ posw

/-- Both registers of an output view fit `POSW` bits (R23). -/
def OutFits (posw : Nat) (v : OutView) : Prop := v.cap < 2 ^ posw ∧ v.pos < 2 ^ posw

theorem positionsFit_iff {s : State} :
    PositionsFit posw s ↔
      (InFits posw s.enc.inp ∧ OutFits posw s.enc.out) ∧ InFits posw s.dec.inp ∧ OutFits posw s.dec.out := by
  simp only [PositionsFit, InFits, OutFits, and_assoc]

theorem inFits_pull {v : InView} (h : InFits posw v) (hb : v.hasByte = true) : InFits posw v.pull :=
  ⟨h.1, Nat.lt_of_le_of_lt (Nat.succ_le_of_lt (of_decide_eq_true hb)) h.1⟩

theorem outFits_drain {v : OutView} (h : OutFits posw v) (hr : v.hasRoom = true) (b : Byte) : OutFits posw (v.drain b) :=
  ⟨h.1, Nat.lt_of_le_of_lt (Nat.succ_le_of_lt (of_decide_eq_true hr)) h.1⟩

theorem inFits_edit {v : InView} (h : InFits posw v) (k : Nat) (b : Byte) : InFits posw (v.edit k b) := by
  unfold InView.edit
  split <;> exact h

theorem inFits_bindIn {v : ViewOperand} (h : v.fits posw = true) : InFits posw (bindIn v) :=
  ⟨of_decide_eq_true h, Nat.two_pow_pos posw⟩

theorem outFits_bindOut {v : ViewOperand} (h : v.fits posw = true) : OutFits posw (bindOut v) :=
  ⟨of_decide_eq_true h, Nat.two_pow_pos posw⟩

theorem inFits_empty : InFits posw InView.empty := ⟨Nat.two_pow_pos posw, Nat.two_pow_pos posw⟩

theorem outFits_empty : OutFits posw OutView.empty := ⟨Nat.two_pow_pos posw, Nat.two_pow_pos posw⟩

theorem encMove_fits {a b : Enc} (m : EncMove a b) (h : InFits posw a.inp ∧ OutFits posw a.out) :
    InFits posw b.inp ∧ OutFits posw b.out := by
  cases m with
  | drain _ hr =>
    rw [encDrainByte_inp, encDrainByte_out]
    exact ⟨h.1, outFits_drain h.2 hr _⟩
  | byte _ _ hb | lastByte _ _ hb => exact ⟨inFits_pull h.1 hb, h.2⟩
  | pad | finish => exact h

theorem decMove_fits {p : TailPolicy} {a b : Dec} (m : DecMove p a b) (h : InFits posw a.inp ∧ OutFits posw a.out) :
    InFits posw b.inp ∧ OutFits posw b.out := by
  cases m with
  | drain _ hr =>
    rw [decDrainByte_inp, decDrainByte_out]
    exact ⟨h.1, outFits_drain h.2 hr _⟩
  | byte _ _ hb | lastByte _ _ hb => exact ⟨inFits_pull h.1 hb, h.2⟩
  | pad | drop | finish => exact h

theorem encAfter_fits {i : Instr} (w : i.wellFormed posw = true) (k : Nat) {e : Enc}
    (h : InFits posw e.inp ∧ OutFits posw e.out) :
    InFits posw (encAfter i k e).inp ∧ OutFits posw (encAfter i k e).out := by
  cases i with
  | encInit => exact ⟨inFits_empty, outFits_empty⟩
  | encBind i o =>
    simp only [Instr.wellFormed, Bool.and_eq_true] at w
    exact ⟨inFits_bindIn w.1, outFits_bindOut w.2⟩
  | encRebindIn => exact ⟨inFits_bindIn w, h.2⟩
  | encRebindOut => exact ⟨h.1, outFits_bindOut w⟩
  | encEncode => exact (encEncodeUnit_moves e).keep encMove_fits h
  | encFinalize => exact (encFinalizeUnit_moves e).keep encMove_fits h
  | _ => exact h

theorem decAfter_fits {i : Instr} (w : i.wellFormed posw = true) (k : Nat) {d : Dec}
    (h : InFits posw d.inp ∧ OutFits posw d.out) :
    InFits posw (decAfter i k d).inp ∧ OutFits posw (decAfter i k d).out := by
  cases i with
  | decInit => exact ⟨inFits_empty, outFits_empty⟩
  | decBind i o =>
    simp only [Instr.wellFormed, Bool.and_eq_true] at w
    exact ⟨inFits_bindIn w.1, outFits_bindOut w.2⟩
  | decRebindIn => exact ⟨inFits_bindIn w, h.2⟩
  | decRebindOut => exact ⟨h.1, outFits_bindOut w⟩
  | decDecode => exact (decDecodeUnit_moves Config.decTailPolicy d).keep decMove_fits h
  | decFinalize => exact (decFinalizeUnit_moves _ d).keep decMove_fits h
  | _ => exact h

/-- Settles O48: R22, R23 and R40, by the cases of the host's next action. -/
theorem positionsNeverOverflow : Obligations.PositionsNeverOverflow := by
  intro posw s t hp hq h
  rcases step_next h with rfl | ⟨a, rest, hs, ht, ha⟩
  · exact ⟨hp, hq⟩
  · refine ⟨?_, fun r hr => hq r (hs ▸ List.mem_cons_of_mem a (ht ▸ hr))⟩
    obtain ⟨he, hd⟩ := positionsFit_iff.1 hp
    rw [positionsFit_iff]
    cases a with
    | request r =>
      obtain ⟨he', hd', -, -⟩ := exec_next ha
      have w := hq r (by simp [hs])
      exact ⟨he' ▸ encAfter_fits w s.free he, hd' ▸ decAfter_fits w s.free hd⟩
    | editIn u k b =>
      subst ha
      cases u with
      | enc => exact ⟨⟨inFits_edit he.1 k b, he.2⟩, hd⟩
      | dec => exact ⟨he, inFits_edit hd.1 k b, hd.2⟩
    | reset => subst ha; exact ⟨⟨inFits_empty, outFits_empty⟩, inFits_empty, outFits_empty⟩

end Sys2Proof.Safety
end

section
/-! The two events that change `FIN` (R13, R80, R95, R115). -/

namespace Sys2Proof.Machine

theorem encEncodeUnit_fin (e : Enc) : (encEncodeUnit e).2.fin = e.fin := by
  unfold encEncodeUnit
  split
  · rfl
  · exact (encRun_keeps e).fin

theorem encFinish_fin {e : Enc} (hf : e.fin = false) : (encFinish e).2.fin = true ↔ (encFinish e).1 = .finished := by
  unfold encFinish
  split <;> simp [hf]

theorem encFlush_fin {e : Enc} (hf : e.fin = false) : (encFlush e).2.fin = true ↔ (encFlush e).1 = .finished := by
  unfold encFlush
  split
  · exact encFinish_fin hf
  · exact encFinish_fin ((encDrain_keeps _).fin.trans hf)

theorem encFinalizeUnit_fin (e : Enc) :
    (encFinalizeUnit e).2.fin = true ↔ e.fin = true ∨ (encFinalizeUnit e).1 = .finished := by
  cases hf : e.fin with
  | true => simp [encFinalizeUnit_of_fin hf, hf]
  | false =>
    have hk : (encRun e).2.fin = false := (encRun_keeps e).fin.trans hf
    rcases encRun_stopped e with ⟨hr, -, -⟩ | ⟨hr, -, -⟩
    · simp [encFinalizeUnit_of_blocked hf hr, hk]
    · simp [encFinalizeUnit_of_consumed hf hr, encFlush_fin hk]

theorem decDecodeUnit_fin (d : Dec) : (decDecodeUnit d).2.fin = d.fin := by
  unfold decDecodeUnit
  split
  · rfl
  · exact (decRun_keeps d).fin

theorem decFinish_fin {d : Dec} (hf : d.fin = false) : (decFinish d).2.fin = true ↔ (decFinish d).1 = .finished := by
  unfold decFinish
  split <;> simp [hf]

theorem decDeliverTail_fin (n : Fin 8) (d : Dec) : (decDeliverTail n d).fin = d.fin := by
  unfold decDeliverTail
  split
  · rfl
  · exact (decDrain_keeps _).fin

theorem decFlush_fin (p : TailPolicy) {d : Dec} (hf : d.fin = false) :
    (decFlush p d).2.fin = true ↔ (decFlush p d).1 = .finished := by
  unfold decFlush
  split
  · exact decFinish_fin hf
  · exact decFinish_fin ((decDeliverTail_fin _ _).trans hf)

theorem decFinalizeUnit_fin (p : TailPolicy) (d : Dec) :
    (decFinalizeUnit p d).2.fin = true ↔ d.fin = true ∨ (decFinalizeUnit p d).1 = .finished := by
  cases hf : d.fin with
  | true => simp [decFinalizeUnit_of_fin p hf, hf]
  | false =>
    have hk : (decRun d).2.fin = false := (decRun_keeps d).fin.trans hf
    rcases decRun_stopped d with ⟨hr, -, -⟩ | ⟨hr, -, -⟩
    · simp [decFinalizeUnit_of_blocked p hf hr, hk]
    · simp [decFinalizeUnit_of_consumed p hf hr, decFlush_fin p hk]

theorem encAfter_fin (i : Instr) (k : Nat) (e : Enc) (d : Dec) :
    (encAfter i k e).fin = true ↔
      (e.fin = true ∧ i ≠ .encInit) ∨ (i = .encFinalize ∧ replyTo i e d = ⟨.finished, none⟩) := by
  cases i with
  | encEncode => simp [encAfter, encEncodeUnit_fin]
  | encFinalize => simp [encAfter, replyTo, encFinalizeUnit_fin]
  | _ => simp [encAfter]

theorem decAfter_fin (i : Instr) (k : Nat) (e : Enc) (d : Dec) :
    (decAfter i k d).fin = true ↔
      (d.fin = true ∧ i ≠ .decInit) ∨ (i = .decFinalize ∧ replyTo i e d = ⟨.finished, none⟩) := by
  cases i with
  | decDecode => simp [decAfter, decDecodeUnit_fin]
  | decFinalize => simp [decAfter, replyTo, decFinalizeUnit_fin]
  | _ => simp [decAfter]

/-- Settles O23: R13, by the cases of the command. -/
theorem finIsSetByFinishedAndClearedByInit : Obligations.FinIsSetByFinishedAndClearedByInit := by
  intro i s t h
  obtain ⟨he, hd, -, -⟩ := exec_next h
  rw [answered_iff h, he, hd]
  exact ⟨encAfter_fin i s.free s.enc s.dec, decAfter_fin i s.free s.enc s.dec⟩

end Sys2Proof.Machine
end

section
/-! What the host reads between commands (R24, R43, R163). -/

namespace Sys2Proof.Machine

/-- The bytes that the host sees, each as the space holds it (R43). -/
theorem observeViews_getElem (i : InView) (o : OutView) (k : Nat) (h : k < (observeViews i o).outBytes.length) :
    (observeViews i o).outBytes[k] = Memory.read o.space k := by
  simp

/-- The bytes written are those drained since the view was bound (R23). -/
theorem observeViews_written_eq_drained (i : InView) (o : OutView) (h : o.pos ≤ o.cap) :
    (observeViews i o).written = Safety.drained { o with pos := 0 } o := observeViews_written i o h

/-- Settles O57: R24, R43 and R163 of either unit, and R34 of a new output view. -/
theorem hostReadsThePositionsAndAllOfOut : Obligations.HostReadsThePositionsAndAllOfOut :=
  ⟨fun _ => ⟨rfl, rfl, rfl, rfl, Memory.length_slice _ _ _, observeViews_getElem _ _, observeViews_written_eq_drained _ _,
      rfl, rfl, rfl, rfl, Memory.length_slice _ _ _, observeViews_getElem _ _, observeViews_written_eq_drained _ _⟩,
    fun o _ => ⟨⟨_, rfl, observeViews_bindOut _ o, rfl⟩, ⟨_, rfl, observeViews_bindOut _ o, rfl⟩⟩⟩

end Sys2Proof.Machine
end

section
/-! The dead staging registers (R27): two units that agree on their live state go through the same run side by side, and whatever
is read of their staging registers is live. -/

namespace Sys2Proof.Safety

open Sys2Proof.Machine

/-- Two vectors have the same entries from `a` to `b - 1`. -/
theorem drop_take_toList_eq_iff {n a b : Nat} {v w : Vector Byte n} :
    (v.toList.take b).drop a = (w.toList.take b).drop a ↔ ∀ (i : Nat) (_ : i < n), a ≤ i → i < b → v[i] = w[i] := by
  constructor
  · intro h i hi ha hb
    have := congrArg (·[i - a]?) h
    simpa [List.getElem?_drop, List.getElem?_take, Nat.add_sub_cancel' ha, hb, hi] using this
  · intro h
    refine List.ext_getElem (by simp) fun j hj _ => ?_
    simp only [List.length_drop, List.length_take, Vector.length_toList] at hj
    simpa using h (a + j) (by omega) (by omega) (by omega)

/-! ### `ENC` -/

/-- The staging registers `rs` and `es` agree with those of `ENC` where these are live (R27). -/
structure EncLiveIn (e : Enc) (rs : RawBlock) (es : EncodedBlock) : Prop where
  staged : ∀ (i : Nat) (_ : i < 7), i < e.rcnt.val → e.rs[i] = rs[i]
  owed : e.pend = true → ∀ (i : Nat) (_ : i < 8), e.ecnt.val ≤ i → e.es[i] = es[i]

theorem encStaged_eq_iff {e : Enc} {rs : RawBlock} :
    encStaged e = rs.toList.take e.rcnt.val ↔ ∀ (i : Nat) (_ : i < 7), i < e.rcnt.val → e.rs[i] = rs[i] := by
  simpa [encStaged] using drop_take_toList_eq_iff (a := 0) (b := e.rcnt.val) (v := e.rs) (w := rs)

theorem drop_es_eq_iff {e : Enc} {es : EncodedBlock} :
    e.es.toList.drop e.ecnt.val = es.toList.drop e.ecnt.val ↔
      ∀ (i : Nat) (_ : i < 8), e.ecnt.val ≤ i → e.es[i] = es[i] := by
  have := drop_take_toList_eq_iff (a := e.ecnt.val) (b := 8) (v := e.es) (w := es)
  rw [List.take_of_length_le (by simp), List.take_of_length_le (by simp)] at this
  exact this.trans ⟨fun h i hi ha => h i hi ha hi, fun h i hi ha _ => h i hi ha⟩

/-- Alike are two Encoders that differ in dead staging registers only. -/
theorem encAlike_iff {e e' : Enc} :
    EncAlike e e' ↔ ∃ rs es, e' = { e with rs := rs, es := es } ∧ EncLiveIn e rs es := by
  constructor
  · obtain ⟨fin, pend, rcnt, ecnt, rs, es, inp, out⟩ := e
    obtain ⟨fin', pend', rcnt', ecnt', rs', es', inp', out'⟩ := e'
    rintro ⟨hpos, hs, ho, rfl, rfl⟩
    simp only [encPosition, Prod.mk.injEq] at hpos
    obtain ⟨rfl, rfl, rfl, rfl⟩ := hpos
    refine ⟨rs', es', rfl, encStaged_eq_iff.1 hs, fun hp => drop_es_eq_iff.1 ?_⟩
    subst hp
    exact ho
  · rintro ⟨rs, es, rfl, hs, ho⟩
    refine ⟨rfl, encStaged_eq_iff.2 hs, ?_, rfl, rfl⟩
    unfold encOwed
    split
    · exact drop_es_eq_iff.2 (ho ‹_›)
    · rfl

theorem EncLiveIn.alike {e : Enc} {rs : RawBlock} {es : EncodedBlock} (h : EncLiveIn e rs es) :
    EncAlike e { e with rs := rs, es := es } := encAlike_iff.2 ⟨rs, es, rfl, h⟩

/-- The same status, and units alike. -/
abbrev EncSameResult {α : Type} (r r' : α × Enc) : Prop := r.1 = r'.1 ∧ EncAlike r.2 r'.2

theorem encAlike_refl (e : Enc) : EncAlike e e := ⟨rfl, rfl, rfl, rfl, rfl⟩

section
variable {e e' : Enc} (h : EncAlike e e')
include h

theorem EncAlike.fin : e'.fin = e.fin := congrArg (·.1) h.1.symm
theorem EncAlike.pend : e'.pend = e.pend := congrArg (·.2.1) h.1.symm
theorem EncAlike.rcnt : e'.rcnt = e.rcnt := congrArg (·.2.2.1) h.1.symm
theorem EncAlike.hasByte : e'.inp.hasByte = e.inp.hasByte := congrArg InView.hasByte h.2.2.2.1.symm
theorem EncAlike.hasRoom : e'.out.hasRoom = e.out.hasRoom := congrArg OutView.hasRoom h.2.2.2.2.symm

end

/-- The byte drained is live. -/
theorem encDrainByte_alike {e e' : Enc} (hp : e.pend = true) (h : EncAlike e e') :
    EncAlike (encDrainByte e) (encDrainByte e') := by
  obtain ⟨rs, es, rfl, hl⟩ := encAlike_iff.1 h
  have hb : e.es[e.ecnt] = es[e.ecnt] := hl.owed hp e.ecnt.val e.ecnt.isLt le_rfl
  have he : encDrainByte { e with rs := rs, es := es } = { encDrainByte e with rs := rs, es := es } := by
    unfold encDrainByte
    rw [hb]
    split <;> rfl
  rw [he]
  refine EncLiveIn.alike ⟨by simpa using hl.staged, ?_⟩
  rcases encDrainByte_cases e with ⟨-, hd⟩ | ⟨hc, hd⟩
  · simp [hd]
  · rw [hd]
    intro _ i hi hle
    rw [Fin.val_add_one_of_lt (Fin.lt_last_iff_ne_last.2 hc)] at hle
    exact hl.owed hp i hi (by omega)

theorem encStageByte_alike {e e' : Enc} (hp : e.pend = false) (hc : e.rcnt ≠ 6) (h : EncAlike e e') :
    EncAlike { encStageByte e with rcnt := e.rcnt + 1 } { encStageByte e' with rcnt := e'.rcnt + 1 } := by
  obtain ⟨rs, es, rfl, hl⟩ := encAlike_iff.1 h
  refine EncLiveIn.alike (e := { encStageByte e with rcnt := e.rcnt + 1 }) (rs := rs.set e.rcnt.val e.inp.head)
    ⟨fun i hi hlt => ?_, fun hp' => by simp [hp] at hp'⟩
  simp only [Fin.val_add_one_of_lt (Fin.lt_last_iff_ne_last.2 hc)] at hlt
  simp only [encStageByte_rs, Vector.getElem_set]
  split
  · rfl
  · exact hl.staged i hi (by omega)

/-- The transform reads `RS` only, and overwrites `ES`. -/
theorem encTransform_congr {e : Enc} {rs rs' : RawBlock} {es es' : EncodedBlock} (h : rs = rs') :
    encTransform { e with rs := rs, es := es } = encTransform { e with rs := rs', es := es' } := by
  subst h; rfl

/-- With the seventh byte every register of `RS` is live. -/
theorem encTransform_stageByte_eq {e e' : Enc} (hc : e.rcnt = 6) (h : EncAlike e e') :
    encTransform (encStageByte e) = encTransform (encStageByte e') := by
  obtain ⟨rs, es, rfl, hl⟩ := encAlike_iff.1 h
  refine encTransform_congr (e := { e with inp := e.inp.pull }) (Vector.ext fun i hi => ?_)
  simp only [Vector.getElem_set]
  split
  · rfl
  · exact hl.staged i hi (by simp only [hc] at *; omega)

theorem getElem_padRaw (k : Nat) (r : RawBlock) (i : Nat) (h : i < 7) :
    (padRaw k r)[i] = if k ≤ i then 0 else r[i] := by
  interval_cases i <;> rfl

/-- Padding overwrites every register of `RS` that is not live. -/
theorem encTransform_padRaw_eq {e e' : Enc} (h : EncAlike e e') :
    encTransform { e with rs := padRaw e.rcnt.val e.rs } = encTransform { e' with rs := padRaw e'.rcnt.val e'.rs } := by
  obtain ⟨rs, es, rfl, hl⟩ := encAlike_iff.1 h
  refine encTransform_congr (Vector.ext fun i hi => ?_)
  simp only [getElem_padRaw]
  split
  · rfl
  · exact hl.staged i hi (by omega)

theorem encRun_alike (e : Enc) :
    ∀ e', EncAlike e e' → EncSameResult (encRun e) (encRun e') := by
  refine encRun_induct (P := fun e r => ∀ e', EncAlike e e' → EncSameResult r (encRun e'))
    ?drain ?noRoom ?byte ?lastByte ?noByte e
  case drain =>
    intro e r hp hr ih e' h
    rw [encRun_of_room (h.pend.trans hp) (h.hasRoom.trans hr)]
    exact ih _ (encDrainByte_alike hp h)
  case noRoom =>
    intro e hp hr e' h
    rw [encRun_of_no_room (h.pend.trans hp) (h.hasRoom.trans hr)]
    exact ⟨rfl, h⟩
  case byte =>
    intro e r hp hb hc ih e' h
    rw [encRun_of_byte (h.pend.trans hp) (h.hasByte.trans hb) (h.rcnt ▸ hc)]
    exact ih _ (encStageByte_alike hp hc h)
  case lastByte =>
    intro e r hp hb hc ih e' h
    rw [encRun_of_last_byte (h.pend.trans hp) (h.hasByte.trans hb) (h.rcnt.trans hc)]
    exact ih _ (encTransform_stageByte_eq hc h ▸ encAlike_refl _)
  case noByte =>
    intro e hp hb e' h
    rw [encRun_of_no_byte (h.pend.trans hp) (h.hasByte.trans hb)]
    exact ⟨rfl, h⟩

theorem encFinish_alike {e e' : Enc} (h : EncAlike e e') :
    EncSameResult (encFinish e) (encFinish e') := by
  obtain ⟨_, _, rfl, hl⟩ := encAlike_iff.1 h
  unfold encFinish
  split
  · exact ⟨rfl, h⟩
  · exact ⟨rfl, EncLiveIn.alike (e := { e with fin := true }) ⟨hl.staged, hl.owed⟩⟩

theorem encFlush_alike {e e' : Enc} (h : EncAlike e e') :
    EncSameResult (encFlush e) (encFlush e') := by
  have ht := encTransform_padRaw_eq h
  obtain ⟨_, _, rfl, -⟩ := encAlike_iff.1 h
  unfold encFlush
  split
  · exact encFinish_alike h
  · rw [ht]
    exact ⟨rfl, encAlike_refl _⟩

theorem encEncodeUnit_alike {e e' : Enc} (h : EncAlike e e') :
    EncSameResult (encEncodeUnit e) (encEncodeUnit e') := by
  obtain ⟨hr, ha⟩ := encRun_alike e e' h
  unfold encEncodeUnit
  rw [h.fin]
  split
  · exact ⟨rfl, h⟩
  · exact ⟨congrArg runRsp hr, ha⟩

theorem encFinalizeUnit_alike {e e' : Enc} (h : EncAlike e e') :
    EncSameResult (encFinalizeUnit e) (encFinalizeUnit e') := by
  obtain ⟨hr, ha⟩ := encRun_alike e e' h
  cases hf : e.fin with
  | true =>
    rw [encFinalizeUnit_of_fin hf, encFinalizeUnit_of_fin (h.fin.trans hf)]
    exact ⟨rfl, h⟩
  | false =>
    have hf' := h.fin.trans hf
    rcases encRun_stopped e with ⟨he, -, -⟩ | ⟨he, -, -⟩
    · rw [encFinalizeUnit_of_blocked hf he, encFinalizeUnit_of_blocked hf' (hr.symm.trans he)]
      exact ⟨rfl, ha⟩
    · rw [encFinalizeUnit_of_consumed hf he, encFinalizeUnit_of_consumed hf' (hr.symm.trans he)]
      exact encFlush_alike ha

/-- The free values that `INIT` leaves are dead. -/
theorem encAfter_alike (i : Instr) (k k' : Nat) {e e' : Enc} (h : EncAlike e e') :
    EncAlike (encAfter i k e) (encAfter i k' e') := by
  obtain ⟨hpos, hs, ho, hi, hout⟩ := id h
  cases i with
  | encInit => exact ⟨rfl, rfl, rfl, rfl, rfl⟩
  | encBind => exact ⟨hpos, hs, ho, rfl, rfl⟩
  | encRebindIn => exact ⟨hpos, hs, ho, rfl, hout⟩
  | encRebindOut => exact ⟨hpos, hs, ho, hi, rfl⟩
  | encEncode => exact (encEncodeUnit_alike h).2
  | encFinalize => exact (encFinalizeUnit_alike h).2
  | _ => exact h

/-! ### `DEC` -/

/-- The staging registers `rs` and `es` agree with those of `DEC` where these are live (R27). -/
structure DecLiveIn (d : Dec) (rs : RawBlock) (es : EncodedBlock) : Prop where
  staged : ∀ (i : Nat) (_ : i < 8), i < d.ecnt.val → d.es[i] = es[i]
  owed : d.pend = true → ∀ (i : Nat) (_ : i < 7), d.rcnt.val ≤ i → i < d.rlim.val → d.rs[i] = rs[i]

theorem decStaged_eq_iff {d : Dec} {es : EncodedBlock} :
    decStaged d = es.toList.take d.ecnt.val ↔ ∀ (i : Nat) (_ : i < 8), i < d.ecnt.val → d.es[i] = es[i] := by
  simpa [decStaged] using drop_take_toList_eq_iff (a := 0) (b := d.ecnt.val) (v := d.es) (w := es)

/-- Alike are two Decoders that differ in dead staging registers only. -/
theorem decAlike_iff {d d' : Dec} :
    DecAlike d d' ↔ ∃ rs es, d' = { d with rs := rs, es := es } ∧ DecLiveIn d rs es := by
  constructor
  · obtain ⟨fin, pend, rcnt, ecnt, rlim, rs, es, inp, out⟩ := d
    obtain ⟨fin', pend', rcnt', ecnt', rlim', rs', es', inp', out'⟩ := d'
    rintro ⟨hpos, rfl, hs, ho, rfl, rfl⟩
    simp only [decPosition, Prod.mk.injEq] at hpos
    obtain ⟨rfl, rfl, rfl, rfl⟩ := hpos
    refine ⟨rs', es', rfl, decStaged_eq_iff.1 hs, fun hp => drop_take_toList_eq_iff.1 ?_⟩
    subst hp
    exact ho
  · rintro ⟨rs, es, rfl, hs, ho⟩
    refine ⟨rfl, rfl, decStaged_eq_iff.2 hs, ?_, rfl, rfl⟩
    unfold decOwed
    split
    · exact drop_take_toList_eq_iff.2 (ho ‹_›)
    · rfl

theorem DecLiveIn.alike {d : Dec} {rs : RawBlock} {es : EncodedBlock} (h : DecLiveIn d rs es) :
    DecAlike d { d with rs := rs, es := es } := decAlike_iff.2 ⟨rs, es, rfl, h⟩

/-- The same status, and units alike. -/
abbrev DecSameResult {α : Type} (r r' : α × Dec) : Prop := r.1 = r'.1 ∧ DecAlike r.2 r'.2

theorem decAlike_refl (d : Dec) : DecAlike d d := ⟨rfl, rfl, rfl, rfl, rfl, rfl⟩

section
variable {d d' : Dec} (h : DecAlike d d')
include h

theorem DecAlike.fin : d'.fin = d.fin := congrArg (·.1) h.1.symm
theorem DecAlike.pend : d'.pend = d.pend := congrArg (·.2.1) h.1.symm
theorem DecAlike.ecnt : d'.ecnt = d.ecnt := congrArg (·.2.2.2) h.1.symm
theorem DecAlike.hasByte : d'.inp.hasByte = d.inp.hasByte := congrArg InView.hasByte h.2.2.2.2.1.symm
theorem DecAlike.hasRoom : d'.out.hasRoom = d.out.hasRoom := congrArg OutView.hasRoom h.2.2.2.2.2.symm

end

/-- The byte drained is live, as long as a byte is owed (R19(d)). -/
theorem decDrainByte_alike {d d' : Dec} (hp : d.pend = true) (hl : d.rcnt.val < d.rlim.val) (h : DecAlike d d') :
    DecAlike (decDrainByte d) (decDrainByte d') := by
  obtain ⟨rs, es, rfl, hv⟩ := decAlike_iff.1 h
  have hb : d.rs[d.rcnt] = rs[d.rcnt] := hv.owed hp d.rcnt.val d.rcnt.isLt le_rfl hl
  have hd : decDrainByte { d with rs := rs, es := es } = { decDrainByte d with rs := rs, es := es } := by
    unfold decDrainByte
    rw [hb]
    split <;> rfl
  rw [hd]
  refine DecLiveIn.alike ⟨by simpa using hv.staged, ?_⟩
  rcases decDrainByte_cases d with ⟨-, hc⟩ | ⟨hn, hc⟩
  · simp [hc]
  · rw [hc]
    intro _ i hi hle
    rw [Fin.val_add_one_of_lt (by simp only [Fin.lt_def, Fin.val_last]; omega)] at hle
    exact hv.owed hp i hi (by omega)

theorem decStageByte_alike {d d' : Dec} (hp : d.pend = false) (hc : d.ecnt ≠ 7) (h : DecAlike d d') :
    DecAlike { decStageByte d with ecnt := d.ecnt + 1 } { decStageByte d' with ecnt := d'.ecnt + 1 } := by
  obtain ⟨rs, es, rfl, hv⟩ := decAlike_iff.1 h
  refine DecLiveIn.alike (d := { decStageByte d with ecnt := d.ecnt + 1 }) (es := es.set d.ecnt.val d.inp.head)
    ⟨fun i hi hlt => ?_, fun hp' => by simp [hp] at hp'⟩
  simp only [Fin.val_add_one_of_lt (Fin.lt_last_iff_ne_last.2 hc)] at hlt
  simp only [decStageByte_es, Vector.getElem_set]
  split
  · rfl
  · exact hv.staged i hi (by omega)

/-- The transform reads `ES` only, and overwrites `RS`. -/
theorem decTransform_congr {n : Fin 8} {d : Dec} {rs rs' : RawBlock} {es es' : EncodedBlock} (h : es = es') :
    decTransform n { d with rs := rs, es := es } = decTransform n { d with rs := rs', es := es' } := by
  subst h; rfl

/-- With the eighth byte every register of `ES` is live. -/
theorem decTransform_stageByte_eq {d d' : Dec} (hc : d.ecnt = 7) (h : DecAlike d d') :
    decTransform 7 (decStageByte d) = decTransform 7 (decStageByte d') := by
  obtain ⟨rs, es, rfl, hv⟩ := decAlike_iff.1 h
  refine decTransform_congr (d := { d with inp := d.inp.pull }) (Vector.ext fun i hi => ?_)
  simp only [Vector.getElem_set]
  split
  · rfl
  · exact hv.staged i hi (by simp only [hc] at *; omega)

theorem getElem_padEncoded (k : Nat) (e : EncodedBlock) (i : Nat) (h : i < 8) :
    (padEncoded k e)[i] = if k ≤ i then 0 else e[i] := by
  interval_cases i <;> rfl

/-- Padding overwrites every register of `ES` that is not live. -/
theorem padEncoded_eq {d : Dec} {rs : RawBlock} {es : EncodedBlock} (h : DecLiveIn d rs es) :
    padEncoded d.ecnt.val d.es = padEncoded d.ecnt.val es := by
  refine Vector.ext fun i hi => ?_
  simp only [getElem_padEncoded]
  split
  · rfl
  · exact h.staged i hi (by omega)

theorem decRun_alike {p : TailPolicy} (d : Dec) :
    DecInv p d → d.fin = false → ∀ d', DecAlike d d' → DecSameResult (decRun d) (decRun d') := by
  refine decRun_induct
    (P := fun d r => DecInv p d → d.fin = false → ∀ d', DecAlike d d' → DecSameResult r (decRun d'))
    ?drain ?noRoom ?byte ?lastByte ?noByte d
  case drain =>
    intro d r hp hr ih hv hf d' h
    rw [decRun_of_room (h.pend.trans hp) (h.hasRoom.trans hr)]
    exact ih (hv.drainByte hp hr) ((decDrainByte_fin d).trans hf) _ (decDrainByte_alike hp (hv.pendingOwes hp) h)
  case noRoom =>
    intro d hp hr _ _ d' h
    rw [decRun_of_no_room (h.pend.trans hp) (h.hasRoom.trans hr)]
    exact ⟨rfl, h⟩
  case byte =>
    intro d r hp hb hc ih hv hf d' h
    rw [decRun_of_byte (h.pend.trans hp) (h.hasByte.trans hb) (h.ecnt ▸ hc)]
    exact ih (decMove_inv (.byte hf hp hb hc) hv) hf _ (decStageByte_alike hp hc h)
  case lastByte =>
    intro d r hp hb hc ih hv hf d' h
    rw [decRun_of_last_byte (h.pend.trans hp) (h.hasByte.trans hb) (h.ecnt.trans hc)]
    exact ih (decMove_inv (.lastByte hf hp hb hc) hv) hf _ (decTransform_stageByte_eq hc h ▸ decAlike_refl _)
  case noByte =>
    intro d hp hb _ _ d' h
    rw [decRun_of_no_byte (h.pend.trans hp) (h.hasByte.trans hb)]
    exact ⟨rfl, h⟩

theorem decFinish_alike {d d' : Dec} (h : DecAlike d d') :
    DecSameResult (decFinish d) (decFinish d') := by
  obtain ⟨_, _, rfl, hv⟩ := decAlike_iff.1 h
  unfold decFinish
  split
  · exact ⟨rfl, h⟩
  · exact ⟨rfl, DecLiveIn.alike (d := { d with fin := true }) ⟨hv.staged, hv.owed⟩⟩

theorem decFlush_alike (p : TailPolicy) {d d' : Dec} (h : DecAlike d d') :
    DecSameResult (decFlush p d) (decFlush p d') := by
  obtain ⟨rs, es, rfl, hv⟩ := decAlike_iff.1 h
  unfold decFlush
  split
  · exact decFinish_alike h
  · rw [← padEncoded_eq hv]
    unfold decDeliverTail
    split
    · exact decFinish_alike (DecLiveIn.alike (d := { d with es := padEncoded d.ecnt.val d.es, ecnt := 0 })
        ⟨fun _ _ hlt => by simp at hlt, hv.owed⟩)
    · exact ⟨rfl, decAlike_refl _⟩

theorem decDecodeUnit_alike {p : TailPolicy} {d d' : Dec} (hi : DecInv p d) (h : DecAlike d d') :
    DecSameResult (decDecodeUnit d) (decDecodeUnit d') := by
  unfold decDecodeUnit
  rw [h.fin]
  split
  · exact ⟨rfl, h⟩
  · obtain ⟨hr, ha⟩ := decRun_alike d hi (Bool.eq_false_iff.2 ‹_›) d' h
    exact ⟨congrArg runRsp hr, ha⟩

theorem decFinalizeUnit_alike {p : TailPolicy} {d d' : Dec} (hi : DecInv p d) (h : DecAlike d d') :
    DecSameResult (decFinalizeUnit p d) (decFinalizeUnit p d') := by
  cases hf : d.fin with
  | true =>
    rw [decFinalizeUnit_of_fin p hf, decFinalizeUnit_of_fin p (h.fin.trans hf)]
    exact ⟨rfl, h⟩
  | false =>
    have hf' := h.fin.trans hf
    obtain ⟨hr, ha⟩ := decRun_alike d hi hf d' h
    rcases decRun_stopped d with ⟨he, -, -⟩ | ⟨he, -, -⟩
    · rw [decFinalizeUnit_of_blocked p hf he, decFinalizeUnit_of_blocked p hf' (hr.symm.trans he)]
      exact ⟨rfl, ha⟩
    · rw [decFinalizeUnit_of_consumed p hf he, decFinalizeUnit_of_consumed p hf' (hr.symm.trans he)]
      exact decFlush_alike p ha

/-- The free values that `INIT` leaves are dead. -/
theorem decAfter_alike (i : Instr) (k k' : Nat) {d d' : Dec} (hv : DecInv Config.decTailPolicy d)
    (h : DecAlike d d') : DecAlike (decAfter i k d) (decAfter i k' d') := by
  obtain ⟨hpos, hl, hs, ho, hi, hout⟩ := id h
  cases i with
  | decInit => exact ⟨rfl, rfl, rfl, rfl, rfl, rfl⟩
  | decBind => exact ⟨hpos, hl, hs, ho, rfl, rfl⟩
  | decRebindIn => exact ⟨hpos, hl, hs, ho, rfl, hout⟩
  | decRebindOut => exact ⟨hpos, hl, hs, ho, hi, rfl⟩
  | decDecode => exact (decDecodeUnit_alike hv h).2
  | decFinalize => exact (decFinalizeUnit_alike hv h).2
  | _ => exact h

/-! ### The machine -/

theorem replyTo_alike (i : Instr) {e e' : Enc} {d d' : Dec} (hv : DecInv Config.decTailPolicy d) (he : EncAlike e e')
    (hd : DecAlike d d') : replyTo i e d = replyTo i e' d' := by
  cases i with
  | encEncode => exact congrArg (Reply.mk · none) (encEncodeUnit_alike he).1
  | encFinalize => exact congrArg (Reply.mk · none) (encFinalizeUnit_alike he).1
  | decDecode => exact congrArg (Reply.mk · none) (decDecodeUnit_alike hv hd).1
  | decFinalize => exact congrArg (Reply.mk · none) (decFinalizeUnit_alike hv hd).1
  | _ => rfl

/-- What the host reads of a unit is live (R24). -/
theorem observe_alike {s s' : State} (he : EncAlike s.enc s'.enc) (hd : DecAlike s.dec s'.dec) (u : UnitSel) :
    observe u s = observe u s' := by
  obtain ⟨-, -, -, hi, ho⟩ := he
  obtain ⟨-, -, -, -, hi', ho'⟩ := hd
  cases u with
  | enc => exact congrArg₂ observeViews hi ho
  | dec => exact congrArg₂ observeViews hi' ho'

/-- Settles O50: R27 and R24, both units and the answer being alike after every command. -/
theorem deadStagingRegistersAreNeverRead : Obligations.DeadStagingRegistersAreNeverRead := by
  intro i s s' t t' hs _ he hd hr h h'
  obtain ⟨hte, htd, -, htr⟩ := exec_next h
  obtain ⟨hte', htd', -, htr'⟩ := exec_next h'
  have he' : EncAlike t.enc t'.enc := hte ▸ hte' ▸ encAfter_alike i s.free s'.free he
  have hd' : DecAlike t.dec t'.dec := htd ▸ htd' ▸ decAfter_alike i s.free s'.free hs.dec hd
  exact ⟨he', hd', by rw [htr, htr', hr, replyTo_alike i hs.dec he hd], observe_alike he' hd'⟩

end Sys2Proof.Safety
end

section
/-! The view spaces (spec 20_memory.md): `Pull` and `Drain` (R33, R34), and an edit of the host between commands (R43). -/

namespace Sys2Proof.Machine

/-! ### `Pull` and `Drain` -/

theorem pulledOnly_pull (v : InView) : Safety.PulledOnly v v.pull := ⟨rfl, rfl⟩

theorem drainedOnly_drain (v : OutView) (b : Byte) : Safety.DrainedOnly v (v.drain b) :=
  ⟨rfl, fun _ hk => Memory.read_write_other v.space b (by rw [drain_pos] at hk; omega)⟩

/-- Settles O4: R33 and R34, from the laws of a view space. -/
theorem pullAndDrainMoveOneByte : Obligations.PullAndDrainMoveOneByte :=
  ⟨fun v => ⟨rfl, rfl, pulledOnly_pull v⟩,
    fun v b => ⟨Memory.read_write_same v.space v.pos b, rfl, drainedOnly_drain v b⟩⟩

/-! ### An edited input view -/

theorem edit_of_lt {v : InView} {k : Nat} (h : k < v.len) (b : Byte) :
    v.edit k b = { v with space := Memory.write v.space k b } := if_pos h

section
variable (v : InView) (k : Nat) (b : Byte)

@[simp] theorem edit_len : (v.edit k b).len = v.len := by unfold InView.edit; split <;> rfl
@[simp] theorem edit_pos : (v.edit k b).pos = v.pos := by unfold InView.edit; split <;> rfl
@[simp] theorem edit_avail : (v.edit k b).avail = v.avail := by simp [InView.avail]
@[simp] theorem edit_hasByte : (v.edit k b).hasByte = v.hasByte := by simp [InView.hasByte]
theorem edit_pull : (v.edit k b).pull = v.pull.edit k b := by unfold InView.edit InView.pull; split <;> rfl

/-- Every byte of the view but the edited one reads as before. -/
theorem read_edit {j : Nat} (hj : j < v.len) :
    Memory.read (v.edit k b).space j = if j = k then b else Memory.read v.space j := by
  by_cases hk : k < v.len
  · rw [edit_of_lt hk]
    exact Memory.read_write v.space k j b
  · rw [InView.edit, if_neg hk, if_neg (by omega)]

end

/-- The next byte to be pulled is not the edited one, if that one is below `IN_POS`. -/
theorem edit_head {v : InView} {k : Nat} (b : Byte) (h : k < v.pos) : (v.edit k b).head = v.head := by
  unfold InView.head InView.edit
  split
  · exact Memory.read_write_other v.space b (Nat.ne_of_gt h)
  · rfl

theorem slice_write (m : Memory) {p k : Nat} (n : Nat) (b : Byte) (h : p ≤ k) :
    Memory.slice (Memory.write m k b) p n = (Memory.slice m p n).set (k - p) b := by
  refine List.ext_getElem (by simp) fun i _ _ => ?_
  rw [Memory.getElem_slice, Memory.read_write, List.getElem_set, Memory.getElem_slice]
  exact if_congr (by omega) rfl rfl

/-- An edit at or above `IN_POS` changes the one unread byte. -/
theorem unread_edit {v : InView} {k : Nat} (b : Byte) (hp : v.pos ≤ k) (hk : k < v.len) :
    Safety.unread (v.edit k b) = (Safety.unread v).set (k - v.pos) b := by
  rw [edit_of_lt hk]
  exact slice_write v.space v.avail b hp

/-! ### The steps that are no command -/

section
variable {s : State} {rest : List HostAct}

theorem step_of_idle (h : s.host = []) : step s = .next s := by simp only [step, h]

theorem step_of_editIn {u : UnitSel} {k : Nat} {b : Byte} (h : s.host = .editIn u k b :: rest) :
    step s = .next (hostEdit u k b { s with host := rest }) := by simp only [step, h]

theorem step_of_reset (h : s.host = .reset :: rest) : step s = .next (blockReset { s with host := rest }) := by
  simp only [step, h]

end

theorem blockReset_fresh (s : State) : Safety.FreshEnc (blockReset s).enc ∧ Safety.FreshDec (blockReset s).dec :=
  ⟨⟨rfl, rfl, rfl, rfl, rfl, rfl⟩, rfl, rfl, rfl, rfl, rfl, rfl, rfl⟩

/-- Settles O5: R140, R43 and R150, by the cases of the host's next action. -/
theorem stepsBetweenCommands : Obligations.StepsBetweenCommands := by
  refine ⟨fun _ => step_of_idle, fun s k b rest h => ?_, fun s k b rest h => ?_, fun s rest h => ?_⟩
  · exact ⟨_, step_of_editIn h, rfl, edit_len _ _ _, edit_pos _ _ _, fun _ => read_edit s.enc.inp k b⟩
  · exact ⟨_, step_of_editIn h, rfl, edit_len _ _ _, edit_pos _ _ _, fun _ => read_edit s.dec.inp k b⟩
  · obtain ⟨he, hd⟩ := blockReset_fresh { s with host := rest }
    exact ⟨_, step_of_reset h, he, hd, rfl, rfl⟩

end Sys2Proof.Machine
end

section
/-! An edit below `IN_POS` is never seen (R43): it commutes with every part of a run and of `FINALIZE`, because only `Pull` reads
the input space, and it reads at `IN_POS`. -/

namespace Sys2Proof.Machine

section
variable {k : Nat} (b : Byte)

/-! ### `ENC` -/

/-- `ENC` after an edit of its input view. -/
def encEdit (k : Nat) (b : Byte) (e : Enc) : Enc := { e with inp := e.inp.edit k b }

theorem hostEdit_enc (s : State) : (hostEdit .enc k b s).enc = encEdit k b s.enc := rfl

theorem encDrainByte_edit (e : Enc) : encDrainByte (encEdit k b e) = encEdit k b (encDrainByte e) := by
  unfold encDrainByte
  rw [apply_ite (encEdit k b)]
  rfl

theorem encDrainLoop_edit (n : Nat) (e : Enc) : encDrainLoop n (encEdit k b e) = encEdit k b (encDrainLoop n e) := by
  induction n generalizing e with
  | zero => rfl
  | succ n ih =>
    rw [encDrainLoop, encDrainByte_edit, ih]
    exact (apply_ite (encEdit k b) _ _ _).symm

theorem encDrain_edit (e : Enc) : encDrain (encEdit k b e) = encEdit k b (encDrain e) := encDrainLoop_edit b _ e

/-- The one place where an input byte is read. -/
theorem encStageByte_edit {e : Enc} (h : k < e.inp.pos) :
    encStageByte (encEdit k b e) = encEdit k b (encStageByte e) := by
  simp [encStageByte, encEdit, edit_head b h, edit_pull]

theorem encRun_edit (e : Enc) :
    k < e.inp.pos → encRun (encEdit k b e) = Prod.map id (encEdit k b) (encRun e) := by
  refine encRun_induct (P := fun e r => k < e.inp.pos → encRun (encEdit k b e) = Prod.map id (encEdit k b) r)
    ?drain ?noRoom ?byte ?lastByte ?noByte e
  case drain =>
    intro e r hp hr ih h
    rw [encRun_of_room (e := encEdit k b e) hp hr, encDrainByte_edit]
    exact ih (by rwa [encDrainByte_inp])
  case noRoom =>
    intro e hp hr _
    exact encRun_of_no_room (e := encEdit k b e) hp hr
  case byte =>
    intro e r hp hb hc ih h
    rw [encRun_of_byte (e := encEdit k b e) hp ((edit_hasByte _ _ _).trans hb) hc, encStageByte_edit b h]
    exact ih (Nat.lt_succ_of_lt h)
  case lastByte =>
    intro e r hp hb hc ih h
    rw [encRun_of_last_byte (e := encEdit k b e) hp ((edit_hasByte _ _ _).trans hb) hc, encStageByte_edit b h]
    exact ih (Nat.lt_succ_of_lt h)
  case noByte =>
    intro e hp hb _
    exact encRun_of_no_byte (e := encEdit k b e) hp ((edit_hasByte _ _ _).trans hb)

theorem encFinish_edit (e : Enc) : encFinish (encEdit k b e) = Prod.map id (encEdit k b) (encFinish e) := by
  unfold encFinish
  rw [apply_ite (Prod.map id (encEdit k b))]
  rfl

theorem encFlush_edit (e : Enc) : encFlush (encEdit k b e) = Prod.map id (encEdit k b) (encFlush e) := by
  calc encFlush (encEdit k b e)
    _ = if e.rcnt = 0 then encFinish (encEdit k b e)
        else encFinish (encDrain (encEdit k b (encTransform { e with rs := padRaw e.rcnt.val e.rs }))) := rfl
    _ = Prod.map id (encEdit k b) (encFlush e) := by
      rw [encDrain_edit, encFinish_edit, encFinish_edit]
      exact (apply_ite (Prod.map id (encEdit k b)) (e.rcnt = 0) _ _).symm

theorem encEncodeUnit_edit {e : Enc} (h : k < e.inp.pos) :
    encEncodeUnit (encEdit k b e) = Prod.map id (encEdit k b) (encEncodeUnit e) := by
  unfold encEncodeUnit
  rw [encRun_edit b e h, apply_ite (Prod.map id (encEdit k b))]
  rfl

theorem encFinalizeUnit_edit {e : Enc} (h : k < e.inp.pos) :
    encFinalizeUnit (encEdit k b e) = Prod.map id (encEdit k b) (encFinalizeUnit e) := by
  have hrun := encRun_edit b e h
  cases hf : e.fin with
  | true =>
    rw [encFinalizeUnit_of_fin hf]
    exact encFinalizeUnit_of_fin (e := encEdit k b e) hf
  | false =>
    rcases encRun_stopped e with ⟨hr, -, -⟩ | ⟨hr, -, -⟩
    · rw [encFinalizeUnit_of_blocked hf hr, encFinalizeUnit_of_blocked (e := encEdit k b e) hf (hrun ▸ hr), hrun]
      rfl
    · rw [encFinalizeUnit_of_consumed hf hr, encFinalizeUnit_of_consumed (e := encEdit k b e) hf (hrun ▸ hr), hrun]
      exact encFlush_edit b _

/-- What the two commands that read `IN` leave and answer. -/
theorem encAfter_edit {i : Instr} (hi : i = .encEncode ∨ i = .encFinalize) {e : Enc} (h : k < e.inp.pos) (n : Nat)
    (d : Dec) :
    encAfter i n (encEdit k b e) = encEdit k b (encAfter i n e) ∧ replyTo i (encEdit k b e) d = replyTo i e d := by
  rcases hi with rfl | rfl
  · have hu := encEncodeUnit_edit b h
    exact ⟨congrArg (·.2) hu, congrArg (Reply.mk ·.1 none) hu⟩
  · have hu := encFinalizeUnit_edit b h
    exact ⟨congrArg (·.2) hu, congrArg (Reply.mk ·.1 none) hu⟩

theorem exec_encEdit {i : Instr} (hi : i = .encEncode ∨ i = .encFinalize) {s t t' : State} (hk : k < s.enc.inp.pos)
    (h : exec i s = .next t) (h' : exec i (hostEdit .enc k b s) = .next t') :
    t'.replies = t.replies ∧ t'.enc = encEdit k b t.enc := by
  obtain ⟨hte, -, -, htr⟩ := exec_next h
  obtain ⟨hte', -, -, htr'⟩ := exec_next h'
  obtain ⟨ha, hr⟩ := encAfter_edit b hi hk s.free s.dec
  rw [hostEdit_enc] at hte' htr'
  exact ⟨by rw [htr, ← hr]; exact htr', by rw [hte, ← ha]; exact hte'⟩

/-! ### `DEC` -/

/-- `DEC` after an edit of its input view. -/
def decEdit (k : Nat) (b : Byte) (d : Dec) : Dec := { d with inp := d.inp.edit k b }

theorem hostEdit_dec (s : State) : (hostEdit .dec k b s).dec = decEdit k b s.dec := rfl

theorem decDrainByte_edit (d : Dec) : decDrainByte (decEdit k b d) = decEdit k b (decDrainByte d) := by
  unfold decDrainByte
  rw [apply_ite (decEdit k b)]
  rfl

theorem decDrainLoop_edit (n : Nat) (d : Dec) : decDrainLoop n (decEdit k b d) = decEdit k b (decDrainLoop n d) := by
  induction n generalizing d with
  | zero => rfl
  | succ n ih =>
    rw [decDrainLoop, decDrainByte_edit, ih]
    exact (apply_ite (decEdit k b) _ _ _).symm

theorem decDrain_edit (d : Dec) : decDrain (decEdit k b d) = decEdit k b (decDrain d) := decDrainLoop_edit b _ d

/-- The one place where an input byte is read. -/
theorem decStageByte_edit {d : Dec} (h : k < d.inp.pos) :
    decStageByte (decEdit k b d) = decEdit k b (decStageByte d) := by
  simp [decStageByte, decEdit, edit_head b h, edit_pull]

theorem decRun_edit (d : Dec) :
    k < d.inp.pos → decRun (decEdit k b d) = Prod.map id (decEdit k b) (decRun d) := by
  refine decRun_induct (P := fun d r => k < d.inp.pos → decRun (decEdit k b d) = Prod.map id (decEdit k b) r)
    ?drain ?noRoom ?byte ?lastByte ?noByte d
  case drain =>
    intro d r hp hr ih h
    rw [decRun_of_room (d := decEdit k b d) hp hr, decDrainByte_edit]
    exact ih (by rwa [decDrainByte_inp])
  case noRoom =>
    intro d hp hr _
    exact decRun_of_no_room (d := decEdit k b d) hp hr
  case byte =>
    intro d r hp hb hc ih h
    rw [decRun_of_byte (d := decEdit k b d) hp ((edit_hasByte _ _ _).trans hb) hc, decStageByte_edit b h]
    exact ih (Nat.lt_succ_of_lt h)
  case lastByte =>
    intro d r hp hb hc ih h
    rw [decRun_of_last_byte (d := decEdit k b d) hp ((edit_hasByte _ _ _).trans hb) hc, decStageByte_edit b h]
    exact ih (Nat.lt_succ_of_lt h)
  case noByte =>
    intro d hp hb _
    exact decRun_of_no_byte (d := decEdit k b d) hp ((edit_hasByte _ _ _).trans hb)

theorem decFinish_edit (d : Dec) : decFinish (decEdit k b d) = Prod.map id (decEdit k b) (decFinish d) := by
  unfold decFinish
  rw [apply_ite (Prod.map id (decEdit k b))]
  rfl

theorem decDeliverTail_edit (n : Fin 8) (d : Dec) :
    decDeliverTail n (decEdit k b d) = decEdit k b (decDeliverTail n d) := by
  calc decDeliverTail n (decEdit k b d)
    _ = if n = 0 then decEdit k b { d with ecnt := 0 } else decDrain (decEdit k b (decTransform n d)) := rfl
    _ = decEdit k b (decDeliverTail n d) := by
      rw [decDrain_edit]
      exact (apply_ite (decEdit k b) (n = 0) _ _).symm

theorem decFlush_edit (p : TailPolicy) (d : Dec) :
    decFlush p (decEdit k b d) = Prod.map id (decEdit k b) (decFlush p d) := by
  calc decFlush p (decEdit k b d)
    _ = if d.ecnt = 0 then decFinish (decEdit k b d)
        else decFinish (decDeliverTail (tailCount p d.ecnt)
          (decEdit k b { d with es := padEncoded d.ecnt.val d.es })) := rfl
    _ = Prod.map id (decEdit k b) (decFlush p d) := by
      rw [decDeliverTail_edit, decFinish_edit, decFinish_edit]
      exact (apply_ite (Prod.map id (decEdit k b)) (d.ecnt = 0) _ _).symm

theorem decDecodeUnit_edit {d : Dec} (h : k < d.inp.pos) :
    decDecodeUnit (decEdit k b d) = Prod.map id (decEdit k b) (decDecodeUnit d) := by
  unfold decDecodeUnit
  rw [decRun_edit b d h, apply_ite (Prod.map id (decEdit k b))]
  rfl

theorem decFinalizeUnit_edit (p : TailPolicy) {d : Dec} (h : k < d.inp.pos) :
    decFinalizeUnit p (decEdit k b d) = Prod.map id (decEdit k b) (decFinalizeUnit p d) := by
  have hrun := decRun_edit b d h
  cases hf : d.fin with
  | true =>
    rw [decFinalizeUnit_of_fin p hf]
    exact decFinalizeUnit_of_fin p (d := decEdit k b d) hf
  | false =>
    rcases decRun_stopped d with ⟨hr, -, -⟩ | ⟨hr, -, -⟩
    · rw [decFinalizeUnit_of_blocked p hf hr, decFinalizeUnit_of_blocked p (d := decEdit k b d) hf (hrun ▸ hr), hrun]
      rfl
    · rw [decFinalizeUnit_of_consumed p hf hr, decFinalizeUnit_of_consumed p (d := decEdit k b d) hf (hrun ▸ hr), hrun]
      exact decFlush_edit b p _

/-- What the two commands that read `IN` leave and answer. -/
theorem decAfter_edit {i : Instr} (hi : i = .decDecode ∨ i = .decFinalize) {d : Dec} (h : k < d.inp.pos) (n : Nat)
    (e : Enc) :
    decAfter i n (decEdit k b d) = decEdit k b (decAfter i n d) ∧ replyTo i e (decEdit k b d) = replyTo i e d := by
  rcases hi with rfl | rfl
  · have hu := decDecodeUnit_edit b h
    exact ⟨congrArg (·.2) hu, congrArg (Reply.mk ·.1 none) hu⟩
  · have hu := decFinalizeUnit_edit b Config.decTailPolicy h
    exact ⟨congrArg (·.2) hu, congrArg (Reply.mk ·.1 none) hu⟩

theorem exec_decEdit {i : Instr} (hi : i = .decDecode ∨ i = .decFinalize) {s t t' : State} (hk : k < s.dec.inp.pos)
    (h : exec i s = .next t) (h' : exec i (hostEdit .dec k b s) = .next t') :
    t'.replies = t.replies ∧ t'.dec = decEdit k b t.dec := by
  obtain ⟨-, htd, -, htr⟩ := exec_next h
  obtain ⟨-, htd', -, htr'⟩ := exec_next h'
  obtain ⟨ha, hr⟩ := decAfter_edit b hi hk s.free s.enc
  rw [hostEdit_dec] at htd' htr'
  exact ⟨by rw [htr, ← hr]; exact htr', by rw [htd, ← ha]; exact htd'⟩

end

/-- Settles O51: R43 and R33, the unit after the command on the edited view being the edited unit. -/
theorem editsAreSeenJustWhenUnread : Obligations.EditsAreSeenJustWhenUnread := by
  refine ⟨fun i s t t' k b hi hk h h' => ?_, fun i s t t' k b hi hk h h' => ?_, fun v k b => unread_edit b⟩
  · obtain ⟨hr, he⟩ := exec_encEdit b hi hk h h'
    rw [he]
    exact ⟨hr, rfl, edit_pos _ _ _⟩
  · obtain ⟨hr, hd⟩ := exec_decEdit b hi hk h h'
    rw [hd]
    exact ⟨hr, rfl, edit_pos _ _ _⟩

end Sys2Proof.Machine
end

section
/-! The opcode map read both ways (R51 to R54), and the step that takes a request (R50). -/

namespace Sys2Proof

/-- R52, the half of the map with `UNIT = 0`. -/
theorem decode_enc_codes (i o : ViewOperand) (b : BlockOperand) :
    decode ⟨0x0, i, o, b⟩ = .encInit ∧ decode ⟨0x1, i, o, b⟩ = .encBind i o ∧
    decode ⟨0x2, i, o, b⟩ = .encRebindIn i ∧ decode ⟨0x3, i, o, b⟩ = .encRebindOut o ∧
    decode ⟨0x4, i, o, b⟩ = .encEncode ∧ decode ⟨0x5, i, o, b⟩ = .encFinalize ∧
    decode ⟨0x6, i, o, b⟩ = .encblk b ∧ decode ⟨0x7, i, o, b⟩ = .reserved7 := by
  simp [decode, unitField, fnField]

/-- R52, the half of the map with `UNIT = 1`. -/
theorem decode_dec_codes (i o : ViewOperand) (b : BlockOperand) :
    decode ⟨0x8, i, o, b⟩ = .decInit ∧ decode ⟨0x9, i, o, b⟩ = .decBind i o ∧
    decode ⟨0xA, i, o, b⟩ = .decRebindIn i ∧ decode ⟨0xB, i, o, b⟩ = .decRebindOut o ∧
    decode ⟨0xC, i, o, b⟩ = .decDecode ∧ decode ⟨0xD, i, o, b⟩ = .decFinalize ∧
    decode ⟨0xE, i, o, b⟩ = .decblk b ∧ decode ⟨0xF, i, o, b⟩ = .reservedF := by
  simp [decode, unitField, fnField]

/-- Settles O2: R52, the two halves of the map. -/
theorem theSixteenCodesDecodeAsTheMapSays : Obligations.TheSixteenCodesDecodeAsTheMapSays := by
  intro i o b
  obtain ⟨e0, e1, e2, e3, e4, e5, e6, e7⟩ := decode_enc_codes i o b
  exact ⟨e0, e1, e2, e3, e4, e5, e6, e7, decode_dec_codes i o b⟩

theorem decode_encode (i : Instr) : decode (encode i) = i := by
  cases i <;> simp only [encode, bareRequest, decode_enc_codes, decode_dec_codes]

/-- The code of the command that a request decodes to depends on `OP` alone, not on the operands (R51). -/
theorem op_encode_decode_congr (r q : Request) (h : r.op = q.op) :
    (encode (decode r)).op = (encode (decode q)).op := by
  unfold decode
  rw [h]
  split <;> rfl

/-- Sixteen codes, each its own row (R52). -/
theorem op_encode_decode_code : ∀ op : BitVec 4, (encode (decode (bareRequest op))).op = op := by decide

/-- Settles O1: R51 to R54, by the cases of the command and by the sixteen codes. -/
theorem decodingAnEncodedCommandGivesItBack : Obligations.DecodingAnEncodedCommandGivesItBack :=
  ⟨decode_encode, fun r => (op_encode_decode_congr r (bareRequest r.op) rfl).trans (op_encode_decode_code r.op)⟩

/-- Settles O3: R50 and R5, the equation of `step` for a request. -/
theorem stepPerformsTheDecodedRequest : Obligations.StepPerformsTheDecodedRequest :=
  fun _ _ _ => Machine.step_of_request

end Sys2Proof
end

section
/-! The response matrix (R62): the answer of each command is in its row, and every entry of a row is answered. -/

namespace Sys2Proof.Machine

open Safety

/-! ### The statuses of a flush -/

theorem encFinish_rsp (e : Enc) : (encFinish e).1 = .needsMoreOutput ∨ (encFinish e).1 = .finished := by
  unfold encFinish
  split
  · exact .inl rfl
  · exact .inr rfl

theorem encFlush_rsp (e : Enc) : (encFlush e).1 = .needsMoreOutput ∨ (encFlush e).1 = .finished := by
  unfold encFlush
  split <;> exact encFinish_rsp _

theorem decFinish_rsp (d : Dec) : (decFinish d).1 = .needsMoreOutput ∨ (decFinish d).1 = .finished := by
  unfold decFinish
  split
  · exact .inl rfl
  · exact .inr rfl

theorem decFlush_rsp (p : TailPolicy) (d : Dec) :
    (decFlush p d).1 = .needsMoreOutput ∨ (decFlush p d).1 = .finished := by
  unfold decFlush
  split <;> exact decFinish_rsp _

/-! ### The rows of the commands that work on a stream -/

theorem mayAnswer_encEncodeUnit (e : Enc) : mayAnswer .encEncode (encEncodeUnit e).1 = true := by
  unfold encEncodeUnit
  split
  · rfl
  · cases (encRun e).1 <;> rfl

theorem mayAnswer_encFinalizeUnit (e : Enc) : mayAnswer .encFinalize (encFinalizeUnit e).1 = true := by
  cases hf : e.fin with
  | true => rw [encFinalizeUnit_of_fin hf]; rfl
  | false =>
    rcases encRun_stopped e with ⟨hr, -, -⟩ | ⟨hr, -, -⟩
    · rw [encFinalizeUnit_of_blocked hf hr]; rfl
    · rw [encFinalizeUnit_of_consumed hf hr]
      rcases encFlush_rsp (encRun e).2 with h | h <;> rw [h] <;> rfl

theorem mayAnswer_decDecodeUnit (d : Dec) : mayAnswer .decDecode (decDecodeUnit d).1 = true := by
  unfold decDecodeUnit
  split
  · rfl
  · cases (decRun d).1 <;> rfl

theorem mayAnswer_decFinalizeUnit (p : TailPolicy) (d : Dec) :
    mayAnswer .decFinalize (decFinalizeUnit p d).1 = true := by
  cases hf : d.fin with
  | true => rw [decFinalizeUnit_of_fin p hf]; rfl
  | false =>
    rcases decRun_stopped d with ⟨hr, -, -⟩ | ⟨hr, -, -⟩
    · rw [decFinalizeUnit_of_blocked p hf hr]; rfl
    · rw [decFinalizeUnit_of_consumed p hf hr]
      rcases decFlush_rsp p (decRun d).2 with h | h <;> rw [h] <;> rfl

/-! ### The rows with one entry -/

/-- Every other command has one response, the same in every state; of a block command the size of its operand decides
it. -/
theorem mayAnswer_iff_of_one_entry {i : Instr} (hi : i ∉ [Instr.encEncode, .encFinalize, .decDecode, .decFinalize])
    (a : Rsp) (e : Enc) (d : Dec) : mayAnswer i a = true ↔ a = (replyTo i e d).rsp := by
  cases i with
  | encEncode | encFinalize | decDecode | decFinalize => simp at hi
  | encblk b | decblk b => simp only [mayAnswer, replyTo, decide_eq_true_eq, apply_ite Reply.rsp]
  | _ => exact decide_eq_true_iff

/-! ### Every answer is in the row, every entry is answered -/

theorem mayAnswer_replyTo (i : Instr) (e : Enc) (d : Dec) : mayAnswer i (replyTo i e d).rsp = true := by
  cases i with
  | encEncode => exact mayAnswer_encEncodeUnit e
  | encFinalize => exact mayAnswer_encFinalizeUnit e
  | decDecode => exact mayAnswer_decDecodeUnit d
  | decFinalize => exact mayAnswer_decFinalizeUnit _ d
  | _ => exact (mayAnswer_iff_of_one_entry (by simp) _ e d).2 rfl

/-- A block result is given just by a block command that succeeds (R55). -/
theorem replyTo_blkRes_isSome_iff (i : Instr) (e : Enc) (d : Dec) :
    (replyTo i e d).blkRes.isSome = true ↔
      (replyTo i e d).rsp = .done ∧ ∃ b, i = .encblk b ∨ i = .decblk b := by
  cases i with
  | encblk b | decblk b => simp only [replyTo]; split <;> simp
  | _ => simp [replyTo]

/-- A state in which every command answers `a` that can: both units are Finalized for `AlreadyFinalized`, both owe a
block to an output view without room for `NeedsMoreOutput`, and neither has anything to do for the other responses. -/
def stateAnswering (a : Rsp) : State :=
  let fin := decide (a = .alreadyFinalized)
  let pend := decide (a = .needsMoreOutput)
  { State.reset with
    enc := { State.reset.enc with fin := fin, pend := pend }
    dec := { State.reset.dec with fin := fin, pend := pend } }

theorem replyTo_stateAnswering {i : Instr} {a : Rsp} (h : mayAnswer i a = true) :
    (replyTo i (stateAnswering a).enc (stateAnswering a).dec).rsp = a := by
  cases i with
  | encEncode | encFinalize | decDecode | decFinalize => obtain rfl | rfl | rfl := of_decide_eq_true h <;> rfl
  | _ => exact ((mayAnswer_iff_of_one_entry (by simp) a _ _).1 h).symm

/-- Settles O21: R62 and R55, from what a command answers in its units. -/
theorem responsesOfEachCommand : Obligations.ResponsesOfEachCommand := by
  refine ⟨fun i s t h => ?_, fun i a h => ?_⟩
  · obtain ⟨-, -, -, hr⟩ := exec_next h
    exact ⟨_, hr, mayAnswer_replyTo i s.enc s.dec, replyTo_blkRes_isSome_iff i s.enc s.dec⟩
  · obtain ⟨t, ht⟩ := exec_accepts i (stateAnswering a)
    obtain ⟨-, -, -, hr⟩ := exec_next ht
    exact ⟨_, t, _, ht, hr, replyTo_stateAnswering h⟩

end Sys2Proof.Machine
end

section
/-! The block transform (spec 40_transform.md R70 to R75), bit by bit, and the block commands (R76, R77). -/

namespace Sys2Proof.Machine

open Safety

/-! ### Bytes as bit 7 and bits 6 to 0 (R70) -/

/-- A byte is its bit 7 and its bits 6 to 0. -/
theorem byte_ext {b c : Byte} (h7 : b.getLsbD 7 = c.getLsbD 7) (hlow : ∀ j < 7, b.getLsbD j = c.getLsbD j) :
    b = c := by
  refine BitVec.eq_of_getLsbD_eq fun j hj => ?_
  obtain hj | rfl : j < 7 ∨ j = 7 := by omega
  · exact hlow j hj
  · exact h7

theorem getLsbD_low7 (b : Byte) {j : Nat} (hj : j < 7) : (low7 b).getLsbD j = b.getLsbD j := by
  simp only [low7, BitVec.getLsbD_append]
  simp [hj]

theorem low7_eq_iff {b c : Byte} : low7 b = low7 c ↔ ∀ j < 7, b.getLsbD j = c.getLsbD j := by
  refine ⟨fun h j hj => ?_, fun h => byte_ext ?_ fun j hj => ?_⟩
  · rw [← getLsbD_low7 b hj, h, getLsbD_low7 c hj]
  · rw [low7_bit7, low7_bit7]
  · rw [getLsbD_low7 b hj, h j hj, getLsbD_low7 c hj]

theorem low7_eq_self_iff {b : Byte} : low7 b = b ↔ b.getLsbD 7 = false :=
  ⟨fun h => h ▸ low7_bit7 b, fun h => byte_ext ((low7_bit7 b).trans h.symm) fun _ hj => getLsbD_low7 b hj⟩

theorem getLsbD_rawLane_seven (g : Byte) (k : Nat) (b : Byte) : (rawLane g k b).getLsbD 7 = g.getLsbD k := by
  simp only [rawLane, BitVec.getLsbD_append]
  simp

theorem getLsbD_rawLane (g : Byte) (k : Nat) (b : Byte) {j : Nat} (hj : j < 7) :
    (rawLane g k b).getLsbD j = b.getLsbD j := by
  simp only [rawLane, BitVec.getLsbD_append]
  simp [hj]

theorem low7_rawLane (g : Byte) (k : Nat) (b : Byte) : low7 (rawLane g k b) = low7 b :=
  low7_eq_iff.2 fun _ hj => getLsbD_rawLane g k b hj

/-! ### The lanes of both directions (R71 to R73, R78) -/

theorem getLsbD_guardByte (r : RawBlock) (i : Nat) (h : i < 7) : (guardByte r).getLsbD (6 - i) = r[i].getLsbD 7 := by
  simp only [guardByte, hibit, BitVec.getLsbD_append]
  interval_cases i <;> simp

theorem getElem_encodeBlock_succ (r : RawBlock) (i : Nat) (h : i < 7) : (encodeBlock r)[i + 1] = low7 r[i] := by
  interval_cases i <;> rfl

theorem getElem_decodeBlock (e : EncodedBlock) (i : Nat) (h : i < 7) :
    (decodeBlock e)[i] = rawLane e[0] (6 - i) e[i + 1] := by
  interval_cases i <;> rfl

/-- Settles O13: R71 for the guard byte, R72 for the body bytes. -/
theorem encodeBlockLayout : Obligations.EncodeBlockLayout :=
  fun r => ⟨guardByte_bit7 r, fun i h =>
    ⟨getLsbD_guardByte r i h, (getElem_encodeBlock_succ r i h).trans (low7_eq_and r[i])⟩⟩

/-- Settles O14: R73, the two parts of a raw lane. -/
theorem decodeBlockLayout : Obligations.DecodeBlockLayout := by
  intro e i h
  rw [getElem_decodeBlock e i h]
  exact ⟨getLsbD_rawLane_seven _ _ _, fun _ hj => getLsbD_rawLane _ _ _ hj⟩

/-! ### What `decode_block` forgets (R74) -/

/-- Bit `k` of the guard byte decides bit 7 of raw byte `6 - k`, and a body byte decides the other bits of its lane. -/
theorem decodeBlock_eq_iff {e e' : EncodedBlock} :
    decodeBlock e = decodeBlock e' ↔ ∀ (j : Nat) (h : j < 8), low7 e[j] = low7 e'[j] := by
  constructor
  · intro h j hj
    cases j with
    | zero =>
      refine low7_eq_iff.2 fun k hk => ?_
      have hlane : (decodeBlock e)[6 - k].getLsbD 7 = (decodeBlock e')[6 - k].getLsbD 7 := by rw [h]
      simpa only [getElem_decodeBlock, getLsbD_rawLane_seven, Nat.sub_sub_self (Nat.le_of_lt_succ hk)] using hlane
    | succ i =>
      have hlane : low7 (decodeBlock e)[i] = low7 (decodeBlock e')[i] := by rw [h]
      simpa only [getElem_decodeBlock, low7_rawLane] using hlane
  · intro h
    refine Vector.ext fun i hi => ?_
    rw [getElem_decodeBlock e i hi, getElem_decodeBlock e' i hi]
    refine byte_ext ?_ fun j hj => ?_
    · rw [getLsbD_rawLane_seven, getLsbD_rawLane_seven]
      exact low7_eq_iff.1 (h 0 (by omega)) (6 - i) (by omega)
    · rw [getLsbD_rawLane _ _ _ hj, getLsbD_rawLane _ _ _ hj]
      exact low7_eq_iff.1 (h (i + 1) (by omega)) j hj

/-- Settles O15: R74 and its converse, `low7` being the mask `0x7F`. -/
theorem decodeBlockForgetsExactlyTheReservedBits : Obligations.DecodeBlockForgetsExactlyTheReservedBits := by
  intro e e'
  simp only [← low7_eq_and]
  exact decodeBlock_eq_iff

/-! ### The inverse laws (R75) -/

theorem decodeBlock_encodeBlock (r : RawBlock) : decodeBlock (encodeBlock r) = r := by
  refine Vector.ext fun i hi => ?_
  rw [getElem_decodeBlock _ i hi]
  refine byte_ext ?_ fun j hj => ?_
  · rw [getLsbD_rawLane_seven]
    exact getLsbD_guardByte r i hi
  · rw [getLsbD_rawLane _ _ _ hj, getElem_encodeBlock_succ r i hi, getLsbD_low7 _ hj]

/-- Encoding the decoding agrees with the block in bits 6 to 0, because it decodes alike, and is clean. -/
theorem getElem_encodeBlock_decodeBlock (e : EncodedBlock) (j : Nat) (h : j < 8) :
    (encodeBlock (decodeBlock e))[j] = low7 e[j] := by
  have hsame : low7 (encodeBlock (decodeBlock e))[j] = low7 e[j] :=
    decodeBlock_eq_iff.1 (decodeBlock_encodeBlock (decodeBlock e)) j h
  have hclean := low7_eq_self_iff.2 (encodeBlock_clean (decodeBlock e) ⟨j, h⟩)
  exact hclean.symm.trans hsame

theorem encodeBlock_decodeBlock_eq_iff (e : EncodedBlock) :
    encodeBlock (decodeBlock e) = e ↔ ∀ (j : Nat) (h : j < 8), e[j].getLsbD 7 = false := by
  refine ⟨fun he j h => ?_, fun hclean => Vector.ext fun j h => ?_⟩
  · rw [← low7_eq_self_iff, ← getElem_encodeBlock_decodeBlock e j h]
    simp only [he]
  · rw [getElem_encodeBlock_decodeBlock e j h, low7_eq_self_iff.2 (hclean j h)]

/-- The block `e` with its eight reserved bits set to `c`: bit 7 of byte `j` is bit `j` of `c`. -/
def withReservedBits (c : BitVec 8) (e : EncodedBlock) : EncodedBlock := Vector.ofFn fun j => rawLane c j e[j]

theorem getLsbD_withReservedBits_seven (c : BitVec 8) (e : EncodedBlock) (j : Nat) (h : j < 8) :
    (withReservedBits c e)[j].getLsbD 7 = c.getLsbD j := by
  rw [withReservedBits, Vector.getElem_ofFn, getLsbD_rawLane_seven]

theorem decodeBlock_withReservedBits (c : BitVec 8) (e : EncodedBlock) :
    decodeBlock (withReservedBits c e) = decodeBlock e :=
  decodeBlock_eq_iff.2 fun j h => by simp [withReservedBits, low7_rawLane]

/-- The raw block and the eight reserved bits determine the encoded block. -/
theorem encodedBlock_ext {e e' : EncodedBlock} (hdec : decodeBlock e = decodeBlock e')
    (hbits : ∀ (j : Nat) (h : j < 8), e[j].getLsbD 7 = e'[j].getLsbD 7) : e = e' :=
  Vector.ext fun j h => byte_ext (hbits j h) (low7_eq_iff.1 (decodeBlock_eq_iff.1 hdec j h))

/-- Settles O16: R75. The preimage of `r` with the reserved bits `c` is its encoding with those bits set. -/
theorem blockTransformInverseLaws : Obligations.BlockTransformInverseLaws := by
  refine ⟨decodeBlock_encodeBlock, fun e j h => ?_, encodeBlock_decodeBlock_eq_iff,
    Function.LeftInverse.injective decodeBlock_encodeBlock, Function.RightInverse.surjective decodeBlock_encodeBlock,
    fun r c => ?_⟩
  · rw [getElem_encodeBlock_decodeBlock e j h, low7_eq_and]
  · have hdec : decodeBlock (withReservedBits c (encodeBlock r)) = r :=
      (decodeBlock_withReservedBits c _).trans (decodeBlock_encodeBlock r)
    have hbits := getLsbD_withReservedBits_seven c (encodeBlock r)
    exact ⟨_, ⟨hdec, hbits⟩, fun e' hdec' hbits' =>
      encodedBlock_ext (hdec'.trans hdec.symm) fun j h => (hbits' j h).trans (hbits j h).symm⟩

/-! ### The block operand and the block result (R54) -/

theorem eq_rawOperand {b : BlockOperand} {r : RawBlock} (h : ∀ i (hi : i < 7), r[i] = b.data.extractLsb' (8 * i) 8) :
    r = rawOperand b :=
  Vector.ext fun i hi => (h i hi).trans (by interval_cases i <;> rfl)

theorem eq_encodedOperand {b : BlockOperand} {e : EncodedBlock}
    (h : ∀ i (hi : i < 8), e[i] = b.data.extractLsb' (8 * i) 8) : e = encodedOperand b :=
  Vector.ext fun i hi => (h i hi).trans (by interval_cases i <;> rfl)

/-- Byte `j` of the packed block stands in bits `[8j+7 : 8j]`. -/
theorem extractLsb'_packEncoded (e : EncodedBlock) (j : Nat) (h : j < 8) :
    (packEncoded e).extractLsb' (8 * j) 8 = e[j] := by
  refine BitVec.eq_of_getLsbD_eq fun i hi => ?_
  have hskip (n : Nat) (hn : 8 ≤ n) : ¬i + n < 8 := by omega
  rw [BitVec.getLsbD_extractLsb', Nat.add_comm]
  simp only [packEncoded, BitVec.getLsbD_append]
  interval_cases j <;> simp [hi, hskip]

/-- A raw block is packed as an encoded block whose last byte is 0. -/
theorem packRaw_eq_packEncoded_push (r : RawBlock) : packRaw r = packEncoded (r.push 0) := by
  simp [packRaw, packEncoded]

theorem extractLsb'_packRaw (r : RawBlock) (j : Nat) (h : j < 7) : (packRaw r).extractLsb' (8 * j) 8 = r[j] := by
  rw [packRaw_eq_packEncoded_push, extractLsb'_packEncoded _ j (by omega), Vector.getElem_push_lt h]

theorem extractLsb'_packRaw_top (r : RawBlock) : (packRaw r).extractLsb' 56 8 = 0 := by
  rw [packRaw_eq_packEncoded_push]
  exact (extractLsb'_packEncoded (r.push 0) 7 (by omega)).trans Vector.getElem_push_eq

/-! ### The block commands -/

/-- Settles O17: R76, by the size of the operand. -/
theorem encblkEncodesTheBlockOperand : Obligations.EncblkEncodesTheBlockOperand := by
  refine fun b s => ⟨rfl, fun hn => ⟨_, execEncblk_of_size hn s, fun r hr j h => ?_⟩,
    fun hn => execEncblk_of_wrong_size hn s⟩
  rw [eq_rawOperand hr]
  exact extractLsb'_packEncoded _ j h

/-- Settles O18: R77, by the size of the operand. -/
theorem decblkDecodesTheBlockOperand : Obligations.DecblkDecodesTheBlockOperand := by
  refine fun b s => ⟨rfl, fun hn => ⟨_, execDecblk_of_size hn s, extractLsb'_packRaw_top _, fun e he j h => ?_⟩,
    fun hn => execDecblk_of_wrong_size hn s⟩
  rw [eq_encodedOperand he]
  exact extractLsb'_packRaw _ j h

end Sys2Proof.Machine
end

section
/-! Construction and view binding (spec 41_binding.md R80 to R85): what a bound view holds, and what a Finalized unit answers. -/

namespace Sys2Proof.Machine

open Safety

/-! ### A constructed unit and a bound view (R25, R30) -/

theorem constructEnc_fresh (s : State) : FreshEnc (constructEnc s).enc := ⟨rfl, rfl, rfl, rfl, rfl, rfl⟩

theorem constructDec_fresh (s : State) : FreshDec (constructDec s).dec := ⟨rfl, rfl, rfl, rfl, rfl, rfl, rfl⟩

/-- The space of a byte sequence holds each byte of the sequence at its own index (R30). -/
theorem Memory.read_ofBytes_of_lt {bs : List Byte} {k : Nat} (h : k < bs.length) :
    Memory.read (Memory.ofBytes bs) k = bs[k] := by
  rw [Memory.read_ofBytes, List.getD_eq_getElem _ _ h]

theorem bindIn_boundIn (v : ViewOperand) : BoundIn v (bindIn v) := ⟨rfl, rfl, fun _ => Memory.read_ofBytes_of_lt⟩

theorem bindOut_boundOut (v : ViewOperand) : BoundOut v (bindOut v) := ⟨rfl, rfl, fun _ => Memory.read_ofBytes_of_lt⟩

/-! ### The run command and `FINALIZE` on a Finalized unit (R94, R95, R114, R115) -/

theorem encEncodeUnit_of_fin {e : Enc} (hf : e.fin = true) : encEncodeUnit e = (.alreadyFinalized, e) := if_pos hf

theorem decDecodeUnit_of_fin {d : Dec} (hf : d.fin = true) : decDecodeUnit d = (.alreadyFinalized, d) := if_pos hf

section
variable {s : State}

theorem exec_encEncode_of_fin (hf : s.enc.fin = true) : exec .encEncode s = .next (respond .alreadyFinalized s) := by
  simp only [exec, execEncEncode, encEncodeUnit_of_fin hf]

theorem exec_encFinalize_of_fin (hf : s.enc.fin = true) : exec .encFinalize s = .next (respond .alreadyFinalized s) := by
  simp only [exec, execEncFinalize, encFinalizeUnit_of_fin hf]

theorem exec_decDecode_of_fin (hf : s.dec.fin = true) : exec .decDecode s = .next (respond .alreadyFinalized s) := by
  simp only [exec, execDecDecode, decDecodeUnit_of_fin hf]

theorem exec_decFinalize_of_fin (hf : s.dec.fin = true) : exec .decFinalize s = .next (respond .alreadyFinalized s) := by
  simp only [exec, execDecFinalize, decFinalizeUnder, decFinalizeUnit_of_fin _ hf]

end

/-! ### The statements -/

/-- Settles O7: R80 and R25 of either unit. -/
theorem initConstructsTheUnitAfresh : Obligations.InitConstructsTheUnitAfresh := fun s =>
  ⟨⟨_, rfl, constructEnc_fresh s, rfl, rfl, rfl⟩, ⟨_, rfl, constructDec_fresh s, rfl, rfl, rfl⟩⟩

/-- Settles O8: R81 of either unit, a bound view holding the operand's bytes. -/
theorem bindAttachesBothViews : Obligations.BindAttachesBothViews := fun i o _ =>
  ⟨rfl, rfl, ⟨_, rfl, bindIn_boundIn i, bindOut_boundOut o, rfl, ⟨rfl, rfl, rfl⟩, rfl⟩,
    ⟨_, rfl, bindIn_boundIn i, bindOut_boundOut o, rfl, ⟨rfl, rfl, rfl⟩, rfl⟩⟩

/-- Settles O9: R82 of either unit. -/
theorem rebindInReplacesTheInputView : Obligations.RebindInReplacesTheInputView := fun i _ =>
  ⟨rfl, rfl, ⟨_, rfl, bindIn_boundIn i, rfl, ⟨rfl, rfl, rfl⟩, rfl⟩,
    ⟨_, rfl, bindIn_boundIn i, rfl, ⟨rfl, rfl, rfl⟩, rfl⟩⟩

/-- Settles O10: R83 of either unit. -/
theorem rebindOutReplacesTheOutputView : Obligations.RebindOutReplacesTheOutputView := fun o _ =>
  ⟨rfl, rfl, ⟨_, rfl, bindOut_boundOut o, rfl, ⟨rfl, rfl, rfl⟩, rfl⟩,
    ⟨_, rfl, bindOut_boundOut o, rfl, ⟨rfl, rfl, rfl⟩, rfl⟩⟩

/-- Settles O11: R81, since a response touches no view and a rebind of one view leaves the other. -/
theorem bindIsRebindInThenRebindOut : Obligations.BindIsRebindInThenRebindOut := by
  refine fun i o s t u v => ⟨fun ht hu hv => ?_, fun ht hu hv => ?_⟩
  · cases ht; cases hu; cases hv; rfl
  · cases ht; cases hu; cases hv; rfl

/-- Settles O12: R85, since no binding command touches `FIN`, by the three binding commands of each unit. -/
theorem bindingDoesNotReviveAFinalizedUnit : Obligations.BindingDoesNotReviveAFinalizedUnit := by
  constructor
  · rintro i s hf ⟨v, w, rfl | rfl | rfl⟩ <;>
      exact ⟨_, rfl, rfl, hf, exec_encEncode_of_fin hf, exec_encFinalize_of_fin hf⟩
  · rintro i s hf ⟨v, w, rfl | rfl | rfl⟩ <;>
      exact ⟨_, rfl, rfl, hf, exec_decDecode_of_fin hf, exec_decFinalize_of_fin hf⟩

end Sys2Proof.Machine
end

section
/-! The bytes that pass through the views of a unit, as sequences (R33, R34): those drained between two states of an output
view, those an input view has still to give. -/

namespace Sys2Proof.Machine

open Safety

/-! ### Slices -/

theorem Memory.slice_add (m : Memory) (k a b : Nat) :
    Memory.slice m k (a + b) = Memory.slice m k a ++ Memory.slice m (k + a) b := by
  rw [Memory.slice, ← List.range'_append_1, List.map_append]
  rfl

theorem Memory.slice_congr {m m' : Memory} {k n : Nat} (h : ∀ j, k ≤ j → j < k + n → Memory.read m j = Memory.read m' j) :
    Memory.slice m k n = Memory.slice m' k n :=
  List.map_congr_left fun j hj => by
    obtain ⟨hk, hn⟩ := List.mem_range'_1.1 hj
    exact h j hk hn

/-! ### Output views -/

/-- `w` is the output view `v` after some drains, each of them into room. -/
structure OutView.Grown (v w : OutView) : Prop where
  only : DrainedOnly v w
  le : v.pos ≤ w.pos
  room : v.pos + v.room = w.pos + w.room

theorem OutView.Grown.refl (v : OutView) : v.Grown v := ⟨⟨rfl, fun _ _ => rfl⟩, le_rfl, rfl⟩

theorem OutView.Grown.trans {u v w : OutView} (h : u.Grown v) (k : v.Grown w) : u.Grown w :=
  ⟨⟨k.only.1.trans h.only.1, fun j hj =>
      (k.only.2 j (hj.imp_left h.le.trans_lt')).trans (h.only.2 j (hj.imp_right k.le.trans))⟩,
    h.le.trans k.le, h.room.trans k.room⟩

theorem OutView.grown_drain {v : OutView} (b : Byte) (hr : v.hasRoom = true) : v.Grown (v.drain b) :=
  ⟨drainedOnly_drain v b, Nat.le_succ _, by rw [room_drain v b hr, drain_pos]; omega⟩

@[simp] theorem length_drained (v w : OutView) : (drained v w).length = w.pos - v.pos := Memory.length_slice _ _ _

/-- Nothing is drained into a view that is still, or again, at or below the position it had. -/
theorem drained_of_le {v w : OutView} (h : w.pos ≤ v.pos) : drained v w = [] := by
  rw [drained, Nat.sub_eq_zero_of_le h, Memory.slice_zero]

@[simp] theorem drained_self (v : OutView) : drained v v = [] := drained_of_le le_rfl

@[simp] theorem drained_bindOut (v : OutView) (o : ViewOperand) : drained v (bindOut o) = [] :=
  drained_of_le (Nat.zero_le _)

theorem drained_drain (v : OutView) (b : Byte) : drained v (v.drain b) = [b] := by
  simp [drained, Memory.slice_succ]

theorem OutView.Grown.drained_append {u v w : OutView} (h : u.Grown v) (k : v.Grown w) :
    drained u w = drained u v ++ drained v w := by
  have hpos : w.pos - u.pos = (v.pos - u.pos) + (w.pos - v.pos) := by have := h.le; have := k.le; omega
  have hstart : u.pos + (v.pos - u.pos) = v.pos := Nat.add_sub_of_le h.le
  have hold : Memory.slice w.space u.pos (v.pos - u.pos) = Memory.slice v.space u.pos (v.pos - u.pos) :=
    Memory.slice_congr fun j _ hj => k.only.2 j (.inl (hstart ▸ hj))
  rw [drained, hpos, Memory.slice_add, hold, hstart]
  rfl

/-- The room used up is the number of bytes drained. -/
theorem OutView.Grown.length_add_room {v w : OutView} (h : v.Grown w) : (drained v w).length + w.room = v.room := by
  have hr := h.room
  have hl := h.le
  rw [length_drained]
  omega

theorem room_of_no_room {v : OutView} (h : v.hasRoom = false) : v.room = 0 := by
  rw [Bool.eq_false_iff, ne_eq, hasRoom_iff] at h
  omega

theorem OutView.Ok.exhausted_of_no_room {v : OutView} (h : v.Ok) (hr : v.hasRoom = false) : v.exhausted = true :=
  decide_eq_true (Nat.le_antisymm h.bounded (Nat.not_lt.1 (of_decide_eq_false hr)))

/-! ### Input views -/

@[simp] theorem length_unread (v : InView) : (unread v).length = v.avail := Memory.length_slice _ _ _

theorem unread_of_byte {v : InView} (h : v.hasByte = true) : unread v = v.head :: unread v.pull := by
  rw [unread, avail_pull v h, Memory.slice_succ]
  rfl

theorem unread_of_no_byte {v : InView} (h : v.hasByte = false) : unread v = [] := by
  rw [Bool.eq_false_iff, ne_eq, hasByte_iff] at h
  rw [unread, Nat.eq_zero_of_not_pos h, Memory.slice_zero]

theorem unread_bindIn (v : ViewOperand) : unread (bindIn v) = v.ref := Memory.slice_ofBytes v.ref

theorem hasByte_of_exhausted {v : InView} (h : v.exhausted = true) : v.hasByte = false :=
  decide_eq_false (Nat.not_lt.2 (of_decide_eq_true h).ge)

theorem InView.Ok.exhausted_of_no_byte {v : InView} (h : v.Ok) (hb : v.hasByte = false) : v.exhausted = true :=
  decide_eq_true (Nat.le_antisymm h.bounded (Nat.not_lt.1 (of_decide_eq_false hb)))

end Sys2Proof.Machine
end

section
/-! `Mcoded7` of a byte sequence (R101): block by block, with the last part zero-padded (R96). -/

namespace Sys2Proof.Machine

open Safety

/-! ### Raw blocks as byte sequences -/

/-- The raw block that starts with the bytes of `l` and goes on with zeros (R96). -/
def zeroPadded (l : List Byte) : RawBlock :=
  #v[l.getD 0 0, l.getD 1 0, l.getD 2 0, l.getD 3 0, l.getD 4 0, l.getD 5 0, l.getD 6 0]

theorem getElem_zeroPadded (l : List Byte) (i : Nat) (h : i < 7) : (zeroPadded l)[i] = l.getD i 0 := by
  interval_cases i <;> rfl

/-- Zero bytes at the end cannot be told from padding (R103). -/
theorem zeroPadded_append_zeros (l : List Byte) (z : Nat) : zeroPadded (l ++ List.replicate z 0) = zeroPadded l :=
  Vector.ext fun i h => by
    rw [getElem_zeroPadded, getElem_zeroPadded]
    rcases Nat.lt_or_ge i l.length with hi | hi
    · exact List.getD_append _ _ _ _ hi
    · rw [List.getD_append_right _ _ _ _ hi, List.getD_eq_default _ _ hi, List.getD_eq_getElem?_getD,
        List.getElem?_getD_replicate_default_eq]

theorem rawBlock_eta (r : RawBlock) : #v[r[0], r[1], r[2], r[3], r[4], r[5], r[6]] = r :=
  Vector.ext fun i h => by interval_cases i <;> rfl

/-- A sequence is a last part of fewer than seven bytes, or a raw block followed by a sequence. -/
theorem rawBlocks_induct {P : List Byte → Prop} (last : ∀ l, l.length < 7 → P l)
    (block : ∀ (r : RawBlock) l, P l → P (r.toList ++ l)) (l : List Byte) : P l := by
  induction hn : l.length using Nat.strong_induction_on generalizing l with
  | _ n ih =>
    by_cases h : l.length < 7
    · exact last l h
    · have hlen : (l.take 7).length = 7 := by rw [List.length_take]; omega
      have hl : l = (Vector.mk (l.take 7).toArray hlen).toList ++ l.drop 7 := (List.take_append_drop 7 l).symm
      rw [hl]
      exact block _ _ (ih _ (by rw [List.length_drop]; omega) _ rfl)

/-! ### The encoded stream -/

@[simp] theorem mcoded7_nil : mcoded7 [] = [] := rfl

theorem mcoded7_block_append (r : RawBlock) (l : List Byte) :
    mcoded7 (r.toList ++ l) = (encodeBlock r).toList ++ mcoded7 l := by
  rw [← rawBlock_eta r]
  rfl

/-- The last part of a stream, a full block included, is encoded with zeros for the bytes that are missing (R96). -/
theorem mcoded7_of_length_le {l : List Byte} (h0 : l ≠ []) (h : l.length ≤ 7) :
    mcoded7 l = (encodeBlock (zeroPadded l)).toList := by
  match l, h0, h with
  | [_], _, _ | [_, _], _, _ | [_, _, _], _, _ | [_, _, _, _], _, _ | [_, _, _, _, _], _, _
  | [_, _, _, _, _, _], _, _ => rfl
  | [a, b, c, d, e, f, g], _, _ => exact List.append_nil _

theorem length_mcoded7 (l : List Byte) : (mcoded7 l).length = 8 * ((l.length + 6) / 7) := by
  induction l using rawBlocks_induct with
  | last l h =>
    by_cases h0 : l = []
    · subst h0; rfl
    · rw [mcoded7_of_length_le h0 h.le, Vector.length_toList]
      have := List.length_pos_iff.2 h0
      omega
  | block r l ih =>
    rw [mcoded7_block_append, List.length_append, List.length_append, ih, Vector.length_toList, Vector.length_toList]
    omega

/-- The encoded stream is 7-bit-clean (R100). -/
theorem mcoded7_clean (l : List Byte) : ∀ b ∈ mcoded7 l, b.getLsbD 7 = false := by
  have hblock (r : RawBlock) : ∀ b ∈ (encodeBlock r).toList, b.getLsbD 7 = false := by
    intro b hb
    obtain ⟨i, hi, rfl⟩ := List.getElem_of_mem hb
    exact encodeBlock_clean r ⟨i, by simpa using hi⟩
  induction l using rawBlocks_induct with
  | last l h =>
    by_cases h0 : l = []
    · simp [h0]
    · rw [mcoded7_of_length_le h0 h.le]
      exact hblock _
  | block r l ih =>
    rw [mcoded7_block_append]
    exact fun b hb => (List.mem_append.1 hb).elim (hblock r b) (ih b)

/-- Zero bytes that the last block has room for change nothing (R103). -/
theorem mcoded7_append_zeros {l : List Byte} {z : Nat} :
    l.length % 7 ≠ 0 → z ≤ 7 - l.length % 7 → mcoded7 (l ++ List.replicate z 0) = mcoded7 l := by
  induction l using rawBlocks_induct with
  | last l h =>
    intro h0 hz
    rw [Nat.mod_eq_of_lt h] at h0 hz
    have hl : l ≠ [] := fun he => h0 (by rw [he]; rfl)
    rw [mcoded7_of_length_le hl h.le, mcoded7_of_length_le (by simp [hl]) (by simp; omega), zeroPadded_append_zeros]
  | block r l ih =>
    intro h0 hz
    have hlen : (r.toList ++ l).length % 7 = l.length % 7 := by simp
    rw [hlen] at h0 hz
    rw [List.append_assoc, mcoded7_block_append, mcoded7_block_append, ih h0 hz]

/-! ### Whole blocks and the last part -/

theorem wholeBlocks_of_length_lt {l : List Byte} (h : l.length < 7) : wholeBlocks 7 l = [] := by
  rw [wholeBlocks, Nat.div_eq_of_lt h]
  rfl

theorem lastPart_of_length_lt {l : List Byte} (h : l.length < 7) : lastPart 7 l = l := by
  rw [lastPart, Nat.div_eq_of_lt h]
  rfl

theorem length_block_append (r : RawBlock) (l : List Byte) :
    7 * ((r.toList ++ l).length / 7) = r.toList.length + 7 * (l.length / 7) := by
  rw [List.length_append, Vector.length_toList]
  omega

theorem wholeBlocks_block_append (r : RawBlock) (l : List Byte) :
    wholeBlocks 7 (r.toList ++ l) = r.toList ++ wholeBlocks 7 l := by
  rw [wholeBlocks, length_block_append, List.take_length_add_append]
  rfl

theorem lastPart_block_append (r : RawBlock) (l : List Byte) : lastPart 7 (r.toList ++ l) = lastPart 7 l := by
  rw [lastPart, length_block_append, List.drop_length_add_append]
  rfl

end Sys2Proof.Machine
end

section
/-! The loops of `ENC` as the spec writes them, and what `EncDrain` delivers (R91 to R93). -/

namespace Sys2Proof.Machine

open Safety

/-! ### The loop equations -/

theorem encDrain_eq (e : Enc) :
    encDrain e = if e.pend = true ∧ e.out.pos < e.out.cap then encDrain (encDrainByte e) else e := by
  split
  · rename_i h
    exact encDrain_of_room h.1 (decide_eq_true h.2)
  · rename_i h
    cases hp : e.pend with
    | true => exact encDrain_of_no_room (decide_eq_false fun hr => h ⟨hp, hr⟩)
    | false => exact encDrain_idle e hp

theorem encFill_eq (e : Enc) :
    encFill e =
      if e.inp.pos < e.inp.len then
        if e.rcnt = 6 then (.full, encTransform (encStageByte e))
        else encFill { encStageByte e with rcnt := e.rcnt + 1 }
      else (.starved, e) := by
  split
  · split
    · exact encFill_of_last_byte (decide_eq_true ‹_›) ‹_›
    · exact encFill_of_byte (decide_eq_true ‹_›) ‹_›
  · exact encFill_of_no_byte (decide_eq_false ‹_›)

/-- The drain stops at once where there is nothing to drain or no room. -/
theorem encDrain_induct {P : Enc → Enc → Prop}
    (drain : ∀ e e', e.pend = true → e.out.hasRoom = true → P (encDrainByte e) e' → P e e')
    (stop : ∀ e, (e.pend = true → e.out.hasRoom = false) → P e e) (e : Enc) : P e (encDrain e) := by
  induction h : e.out.room using Nat.strong_induction_on generalizing e with
  | _ n ih =>
    subst h
    rw [encDrain_eq]
    split
    · rename_i h
      have hr : e.out.hasRoom = true := decide_eq_true h.2
      have := room_drain e.out e.es[e.ecnt] hr
      exact drain e _ h.1 hr (ih _ (by rw [encDrainByte_out]; omega) _ rfl)
    · rename_i h
      exact stop e fun hp => decide_eq_false fun hr => h ⟨hp, hr⟩

theorem encDrain_no_room (e : Enc) : (encDrain e).pend = true → (encDrain e).out.hasRoom = false :=
  encDrain_induct (P := fun _ e' => e'.pend = true → e'.out.hasRoom = false) (fun _ _ _ _ ih => ih) (fun _ h => h) e

theorem encRun_of_blocked {e : Enc} (h : (encDrain e).pend = true) : encRun e = (.needsMoreOutput, encDrain e) := by
  rw [← encRunLoop_eq_encRun (Nat.le_succ e.inp.avail), encRunLoop, if_pos h]

/-- A run begins with a drain. -/
theorem encRun_encDrain (e : Enc) : encRun e = encRun (encDrain e) :=
  encDrain_induct (P := fun e e' => encRun e = encRun e') (fun _ _ hp hr ih => (encRun_of_room hp hr).trans ih)
    (fun _ _ => rfl) e

theorem encRun_eq (e : Enc) :
    encRun e =
      if (encDrain e).pend = true then (.needsMoreOutput, encDrain e)
      else if (encFill (encDrain e)).1 = .starved then (.allInputConsumed, (encFill (encDrain e)).2)
      else encRun (encFill (encDrain e)).2 := by
  split
  · exact encRun_of_blocked ‹_›
  · rw [encRun_encDrain, encRun_of_idle (Bool.eq_false_iff.2 ‹_›)]
    cases (encFill (encDrain e)).1 <;> simp

/-- Settles O26: R91, R92 and R93, one equation for each loop. -/
theorem encLoopsFollowTheSpec : Obligations.EncLoopsFollowTheSpec :=
  fun e => ⟨encDrain_eq e, encFill_eq e, encRun_eq e⟩

/-! ### The bytes owed -/

theorem encOwed_of_pend {e : Enc} (hp : e.pend = true) : encOwed e = e.es.toList.drop e.ecnt.val := if_pos hp

theorem encOwed_of_idle {e : Enc} (hp : e.pend = false) : encOwed e = [] := by simp [encOwed, hp]

theorem length_encOwed (e : Enc) : (encOwed e).length = if e.pend then 8 - e.ecnt.val else 0 := by
  unfold encOwed
  split <;> simp

theorem encOwed_ne_nil {e : Enc} (hp : e.pend = true) : encOwed e ≠ [] := by
  have := e.ecnt.isLt
  rw [← List.length_pos_iff, length_encOwed, if_pos hp]
  omega

/-- The byte drained is the first owed (R91). -/
theorem encOwed_eq_cons {e : Enc} (hp : e.pend = true) : encOwed e = e.es[e.ecnt] :: encOwed (encDrainByte e) := by
  rw [encOwed_of_pend hp, List.drop_eq_getElem_cons (by simp)]
  refine congrArg₂ _ (by simp) ?_
  rcases encDrainByte_cases e with ⟨hc, hd⟩ | ⟨hc, hd⟩
  · rw [hd, encOwed_of_idle rfl, hc]
    exact List.drop_of_length_le (by simp)
  · rw [hd, encOwed_of_pend (by exact hp), Fin.val_add_one_of_lt (Fin.lt_last_iff_ne_last.2 hc)]

/-- `e'` is `e` after some drained bytes and nothing else (R91). -/
structure EncDrained (e e' : Enc) : Prop where
  grown : e.out.Grown e'.out
  owed : encOwed e = drained e.out e'.out ++ encOwed e'
  delivered : e'.pend = false → e'.ecnt = if e.pend then 0 else e.ecnt
  rest : e' = { e with out := e'.out, pend := e'.pend, ecnt := e'.ecnt }

theorem EncDrained.refl (e : Enc) : EncDrained e e :=
  ⟨.refl _, by rw [drained_self]; rfl, fun hp => by simp [hp], rfl⟩

theorem encDrainByte_drained {e : Enc} (hp : e.pend = true) (hr : e.out.hasRoom = true) :
    EncDrained e (encDrainByte e) where
  grown := by rw [encDrainByte_out]; exact OutView.grown_drain _ hr
  owed := by rw [encDrainByte_out, drained_drain, encOwed_eq_cons hp]; rfl
  delivered := by
    rcases encDrainByte_cases e with ⟨-, hd⟩ | ⟨-, hd⟩ <;> simp [hd, hp]
  rest := by
    rcases encDrainByte_cases e with ⟨-, hd⟩ | ⟨-, hd⟩ <;> rw [hd]

theorem EncDrained.head {e e' : Enc} (hp : e.pend = true) (hr : e.out.hasRoom = true)
    (h : EncDrained (encDrainByte e) e') : EncDrained e e' where
  grown := (encDrainByte_drained hp hr).grown.trans h.grown
  owed := by
    have h1 := encDrainByte_drained hp hr
    rw [h1.owed, h.owed, h1.grown.drained_append h.grown, List.append_assoc]
  delivered := fun hp' => by
    rw [h.delivered hp']
    rcases encDrainByte_cases e with ⟨-, hd⟩ | ⟨-, hd⟩ <;> simp [hd, hp]
  rest := by
    rw [h.rest]
    rcases encDrainByte_cases e with ⟨-, hd⟩ | ⟨-, hd⟩ <;> rw [hd]

theorem encDrain_drained (e : Enc) : EncDrained e (encDrain e) :=
  encDrain_induct (P := EncDrained) (fun _ _ hp hr => .head hp hr) (fun e _ => .refl e) e

/-- The drain stops when the bytes owed or the room is used up, so it drains the lesser of the two numbers (R91). -/
theorem length_drained_encDrain (e : Enc) :
    (drained e.out (encDrain e).out).length = min (encOwed e).length e.out.room := by
  have h := encDrain_drained e
  have howed := congrArg List.length h.owed
  have hroom := h.grown.length_add_room
  rw [List.length_append] at howed
  cases hp : (encDrain e).pend with
  | true =>
    have := room_of_no_room (encDrain_no_room e hp)
    omega
  | false =>
    rw [encOwed_of_idle hp, List.length_nil] at howed
    omega

/-- Settles O28: R91, from what was owed being what was drained and what is still owed. -/
theorem encDrainDeliversWhatTheViewAccepts : Obligations.EncDrainDeliversWhatTheViewAccepts := by
  intro e p c n hp hc hn
  have h := encDrain_drained e
  have hpos := h.grown.le
  have hlen : (drained e.out (encDrain e).out).length = n := by
    rw [length_drained_encDrain, length_encOwed, ← hp, ← hc, ← hn]
  have howed : p = n + if (encDrain e).pend then 8 - (encDrain e).ecnt.val else 0 := by
    rw [hp, ← length_encOwed, h.owed, List.length_append, length_encOwed, hlen]
  have hcnt := (encDrain e).ecnt.isLt
  have hpend : (encDrain e).pend = true ↔ n < p := by
    cases hp' : (encDrain e).pend with
    | true =>
      rw [hp', if_pos rfl] at howed
      simp only [true_iff]
      omega
    | false =>
      rw [hp', if_neg Bool.false_ne_true] at howed
      simp only [Bool.false_eq_true, false_iff]
      omega
  refine ⟨by rw [length_drained] at hlen; omega, by rw [h.owed, List.take_left' hlen], h.grown.only, hpend, ?_, h.rest⟩
  split
  · rw [if_pos (hpend.2 ‹_›)] at howed
    split at hp <;> omega
  · rw [h.delivered (Bool.eq_false_iff.2 (mt hpend.1 ‹_›))]
    split <;> rfl

end Sys2Proof.Machine
end

section
/-! What a run of `ENC` consumes and delivers, in whole blocks (R92, R93), and with it `ENC.ENCODE` (R94, R99). -/

namespace Sys2Proof.Machine

open Safety

/-! ### The raw bytes at hand -/

/-- The raw bytes that `ENC` has at hand: those staged, then those unread. -/
def encRaw (e : Enc) : List Byte := encStaged e ++ unread e.inp

theorem encStreamLeft_eq (e : Enc) : encStreamLeft e = encOwed e ++ mcoded7 (encRaw e) := rfl

theorem length_encStaged (e : Enc) : (encStaged e).length = e.rcnt.val := by
  rw [encStaged, List.length_take, Vector.length_toList]
  exact Nat.min_eq_left e.rcnt.isLt.le

theorem length_encRaw (e : Enc) : (encRaw e).length = e.rcnt.val + e.inp.avail := by
  rw [encRaw, List.length_append, length_encStaged, length_unread]

theorem encStaged_of_rcnt_zero {e : Enc} (h : e.rcnt = 0) : encStaged e = [] := by simp [encStaged, h]

theorem encRaw_of_no_byte {e : Enc} (hb : e.inp.hasByte = false) : encRaw e = encStaged e := by
  rw [encRaw, unread_of_no_byte hb, List.append_nil]

/-- The raw bytes at hand once the byte pulled has been stored in `RS[RCNT]`. -/
theorem encRaw_eq_take_stage {e : Enc} (hb : e.inp.hasByte = true) :
    encRaw e = (encStageByte e).rs.toList.take (e.rcnt.val + 1) ++ unread e.inp.pull := by
  rw [encRaw, unread_of_byte hb, List.append_cons, encStageByte_rs, Vector.toList_set, List.take_add_one,
    List.take_set_of_le le_rfl, List.getElem?_set_self (by simp)]
  rfl

/-- Staging a byte moves it from the unread bytes to the staged ones (R92). -/
theorem encRaw_stageByte {e : Enc} (hb : e.inp.hasByte = true) (hc : e.rcnt ≠ 6) :
    encRaw { encStageByte e with rcnt := e.rcnt + 1 } = encRaw e := by
  rw [encRaw_eq_take_stage hb, encRaw, encStaged, Fin.val_add_one_of_lt (Fin.lt_last_iff_ne_last.2 hc)]
  rfl

/-- With the seventh byte `RS` holds a whole block (R92). -/
theorem encRaw_last_byte {e : Enc} (hb : e.inp.hasByte = true) (hc : e.rcnt = 6) :
    encRaw e = (encStageByte e).rs.toList ++ encRaw (encTransform (encStageByte e)) := by
  rw [encRaw_eq_take_stage hb, hc, List.take_of_length_le (by simp), encRaw, encStaged_of_rcnt_zero rfl]
  rfl

/-- The transform owes the whole block (R92). -/
theorem encOwed_transform (e : Enc) : encOwed (encTransform e) = (encodeBlock e.rs).toList := rfl

/-! ### Progress in whole blocks -/

/-- The bytes of a sequence of raw blocks. -/
def rawBytes (bs : List RawBlock) : List Byte := bs.flatMap Vector.toList

/-- The bytes of their encodings. -/
def encodedBytes (bs : List RawBlock) : List Byte := bs.flatMap fun r => (encodeBlock r).toList

theorem rawBytes_cons_append (r : RawBlock) (bs : List RawBlock) (l : List Byte) :
    rawBytes (r :: bs) ++ l = r.toList ++ (rawBytes bs ++ l) := by
  rw [rawBytes, List.flatMap_cons, List.append_assoc]
  rfl

theorem length_rawBytes (bs : List RawBlock) : (rawBytes bs).length = 7 * bs.length := by
  simp [rawBytes, List.length_flatMap, Nat.mul_comm]

theorem length_encodedBytes (bs : List RawBlock) : (encodedBytes bs).length = 8 * bs.length := by
  simp [encodedBytes, List.length_flatMap, Nat.mul_comm]

theorem lastPart_rawBytes_append (bs : List RawBlock) (l : List Byte) :
    lastPart 7 (rawBytes bs ++ l) = lastPart 7 l := by
  induction bs with
  | nil => rfl
  | cons r bs ih => rw [rawBytes_cons_append, lastPart_block_append, ih]

/-- A code that takes whole blocks as they come. -/
abbrev Blockwise (code : List Byte → List Byte) : Prop :=
  ∀ (r : RawBlock) (l : List Byte), code (r.toList ++ l) = (encodeBlock r).toList ++ code l

theorem Blockwise.rawBytes_append {code : List Byte → List Byte} (h : Blockwise code) (bs : List RawBlock)
    (l : List Byte) : code (rawBytes bs ++ l) = encodedBytes bs ++ code l := by
  induction bs with
  | nil => rfl
  | cons r bs ih =>
    rw [rawBytes_cons_append, h, ih, encodedBytes, encodedBytes, List.flatMap_cons, List.append_assoc]

/-- From `e` to `e'` whole blocks were consumed and encoded, and bytes owed were drained; nothing else of the views
changed. -/
structure EncProgress (e e' : Enc) : Prop where
  grown : e.out.Grown e'.out
  pulled : PulledOnly e.inp e'.inp
  blocks : ∃ bs : List RawBlock, encRaw e = rawBytes bs ++ encRaw e' ∧
    encOwed e ++ encodedBytes bs = drained e.out e'.out ++ encOwed e'

theorem EncProgress.trans {a b c : Enc} (h : EncProgress a b) (k : EncProgress b c) : EncProgress a c := by
  obtain ⟨bs, hraw, hout⟩ := h.blocks
  obtain ⟨cs, kraw, kout⟩ := k.blocks
  refine ⟨h.grown.trans k.grown, ⟨k.pulled.1.trans h.pulled.1, k.pulled.2.trans h.pulled.2⟩, bs ++ cs, ?_, ?_⟩
  · rw [hraw, kraw, rawBytes, rawBytes, rawBytes, List.flatMap_append, List.append_assoc]
  · calc encOwed a ++ encodedBytes (bs ++ cs)
      _ = drained a.out b.out ++ (encOwed b ++ encodedBytes cs) := by
        rw [encodedBytes, List.flatMap_append, ← List.append_assoc, ← List.append_assoc, ← hout]; rfl
      _ = drained a.out c.out ++ encOwed c := by rw [kout, h.grown.drained_append k.grown, List.append_assoc]

/-- While nothing is drained, the bytes owed are those of the blocks encoded. -/
theorem encProgress_of_out_eq {e e' : Enc} (bs : List RawBlock) (hout : e'.out = e.out) (hp : PulledOnly e.inp e'.inp)
    (hraw : encRaw e = rawBytes bs ++ encRaw e') (howed : encOwed e ++ encodedBytes bs = encOwed e') :
    EncProgress e e' :=
  ⟨hout ▸ .refl _, hp, bs, hraw, by rw [howed, hout, drained_self]; rfl⟩

theorem EncProgress.refl (e : Enc) : EncProgress e e :=
  encProgress_of_out_eq [] rfl ⟨rfl, rfl⟩ rfl (List.append_nil _)

theorem EncDrained.progress {e e' : Enc} (h : EncDrained e e') : EncProgress e e' :=
  ⟨h.grown, by rw [h.rest]; exact ⟨rfl, rfl⟩, [], by rw [h.rest]; rfl, by rw [← h.owed]; exact List.append_nil _⟩

theorem encStageByte_progress {e : Enc} (hp : e.pend = false) (hb : e.inp.hasByte = true) (hc : e.rcnt ≠ 6) :
    EncProgress e { encStageByte e with rcnt := e.rcnt + 1 } :=
  encProgress_of_out_eq [] rfl (pulledOnly_pull e.inp) (encRaw_stageByte hb hc).symm
    (by rw [encOwed_of_idle hp, encOwed_of_idle (by exact hp)]; rfl)

theorem encLastByte_progress {e : Enc} (hp : e.pend = false) (hb : e.inp.hasByte = true) (hc : e.rcnt = 6) :
    EncProgress e (encTransform (encStageByte e)) :=
  encProgress_of_out_eq [(encStageByte e).rs] rfl (pulledOnly_pull e.inp)
    ((encRaw_last_byte hb hc).trans (by simp [rawBytes]))
    (by rw [encOwed_of_idle hp, encOwed_transform]; simp [encodedBytes])

theorem encRun_progress (e : Enc) : EncProgress e (encRun e).2 :=
  encRun_induct (P := fun e r => EncProgress e r.2)
    (fun _ _ hp hr => (encDrainByte_drained hp hr).progress.trans)
    (fun e _ _ => .refl e)
    (fun _ _ hp hb hc => (encStageByte_progress hp hb hc).trans)
    (fun _ _ hp hb hc => (encLastByte_progress hp hb hc).trans)
    (fun e _ _ => .refl e) e

/-- What is to be delivered is what was drained and what is still to be delivered. -/
theorem EncProgress.left {e e' : Enc} (h : EncProgress e e') {code : List Byte → List Byte} (hcode : Blockwise code) :
    encOwed e ++ code (encRaw e) = drained e.out e'.out ++ (encOwed e' ++ code (encRaw e')) := by
  obtain ⟨bs, hraw, hout⟩ := h.blocks
  rw [hraw, hcode.rawBytes_append, ← List.append_assoc, hout, List.append_assoc]

theorem EncProgress.streamLeft {e e' : Enc} (h : EncProgress e e') :
    encStreamLeft e = drained e.out e'.out ++ encStreamLeft e' := h.left mcoded7_block_append

theorem EncProgress.blocksLeft {e e' : Enc} (h : EncProgress e e') :
    encBlocksLeft e = drained e.out e'.out ++ encBlocksLeft e' :=
  h.left (code := fun l => mcoded7 (wholeBlocks 7 l)) fun r l =>
    (congrArg mcoded7 (wholeBlocks_block_append r l)).trans (mcoded7_block_append r _)

theorem EncProgress.lastPart {e e' : Enc} (h : EncProgress e e') : lastPart 7 (encRaw e) = lastPart 7 (encRaw e') := by
  obtain ⟨bs, hraw, -⟩ := h.blocks
  rw [hraw, lastPart_rawBytes_append]

/-- How many bytes: seven raw bytes for every eight encoded ones. -/
theorem EncProgress.counts {e e' : Enc} (h : EncProgress e e') :
    ∃ n, e.rcnt.val + e.inp.avail = 7 * n + (e'.rcnt.val + e'.inp.avail) ∧
      (encOwed e).length + 8 * n = (e'.out.pos - e.out.pos) + (encOwed e').length := by
  obtain ⟨bs, hraw, hout⟩ := h.blocks
  have hraw := congrArg List.length hraw
  have hout := congrArg List.length hout
  simp only [List.length_append, length_rawBytes, length_encodedBytes, length_encRaw, length_drained] at hraw hout
  exact ⟨bs.length, hraw, hout⟩

/-! ### `ENC.ENCODE` -/

theorem encEncodeUnit_of_streaming {e : Enc} (hf : e.fin = false) : encEncodeUnit e = (runRsp (encRun e).1, (encRun e).2) :=
  if_neg (by simp [hf])

theorem encRun_inv {e : Enc} (h : EncInv e) (hf : e.fin = false) : EncInv (encRun e).2 :=
  (encRun_moves e hf).keep encMove_inv h

/-- The state that `ENC.ENCODE` leaves of a Streaming unit (R94). -/
theorem exec_encEncode_of_streaming {s : State} (hf : s.enc.fin = false) :
    exec .encEncode s = .next (respond (runRsp (encRun s.enc).1) { s with enc := (encRun s.enc).2 }) := by
  simp only [exec, execEncEncode, encEncodeUnit_of_streaming hf]

/-- A run that stops for want of room has encoded `n` blocks, the last of them still pending. -/
structure EncBlockedAfter (n : Nat) (e : Enc) (r : RunEnd × Enc) : Prop where
  status : r.1 = .needsMoreOutput
  pend : r.2.pend = true
  rcnt : r.2.rcnt = 0
  pulled : r.2.inp.pos = e.inp.pos + (7 * n - e.rcnt.val) ∧ 7 * n ≤ e.rcnt.val + e.inp.avail
  drained : r.2.out.pos = e.out.pos + e.out.room
  owed : (encOwed e).length + 8 * n = e.out.room + (8 - r.2.ecnt.val)

/-- A run that stops for want of input has encoded and delivered `n` blocks, all that there were. -/
structure EncStarvedAfter (n : Nat) (e : Enc) (r : RunEnd × Enc) : Prop where
  status : r.1 = .allInputConsumed
  pend : r.2.pend = false
  ecnt : r.2.ecnt = 0
  pulled : r.2.inp.pos = e.inp.pos + e.inp.avail
  drained : r.2.out.pos = e.out.pos + ((encOwed e).length + 8 * n)
  fits : (encOwed e).length + 8 * n ≤ e.out.room
  staged : e.rcnt.val + e.inp.avail = 7 * n + r.2.rcnt.val

/-- The two ways in which a run ends, with what it has pulled and drained (R99). -/
theorem encRun_counts {e : Enc} (hi : EncInv e) (hf : e.fin = false) :
    ∃ n, EncBlockedAfter n e (encRun e) ∨ EncStarvedAfter n e (encRun e) := by
  have hprog := encRun_progress e
  have hi' := encRun_inv hi hf
  obtain ⟨n, hin, hout⟩ := hprog.counts
  have hle := hprog.grown.le
  have hroom := hprog.grown.room
  have hpulled : (encRun e).2.inp.pos + (encRun e).2.inp.avail = e.inp.pos + e.inp.avail := by
    have := hi.inBounded
    have := hi'.inBounded
    have := hprog.pulled.1
    simp only [InView.avail]
    omega
  rcases encRun_stopped e with ⟨hr, hp, hs⟩ | ⟨hr, hp, hs⟩
  · have hc := hi'.pendingUnstaged hp
    have hfull := room_of_no_room hs
    rw [length_encOwed (encRun e).2, if_pos hp] at hout
    rw [hc, Fin.val_zero] at hin
    have hstaged : e.rcnt.val ≤ 7 * n := by
      cases hp0 : e.pend with
      | true => simp [hi.pendingUnstaged hp0]
      | false =>
        rw [encOwed_of_idle hp0, List.length_nil] at hout
        omega
    exact ⟨n, .inl ⟨hr, hp, hc, ⟨by omega, by omega⟩, by omega, by omega⟩⟩
  · have hstarved : (encRun e).2.inp.avail = 0 := by rw [← length_unread, unread_of_no_byte hs, List.length_nil]
    rw [encOwed_of_idle hp, List.length_nil] at hout
    exact ⟨n, .inr ⟨hr, hp, hi'.notPendingDrained hp, by omega, by omega, by omega, by omega⟩⟩

/-- Settles O29: R99, by the way in which the run ends; the number of blocks encoded follows from the counts. -/
theorem encodeClosedForm : Obligations.EncodeClosedForm := by
  intro s p r a c c' B m hi hf hp hr ha hc hc' hB hm
  rw [← length_encOwed] at hp
  have hprog := encRun_progress s.enc
  refine ⟨_, exec_encEncode_of_streaming hf, ⟨rfl, rfl, rfl⟩, (encRun_keeps s.enc).fin.trans hf, hprog.pulled,
    hprog.grown.only, ?_⟩
  have ha : s.enc.inp.avail = a := ha.symm
  have hc : s.enc.out.room = c := hc.symm
  simp only [Answered, respond_replies, respond_enc]
  obtain ⟨n, h | h⟩ := encRun_counts hi hf
  · obtain ⟨hst, hpend, hrcnt, ⟨hin, hmax⟩, hout, howed⟩ := h
    have hecnt := (encRun s.enc).2.ecnt.isLt
    rw [hst, hin, hout, hc]
    split
    · have hn : n = 0 := by omega
      have hp0 := length_encOwed s.enc
      split at hp0
      · exact ⟨rfl, by omega, rfl, hpend, hrcnt, by omega⟩
      · omega
    · have hn : n = m := by omega
      rw [if_neg (by omega), ← hn, ← hr]
      exact ⟨rfl, rfl, rfl, hpend, hrcnt, by omega⟩
  · obtain ⟨hst, hpend, hecnt, hin, hout, hfits, hstaged⟩ := h
    have hn : n = B := by omega
    rw [if_neg (by omega), if_pos (by omega), hst, hin, hout, ha, ← hp, ← hn]
    exact ⟨rfl, rfl, rfl, hpend, by omega, hecnt⟩

end Sys2Proof.Machine
end

section
/-! The bytes that `ENC.ENCODE` and `ENC.FINALIZE` deliver (R93 to R97), and that each of them is 7-bit-clean (R100). -/

namespace Sys2Proof.Machine

open Safety

/-- A sequence cut where the room ends, or where nothing is left of it. -/
theorem take_drop_of_append {l d rest : List Byte} {n k : Nat} (h : l = d ++ rest) (hlen : d.length + k = n)
    (hend : k = 0 ∨ rest = []) : l.take n = d ∧ l.drop n = rest := by
  subst h
  rcases hend with rfl | rfl
  · exact ⟨List.take_left' hlen, List.drop_left' hlen⟩
  · rw [List.append_nil]
    exact ⟨List.take_of_length_le (by omega), List.drop_of_length_le (by omega)⟩

/-! ### `ENC.ENCODE` -/

/-- With nothing pending and nothing unread fewer than seven bytes are at hand: no whole block is left. -/
theorem encBlocksLeft_of_starved {e : Enc} (hp : e.pend = false) (hb : e.inp.hasByte = false) : encBlocksLeft e = [] := by
  have hlt : (encRaw e).length < 7 := by
    rw [encRaw_of_no_byte hb, length_encStaged]
    exact e.rcnt.isLt
  rw [encBlocksLeft, encOwed_of_idle hp, ← encRaw, wholeBlocks_of_length_lt hlt]
  rfl

/-- Settles O30: R94, R93 and R35, by the way in which the run ends. -/
theorem encodeDrainsTheEncodedStream : Obligations.EncodeDrainsTheEncodedStream := by
  intro s hi hf
  have hprog := encRun_progress s.enc
  have hi' := encRun_inv hi hf
  have hleft := hprog.blocksLeft
  have hroom := hprog.grown.length_add_room
  have hlen := congrArg List.length hleft
  rw [List.length_append] at hlen
  refine ⟨_, exec_encEncode_of_streaming hf, ⟨rfl, rfl, rfl⟩, (encRun_keeps s.enc).fin.trans hf, hprog.pulled,
    hprog.grown.only, ?_⟩
  simp only [Answered, respond_replies, respond_enc]
  rcases encRun_stopped s.enc with ⟨hst, hp, hs⟩ | ⟨hst, hp, hs⟩
  · have hfull := room_of_no_room hs
    have hmore : 0 < (encBlocksLeft (encRun s.enc).2).length :=
      List.length_pos_iff.2 (List.append_ne_nil_of_left_ne_nil (encOwed_ne_nil hp) _)
    obtain ⟨ht, hd⟩ := take_drop_of_append hleft hroom (.inl hfull)
    rw [if_neg (by omega), hst]
    exact ⟨ht.symm, hd.symm, hprog.streamLeft, rfl, hi'.out_ok.exhausted_of_no_room hs, hp, hi'.pendingUnstaged hp⟩
  · have hnone := encBlocksLeft_of_starved hp hs
    obtain ⟨ht, hd⟩ := take_drop_of_append hleft hroom (.inr hnone)
    have hstaged : encStaged (encRun s.enc).2 = lastPart 7 (encRaw s.enc) := by
      rw [hprog.lastPart, encRaw_of_no_byte hs, lastPart_of_length_lt]
      rw [length_encStaged]
      exact (encRun s.enc).2.rcnt.isLt
    rw [hnone, List.length_nil] at hlen
    rw [if_pos (by omega), hst]
    exact ⟨ht.symm, hd.symm, hprog.streamLeft, rfl, hi'.inp_ok.exhausted_of_no_byte hs, hp, hstaged⟩

/-! ### Deliveries -/

/-- From `e` to `e'` the unit pulled and drained, and of the stream that it was to deliver it has still to deliver what it
has not drained. -/
structure EncDelivers (e e' : Enc) : Prop where
  grown : e.out.Grown e'.out
  pulled : PulledOnly e.inp e'.inp
  left : encStreamLeft e = drained e.out e'.out ++ encStreamLeft e'

theorem EncProgress.delivers {e e' : Enc} (h : EncProgress e e') : EncDelivers e e' := ⟨h.grown, h.pulled, h.streamLeft⟩

theorem EncDelivers.trans {a b c : Enc} (h : EncDelivers a b) (k : EncDelivers b c) : EncDelivers a c :=
  ⟨h.grown.trans k.grown, ⟨k.pulled.1.trans h.pulled.1, k.pulled.2.trans h.pulled.2⟩,
    by rw [h.left, k.left, h.grown.drained_append k.grown, List.append_assoc]⟩

/-- Between units with the same views nothing is drained. -/
theorem encDelivers_of_views_eq {e e' : Enc} (hin : e'.inp = e.inp) (hout : e'.out = e.out)
    (hleft : encStreamLeft e = encStreamLeft e') : EncDelivers e e' :=
  ⟨hout ▸ .refl _, hin ▸ ⟨rfl, rfl⟩, by rw [hleft, hout, drained_self]; rfl⟩

/-- Padding zeroes every register of `RS` that holds no staged byte (R96). -/
theorem padRaw_eq_zeroPadded (e : Enc) : padRaw e.rcnt.val e.rs = zeroPadded (encStaged e) :=
  Vector.ext fun i h => by
    rw [getElem_padRaw, getElem_zeroPadded, encStaged, List.getD_eq_getElem?_getD, List.getElem?_take]
    by_cases hi : e.rcnt.val ≤ i
    · simp [hi, Nat.not_lt.2 hi]
    · simp [hi, Nat.not_le.1 hi, h]

/-- The unit once the staged bytes are padded and transformed (R95, R96). -/
def encPadded (e : Enc) : Enc := encTransform { e with rs := padRaw e.rcnt.val e.rs }

/-- The padded block is what `Mcoded7` makes of the staged bytes (R96). -/
theorem encStreamLeft_padded {e : Enc} (hp : e.pend = false) (hb : e.inp.hasByte = false) (hc : e.rcnt ≠ 0) :
    encStreamLeft (encPadded e) = encStreamLeft e := by
  have hraw : encRaw (encPadded e) = [] :=
    (encRaw_of_no_byte (e := encPadded e) hb).trans (encStaged_of_rcnt_zero rfl)
  have hpos : encStaged e ≠ [] := by
    rw [← List.length_pos_iff, length_encStaged]
    exact Nat.pos_of_ne_zero fun h => hc (Fin.ext h)
  have hlen : (encStaged e).length ≤ 7 := (length_encStaged e).trans_le e.rcnt.isLt.le
  calc encStreamLeft (encPadded e)
    _ = (encodeBlock (padRaw e.rcnt.val e.rs)).toList ++ mcoded7 (encRaw (encPadded e)) := rfl
    _ = mcoded7 (encStaged e) := by
      rw [hraw, mcoded7_nil, List.append_nil, padRaw_eq_zeroPadded, mcoded7_of_length_le hpos hlen]
    _ = encStreamLeft e := by
      rw [encStreamLeft_eq, encOwed_of_idle hp, encRaw_of_no_byte hb, List.nil_append]

/-! ### `ENC.FINALIZE` -/

/-- `FINALIZE` has stopped for want of room with a block pending, or it has finished, all input consumed (R95). -/
abbrev EncEnded (r : Rsp × Enc) : Prop :=
  (r.1 = .needsMoreOutput ∧ r.2.fin = false ∧ r.2.pend = true ∧ r.2.out.hasRoom = false) ∨
  (r.1 = .finished ∧ r.2.fin = true ∧ r.2.inp.hasByte = false)

/-- What `FINALIZE` does to a unit, as a delivery and the way in which it ends. -/
abbrev EncFlushes (e : Enc) (r : Rsp × Enc) : Prop := EncDelivers e r.2 ∧ EncEnded r

theorem encFinish_of_idle {e : Enc} (hp : e.pend = false) : encFinish e = (.finished, { e with fin := true }) :=
  if_neg (by simp [hp])

theorem encFinish_of_pend {e : Enc} (hp : e.pend = true) : encFinish e = (.needsMoreOutput, e) := if_pos hp

theorem encFinish_flushes {e : Enc} (hf : e.fin = false) (hb : e.inp.hasByte = false)
    (hr : e.pend = true → e.out.hasRoom = false) : EncFlushes e (encFinish e) := by
  cases hp : e.pend with
  | true =>
    rw [encFinish_of_pend hp]
    exact ⟨encDelivers_of_views_eq rfl rfl rfl, .inl ⟨rfl, hf, hp, hr hp⟩⟩
  | false =>
    rw [encFinish_of_idle hp]
    exact ⟨encDelivers_of_views_eq rfl rfl rfl, .inr ⟨rfl, rfl, hb⟩⟩

theorem encFlush_of_aligned {e : Enc} (hc : e.rcnt = 0) : encFlush e = encFinish e := if_pos hc

theorem encFlush_of_staged {e : Enc} (hc : e.rcnt ≠ 0) : encFlush e = encFinish (encDrain (encPadded e)) := if_neg hc

theorem encFlush_flushes {e : Enc} (hf : e.fin = false) (hp : e.pend = false) (hb : e.inp.hasByte = false) :
    EncFlushes e (encFlush e) := by
  by_cases hc : e.rcnt = 0
  · rw [encFlush_of_aligned hc]
    exact encFinish_flushes hf hb fun hp' => by simp [hp] at hp'
  · rw [encFlush_of_staged hc]
    have hpad : EncDelivers e (encPadded e) := encDelivers_of_views_eq rfl rfl (encStreamLeft_padded hp hb hc).symm
    have hdrain := hpad.trans (encDrain_drained (encPadded e)).progress.delivers
    obtain ⟨hfin, hend⟩ := encFinish_flushes ((encDrain_keeps (encPadded e)).fin.trans hf)
      (by rw [encDrain_inp]; exact hb) (encDrain_no_room (encPadded e))
    exact ⟨hdrain.trans hfin, hend⟩

theorem encFinalizeUnit_flushes {e : Enc} (hf : e.fin = false) : EncFlushes e (encFinalizeUnit e) := by
  have hrun := (encRun_progress e).delivers
  have hf' := (encRun_keeps e).fin.trans hf
  rcases encRun_stopped e with ⟨hst, hp, hs⟩ | ⟨hst, hp, hs⟩
  · rw [encFinalizeUnit_of_blocked hf hst]
    exact ⟨hrun, .inl ⟨rfl, hf', hp, hs⟩⟩
  · rw [encFinalizeUnit_of_consumed hf hst]
    obtain ⟨hflush, hend⟩ := encFlush_flushes hf' hp hs
    exact ⟨hrun.trans hflush, hend⟩

/-- A Finalized unit whose input is exhausted has delivered everything (R19(e)). -/
theorem encStreamLeft_of_fin {e : Enc} (hi : EncInv e) (hf : e.fin = true) (hb : e.inp.hasByte = false) :
    encStreamLeft e = [] := by
  obtain ⟨hp, hc, -⟩ := hi.finalizedIdle hf
  rw [encStreamLeft_eq, encOwed_of_idle hp, encRaw_of_no_byte hb, encStaged_of_rcnt_zero hc]
  rfl

/-- Settles O31: R95, by the way in which `FINALIZE` ends. -/
theorem encFinalizeFlushesAndFinishes : Obligations.EncFinalizeFlushesAndFinishes := by
  intro s hi hf
  obtain ⟨⟨hgrown, hpulled, hleft⟩, hend⟩ := encFinalizeUnit_flushes hf
  have hi' : EncInv (encFinalizeUnit s.enc).2 := (encFinalizeUnit_moves s.enc).keep encMove_inv hi
  have hroom := hgrown.length_add_room
  have hlen := congrArg List.length hleft
  rw [List.length_append] at hlen
  refine ⟨_, rfl, ⟨rfl, rfl, rfl⟩, hpulled, hgrown.only, ?_⟩
  simp only [Answered, respond_replies, respond_enc]
  rcases hend with ⟨hst, hfin, hp, hs⟩ | ⟨hst, hfin, hs⟩
  · have hfull := room_of_no_room hs
    have hmore : 0 < (encStreamLeft (encFinalizeUnit s.enc).2).length :=
      List.length_pos_iff.2 (List.append_ne_nil_of_left_ne_nil (encOwed_ne_nil hp) _)
    obtain ⟨ht, hd⟩ := take_drop_of_append hleft hroom (.inl hfull)
    rw [if_neg (by omega), hst]
    exact ⟨ht.symm, rfl, hfin, hp, hi'.pendingUnstaged hp, hi'.out_ok.exhausted_of_no_room hs, hd.symm⟩
  · have hnone := encStreamLeft_of_fin hi' hfin hs
    obtain ⟨hp, hc, he⟩ := hi'.finalizedIdle hfin
    obtain ⟨ht, -⟩ := take_drop_of_append hleft hroom (.inr hnone)
    have hle := hgrown.le
    rw [hnone, List.length_nil, length_drained] at hlen
    rw [length_drained] at hroom
    rw [if_pos (by omega), hst]
    exact ⟨ht.symm, rfl, by rw [encPosition, hfin, hp, hc, he], hi'.inp_ok.exhausted_of_no_byte hs, by omega⟩

/-! ### `FINALIZE` with the input exhausted -/

theorem encFinalizeUnit_of_exhausted {e : Enc} (hf : e.fin = false) (hp : e.pend = false) (hx : e.inp.exhausted = true) :
    encFinalizeUnit e = encFlush e := by
  have hrun := encRun_of_no_byte hp (hasByte_of_exhausted hx)
  rw [encFinalizeUnit_of_consumed hf (by rw [hrun]), hrun]

theorem decFinalizeUnit_of_exhausted (p : TailPolicy) {d : Dec} (hf : d.fin = false) (hp : d.pend = false)
    (hx : d.inp.exhausted = true) : decFinalizeUnit p d = decFlush p d := by
  have hrun := decRun_of_no_byte hp (hasByte_of_exhausted hx)
  rw [decFinalizeUnit_of_consumed p hf (by rw [hrun]), hrun]

theorem encFinish_staging (e : Enc) :
    (encFinish e).2.inp = e.inp ∧ (encFinish e).2.rcnt = e.rcnt ∧ (encFinish e).2.es = e.es := by
  unfold encFinish
  split <;> exact ⟨rfl, rfl, rfl⟩

/-- Neither the drain nor the end of `FINALIZE` touches the input view, `RCNT` and the padded block. -/
theorem encFlush_of_staged_staging {e : Enc} (hc : e.rcnt ≠ 0) :
    (encFlush e).2.inp = e.inp ∧ (encFlush e).2.rcnt = 0 ∧
      (encFlush e).2.es = encodeBlock (padRaw e.rcnt.val e.rs) := by
  obtain ⟨hinp, hrcnt, hes⟩ := encFinish_staging (encDrain (encPadded e))
  obtain ⟨dinp, -, drcnt, des⟩ := encDrain_staging (encPadded e)
  rw [encFlush_of_staged hc]
  exact ⟨hinp.trans dinp, hrcnt.trans drcnt, hes.trans des⟩

/-- Settles O32: R96, the layout of the padded block from that of `encode_block` (R71, R72). -/
theorem encFinalizePadsWithZeros : Obligations.EncFinalizePadsWithZeros := by
  intro s hf hp hk hx
  have hc : s.enc.rcnt ≠ 0 := fun h => by simp [h] at hk
  obtain ⟨hinp, hrcnt, hes⟩ := encFlush_of_staged_staging hc
  rw [← encFinalizeUnit_of_exhausted hf hp hx] at hinp hrcnt hes
  obtain ⟨hclean, hlanes⟩ := encodeBlockLayout (padRaw s.enc.rcnt.val s.enc.rs)
  refine ⟨_, rfl, hinp, hrcnt, ?_⟩
  simp only [respond_enc, hes]
  refine ⟨hclean, fun i h => ?_⟩
  obtain ⟨hguard, hbody⟩ := hlanes i h
  rw [hguard, hbody, getElem_padRaw]
  split
  · rw [if_neg (Nat.not_le.2 ‹_›)]
    exact ⟨rfl, rfl⟩
  · rw [if_pos (Nat.not_lt.1 ‹_›)]
    exact ⟨rfl, rfl⟩

/-- Settles O33: R97 and R117, `FINALIZE` then being its last line alone. -/
theorem finalizeOfAnAlignedStreamEmitsNothing : Obligations.FinalizeOfAnAlignedStreamEmitsNothing := by
  refine ⟨fun s hf hp hc hx => ?_, fun s hf hp hc hx => ?_⟩
  · have hu : encFinalizeUnit s.enc = (.finished, { s.enc with fin := true }) := by
      rw [encFinalizeUnit_of_exhausted hf hp hx, encFlush_of_aligned hc, encFinish_of_idle hp]
    simp only [exec, execEncFinalize, hu]
    rfl
  · have hu : decFinalizeUnit Config.decTailPolicy s.dec = (.finished, { s.dec with fin := true }) := by
      rw [decFinalizeUnit_of_exhausted _ hf hp hx, decFlush, if_pos hc, decFinish, if_neg (by simp [hp])]
    simp only [exec, execDecFinalize, decFinalizeUnder, hu]
    rfl

/-! ### Clean output -/

/-- What `ENC` holds pending and what it will yet encode is 7-bit-clean (R19(g), R72). -/
theorem encStreamLeft_clean {e : Enc} (hi : EncInv e) : ∀ b ∈ encStreamLeft e, b.getLsbD 7 = false := by
  intro b hb
  rcases List.mem_append.1 hb with howed | hcode
  · cases hp : e.pend with
    | true =>
      rw [encOwed_of_pend hp] at howed
      obtain ⟨i, hlt, rfl⟩ := List.getElem_of_mem (List.mem_of_mem_drop howed)
      exact hi.pendingClean hp ⟨i, by simpa using hlt⟩
    | false => simp [encOwed_of_idle hp] at howed
  · exact mcoded7_clean _ b hcode

theorem encEncodeUnit_delivers (e : Enc) : EncDelivers e (encEncodeUnit e).2 := by
  cases hf : e.fin with
  | true => rw [encEncodeUnit_of_fin hf]; exact (EncProgress.refl e).delivers
  | false => rw [encEncodeUnit_of_streaming hf]; exact (encRun_progress e).delivers

theorem encFinalizeUnit_delivers (e : Enc) : EncDelivers e (encFinalizeUnit e).2 := by
  cases hf : e.fin with
  | true => rw [encFinalizeUnit_of_fin hf]; exact (EncProgress.refl e).delivers
  | false => exact (encFinalizeUnit_flushes hf).1

/-- A command drains bytes that `ENC` was to deliver, in order, or no byte. -/
theorem drained_encAfter_isPrefix (i : Instr) (k : Nat) (e : Enc) :
    drained e.out (encAfter i k e).out <+: encStreamLeft e := by
  have hnone {v : OutView} (h : v.pos ≤ e.out.pos) : drained e.out v <+: encStreamLeft e := by
    rw [drained_of_le h]; exact ⟨_, rfl⟩
  cases i with
  | encEncode => exact ⟨_, (encEncodeUnit_delivers e).left.symm⟩
  | encFinalize => exact ⟨_, (encFinalizeUnit_delivers e).left.symm⟩
  | encInit | encBind | encRebindOut => exact hnone (Nat.zero_le _)
  | _ => exact hnone le_rfl

/-- Settles O34: R100, the bytes drained being bytes that the unit was to deliver. -/
theorem encOutputIsSevenBitClean : Obligations.EncOutputIsSevenBitClean := by
  intro i s t hi h b hb
  obtain ⟨he, -, -, -⟩ := exec_next h
  rw [he] at hb
  exact encStreamLeft_clean hi b ((drained_encAfter_isPrefix i s.free s.enc).subset hb)

end Sys2Proof.Machine
end

section
/-! The stream through `ENC` (R101 to R103): the host's books balance after every command, whatever it may still feed. -/

namespace Sys2Proof.Machine

open Safety

/-! ### The balance of one stream -/

/-- The books of a stream balance: `fed` are the bytes bound so far, `got` those drained, and `closed` says that a `FINALIZE`
has been issued, after which nothing more is fed. Whatever bytes `more` may still follow, what was drained and what the unit
would then deliver is the encoding of the whole. -/
structure EncBalance (e : Enc) (fed got : List Byte) (closed : Bool) : Prop where
  inv : EncInv e
  total : ∀ more, (closed = true → more = []) →
    got ++ (encOwed e ++ mcoded7 (encRaw e ++ more)) = mcoded7 (fed ++ more)
  ended : e.fin = true → closed = true ∧ e.inp.hasByte = false

theorem encBalance_of_fresh {e : Enc} (h : FreshEnc e) : EncBalance e [] [] false := by
  have hi := encInv_of_fresh h
  obtain ⟨hf, hp, hc, -, hin, -⟩ := h
  have hraw : encRaw e = [] := by
    rw [encRaw_of_no_byte (by rw [hin]; rfl), encStaged_of_rcnt_zero hc]
  exact ⟨hi, fun more _ => by rw [encOwed_of_idle hp, hraw]; rfl, fun h => by simp [hf] at h⟩

/-- Once `ENC` is Finalized nothing is left to deliver. -/
theorem EncBalance.got_of_fin {e : Enc} {fed got : List Byte} {closed : Bool} (h : EncBalance e fed got closed)
    (hf : e.fin = true) : got = mcoded7 fed := by
  have htotal := h.total [] fun _ => rfl
  rw [List.append_nil, List.append_nil] at htotal
  rw [← htotal, ← encStreamLeft_eq, encStreamLeft_of_fin h.inv hf (h.ended hf).2, List.append_nil]

section
variable {e : Enc} {fed got : List Byte} {closed : Bool} (h : EncBalance e fed got closed)
include h

/-- A new output view changes nothing that is to be delivered (R83). -/
theorem EncBalance.setOut (v : ViewOperand) : EncBalance { e with out := bindOut v } fed got closed :=
  ⟨h.inv.setOut (bindOut_ok v), h.total, h.ended⟩

/-- A new input view takes the place of an exhausted one, and its bytes follow those staged (R82). -/
theorem EncBalance.setIn {v : ViewOperand} (hmay : mayBindIn e.inp closed v = true) :
    EncBalance { e with inp := bindIn v } (fed ++ v.ref) got closed := by
  simp only [mayBindIn, Bool.and_eq_true, Bool.or_eq_true, Bool.not_eq_true', List.isEmpty_iff] at hmay
  obtain ⟨hx, hclosed⟩ := hmay
  have hempty (hc : closed = true) : v.ref = [] := hclosed.resolve_left (by simp [hc])
  have hraw : encRaw { e with inp := bindIn v } = encRaw e ++ v.ref := by
    rw [encRaw_of_no_byte (hasByte_of_exhausted hx), encRaw, unread_bindIn]
    rfl
  refine ⟨h.inv.setIn (bindIn_ok v), fun more hmore => ?_, fun hf => ?_⟩
  · rw [hraw, List.append_assoc, List.append_assoc]
    exact h.total (v.ref ++ more) fun hc => by rw [hempty hc, hmore hc]; rfl
  · have hc := (h.ended hf).1
    refine ⟨hc, decide_eq_false ?_⟩
    rw [bindIn_len, ViewOperand.bound, hempty hc]
    exact Nat.not_lt_zero _

/-- `ENCODE` only goes on with the blocks (R94). -/
theorem EncBalance.encode : EncBalance (encEncodeUnit e).2 fed (got ++ drained e.out (encEncodeUnit e).2.out) closed := by
  cases hf : e.fin with
  | true =>
    rw [encEncodeUnit_of_fin hf, drained_self, List.append_nil]
    exact h
  | false =>
    rw [encEncodeUnit_of_streaming hf]
    have hf' := (encRun_keeps e).fin.trans hf
    refine ⟨encRun_inv h.inv hf, fun more hmore => ?_, fun hf'' => by simp [hf'] at hf''⟩
    have hleft := (encRun_progress e).left (code := fun l => mcoded7 (l ++ more)) fun r l =>
      (congrArg mcoded7 (List.append_assoc _ l more)).trans (mcoded7_block_append r _)
    rw [← h.total more hmore, hleft, List.append_assoc]

/-- After `FINALIZE` the unit has the encoding of the whole to deliver, the last block padded (R95). -/
theorem EncBalance.finalize :
    EncBalance (encFinalizeUnit e).2 fed (got ++ drained e.out (encFinalizeUnit e).2.out) true := by
  refine ⟨(encFinalizeUnit_moves e).keep encMove_inv h.inv, fun more hmore => ?_, fun hf' => ⟨rfl, ?_⟩⟩
  · have htotal := h.total [] fun _ => rfl
    have hleft := (encFinalizeUnit_delivers e).left
    rw [hmore rfl]
    rw [List.append_nil, ← encStreamLeft_eq] at htotal ⊢
    rw [← htotal, hleft, List.append_assoc]
  · cases hf : e.fin with
    | true =>
      rw [encFinalizeUnit_of_fin hf]
      exact (h.ended hf).2
    | false =>
      rcases (encFinalizeUnit_flushes hf).2 with ⟨-, hfin, -⟩ | ⟨-, -, hb⟩
      · simp [hfin] at hf'
      · exact hb

end

/-! ### The books -/

theorem encEnter_eq_some {b b' : Books} {i : Instr} (h : encEnter b i = some b') :
    encMay b i = true ∧ b'.st.enc = encAfter i b.st.free b.st.enc ∧ b'.fed = b.fed ++ encFeeds i ∧
      b'.got = b.got ++ drained b.st.enc.out b'.st.enc.out ∧
      b'.finalizing = (b.finalizing || decide (i = .encFinalize)) := by
  obtain ⟨t, ht⟩ := exec_accepts i b.st
  obtain ⟨he, -, -, -⟩ := exec_next ht
  rw [encEnter, ht, Option.ite_none_right_eq_some] at h
  obtain ⟨hmay, hb⟩ := h
  cases hb
  exact ⟨hmay, he, rfl, rfl, rfl⟩

/-- The books of `b` balance. -/
abbrev EncBooksBalance (b : Books) : Prop := EncBalance b.st.enc b.fed b.got b.finalizing

theorem encEnter_balance {b b' : Books} {i : Instr} (h : encEnter b i = some b') (hb : EncBooksBalance b) :
    EncBooksBalance b' := by
  obtain ⟨hmay, he, hfed, hgot, hfin⟩ := encEnter_eq_some h
  rw [EncBooksBalance, hfed, hgot, hfin, he]
  cases i with
  | encInit => simp [encMay] at hmay
  | encBind v w => simpa [encFeeds, encAfter] using (hb.setIn hmay).setOut w
  | encRebindIn v => simpa [encFeeds, encAfter] using hb.setIn hmay
  | encRebindOut w => simpa [encFeeds, encAfter] using hb.setOut w
  | encEncode => simpa [encFeeds, encAfter] using hb.encode
  | encFinalize => simpa [encFeeds, encAfter] using hb.finalize
  | _ => simpa [encFeeds, encAfter] using hb

theorem encBooks_balance {cmds : List Instr} {b b' : Books} (h : encBooks cmds b = some b') (hb : EncBooksBalance b) :
    EncBooksBalance b' := by
  induction cmds generalizing b with
  | nil => cases h; exact hb
  | cons i is ih =>
    obtain ⟨c, hc, hrest⟩ := Option.bind_eq_some_iff.1 h
    exact ih hrest (encEnter_balance hc hb)

/-! ### The stream laws -/

/-- Settles O52: R101, the balance of the books at their end, by induction over the commands. -/
theorem encStreamIsMcoded7OfTheInput : Obligations.EncStreamIsMcoded7OfTheInput := fun _ _ _ hs h hf =>
  (encBooks_balance h (encBalance_of_fresh hs)).got_of_fin hf

/-- Settles O53: R102, the length of `Mcoded7`. -/
theorem encStreamLength : Obligations.EncStreamLength := by
  intro s cmds b hs h hf
  rw [encStreamIsMcoded7OfTheInput s cmds b hs h hf, length_mcoded7]

/-- Settles O54: R103, since padding puts the same zero bytes there. -/
theorem noLengthIsCarried : Obligations.NoLengthIsCarried := by
  intro s s' cmds cmds' b b' z hs hs' h h' hf hf' hlen hz hfed
  rw [encStreamIsMcoded7OfTheInput s cmds b hs h hf, encStreamIsMcoded7OfTheInput s' cmds' b' hs' h' hf', hfed,
    mcoded7_append_zeros hlen hz]

end Sys2Proof.Machine
end

section
/-! The decoding of a byte sequence (R122): block by block, with the last part zero-padded (R115, R116). -/

namespace Sys2Proof.Machine

open Safety

/-! ### Encoded blocks as byte sequences -/

/-- The encoded block that starts with the bytes of `l` and goes on with zeros (R115). -/
def zeroFilled (l : List Byte) : EncodedBlock :=
  #v[l.getD 0 0, l.getD 1 0, l.getD 2 0, l.getD 3 0, l.getD 4 0, l.getD 5 0, l.getD 6 0, l.getD 7 0]

theorem getElem_zeroFilled (l : List Byte) (i : Nat) (h : i < 8) : (zeroFilled l)[i] = l.getD i 0 := by
  interval_cases i <;> rfl

theorem encodedBlock_eta (e : EncodedBlock) : #v[e[0], e[1], e[2], e[3], e[4], e[5], e[6], e[7]] = e :=
  Vector.ext fun i h => by interval_cases i <;> rfl

/-- A sequence is a last part of fewer than eight bytes, or an encoded block followed by a sequence. -/
theorem encodedBlocks_induct {P : List Byte → Prop} (last : ∀ l, l.length < 8 → P l)
    (block : ∀ (e : EncodedBlock) l, P l → P (e.toList ++ l)) (l : List Byte) : P l := by
  induction hn : l.length using Nat.strong_induction_on generalizing l with
  | _ n ih =>
    by_cases h : l.length < 8
    · exact last l h
    · have hlen : (l.take 8).length = 8 := by rw [List.length_take]; omega
      have hl : l = (Vector.mk (l.take 8).toArray hlen).toList ++ l.drop 8 := (List.take_append_drop 8 l).symm
      rw [hl]
      exact block _ _ (ih _ (by rw [List.length_drop]; omega) _ rfl)

/-! ### The decoded stream -/

section
variable (p : TailPolicy)

@[simp] theorem unmcoded7_nil : unmcoded7 p [] = [] := rfl

theorem unmcoded7_block_append (e : EncodedBlock) (l : List Byte) :
    unmcoded7 p (e.toList ++ l) = (decodeBlock e).toList ++ unmcoded7 p l := by
  rw [← encodedBlock_eta e]
  rfl

/-- Of the last part of a stream, decoded with zeros for the bytes that are missing, the first bytes are delivered (R116). -/
theorem unmcoded7_of_length_lt {l : List Byte} (h0 : l ≠ []) (h : l.length < 8) :
    unmcoded7 p l = (decodeBlock (zeroFilled l)).toList.take (tailBytes p l.length) := by
  match l, h0, h with
  | [_], _, _ | [_, _], _, _ | [_, _, _], _, _ | [_, _, _, _], _, _ | [_, _, _, _, _], _, _
  | [_, _, _, _, _, _], _, _ | [_, _, _, _, _, _, _], _, _ => rfl

theorem tailBytes_le {k : Nat} (h : k ≤ 8) : tailBytes p k ≤ 7 := by
  cases p with
  | drainAll => exact le_rfl
  | suppressPad => exact Nat.sub_le_of_le_add h

theorem length_unmcoded7 (l : List Byte) :
    (unmcoded7 p l).length =
      7 * (l.length / 8) + if l.length % 8 = 0 then 0 else tailBytes p (l.length % 8) := by
  induction l using encodedBlocks_induct with
  | last l h =>
    rw [Nat.div_eq_of_lt h, Nat.mod_eq_of_lt h]
    by_cases h0 : l = []
    · subst h0; rfl
    · rw [unmcoded7_of_length_lt p h0 h, List.length_take, Vector.length_toList, min_eq_left (tailBytes_le p h.le),
        if_neg (by simpa using h0)]
      omega
  | block e l ih =>
    rw [unmcoded7_block_append, List.length_append, List.length_append, ih, Vector.length_toList, Vector.length_toList,
      Nat.add_mod_left]
    omega

end

/-! ### Whole blocks and the last part -/

theorem wholeBlocks_encoded_of_length_lt {l : List Byte} (h : l.length < 8) : wholeBlocks 8 l = [] := by
  rw [wholeBlocks, Nat.div_eq_of_lt h]
  rfl

theorem lastPart_encoded_of_length_lt {l : List Byte} (h : l.length < 8) : lastPart 8 l = l := by
  rw [lastPart, Nat.div_eq_of_lt h]
  rfl

theorem length_encodedBlock_append (e : EncodedBlock) (l : List Byte) :
    8 * ((e.toList ++ l).length / 8) = e.toList.length + 8 * (l.length / 8) := by
  rw [List.length_append, Vector.length_toList]
  omega

theorem wholeBlocks_encodedBlock_append (e : EncodedBlock) (l : List Byte) :
    wholeBlocks 8 (e.toList ++ l) = e.toList ++ wholeBlocks 8 l := by
  rw [wholeBlocks, length_encodedBlock_append, List.take_length_add_append]
  rfl

theorem lastPart_encodedBlock_append (e : EncodedBlock) (l : List Byte) :
    lastPart 8 (e.toList ++ l) = lastPart 8 l := by
  rw [lastPart, length_encodedBlock_append, List.drop_length_add_append]
  rfl

/-! ### Decoding the encoded stream -/

theorem toList_zeroPadded {l : List Byte} (h : l.length ≤ 7) :
    (zeroPadded l).toList = l ++ List.replicate (7 - l.length) 0 := by
  refine List.ext_getElem (by simp; omega) fun i hi _ => ?_
  rw [Vector.getElem_toList, getElem_zeroPadded, List.getElem_append]
  split
  · exact List.getD_eq_getElem _ _ ‹_›
  · rw [List.getD_eq_default _ _ (Nat.not_lt.1 ‹_›), List.getElem_replicate]

/-- What comes back is the stream and its zero padding (R121), under either policy: an encoded stream is all whole blocks. -/
theorem unmcoded7_mcoded7 (p : TailPolicy) (l : List Byte) :
    unmcoded7 p (mcoded7 l) = l ++ List.replicate ((7 - l.length % 7) % 7) 0 := by
  induction l using rawBlocks_induct with
  | last l h =>
    by_cases h0 : l = []
    · subst h0; rfl
    · have hpos := List.length_pos_iff.2 h0
      rw [mcoded7_of_length_le h0 h.le, ← List.append_nil (encodeBlock _).toList, unmcoded7_block_append,
        decodeBlock_encodeBlock, unmcoded7_nil, List.append_nil, toList_zeroPadded h.le, Nat.mod_eq_of_lt h,
        Nat.mod_eq_of_lt (by omega)]
  | block r l ih =>
    rw [mcoded7_block_append, unmcoded7_block_append, decodeBlock_encodeBlock, ih, List.append_assoc, List.length_append,
      Vector.length_toList, Nat.add_mod_left]

end Sys2Proof.Machine
end

section
/-! The loops of `DEC` as the spec writes them, and what `DecDrain` delivers (R111 to R113). -/

namespace Sys2Proof.Machine

open Safety

/-! ### The loop equations -/

theorem decDrain_eq (d : Dec) :
    decDrain d = if d.pend = true ∧ d.out.pos < d.out.cap then decDrain (decDrainByte d) else d := by
  split
  · rename_i h
    exact decDrain_of_room h.1 (decide_eq_true h.2)
  · rename_i h
    cases hp : d.pend with
    | true => exact decDrain_of_no_room (decide_eq_false fun hr => h ⟨hp, hr⟩)
    | false => exact decDrain_idle d hp

theorem decFill_eq (d : Dec) :
    decFill d =
      if d.inp.pos < d.inp.len then
        if d.ecnt = 7 then (.full, decTransform 7 (decStageByte d))
        else decFill { decStageByte d with ecnt := d.ecnt + 1 }
      else (.starved, d) := by
  split
  · split
    · exact decFill_of_last_byte (decide_eq_true ‹_›) ‹_›
    · exact decFill_of_byte (decide_eq_true ‹_›) ‹_›
  · exact decFill_of_no_byte (decide_eq_false ‹_›)

/-- The drain stops at once where there is nothing to drain or no room. -/
theorem decDrain_induct {P : Dec → Dec → Prop}
    (drain : ∀ d d', d.pend = true → d.out.hasRoom = true → P (decDrainByte d) d' → P d d')
    (stop : ∀ d, (d.pend = true → d.out.hasRoom = false) → P d d) (d : Dec) : P d (decDrain d) := by
  induction h : d.out.room using Nat.strong_induction_on generalizing d with
  | _ n ih =>
    subst h
    rw [decDrain_eq]
    split
    · rename_i h
      have hr : d.out.hasRoom = true := decide_eq_true h.2
      have := room_drain d.out d.rs[d.rcnt] hr
      exact drain d _ h.1 hr (ih _ (by rw [decDrainByte_out]; omega) _ rfl)
    · rename_i h
      exact stop d fun hp => decide_eq_false fun hr => h ⟨hp, hr⟩

theorem decDrain_no_room (d : Dec) : (decDrain d).pend = true → (decDrain d).out.hasRoom = false :=
  decDrain_induct (P := fun _ d' => d'.pend = true → d'.out.hasRoom = false) (fun _ _ _ _ ih => ih) (fun _ h => h) d

/-- A run begins with a drain. -/
theorem decRun_decDrain (d : Dec) : decRun d = decRun (decDrain d) :=
  decDrain_induct (P := fun d d' => decRun d = decRun d') (fun _ _ hp hr ih => (decRun_of_room hp hr).trans ih)
    (fun _ _ => rfl) d

theorem decRun_eq (d : Dec) :
    decRun d =
      if (decDrain d).pend = true then (.needsMoreOutput, decDrain d)
      else if (decFill (decDrain d)).1 = .starved then (.allInputConsumed, (decFill (decDrain d)).2)
      else decRun (decFill (decDrain d)).2 := by
  rw [decRun_decDrain]
  split
  · exact decRun_of_no_room ‹_› (decDrain_no_room d ‹_›)
  · rw [decRun_of_idle (Bool.eq_false_iff.2 ‹_›)]
    cases (decFill (decDrain d)).1 <;> simp

/-- Settles O35: R111, R112 and R113, one equation for each loop. -/
theorem decLoopsFollowTheSpec : Obligations.DecLoopsFollowTheSpec :=
  fun d => ⟨decDrain_eq d, decFill_eq d, decRun_eq d⟩

/-! ### The bytes owed -/

/-- R19(d): a pending block has a byte to deliver. -/
abbrev DecOwes (d : Dec) : Prop := d.pend = true → d.rcnt.val < d.rlim.val

theorem decOwed_of_pend {d : Dec} (hp : d.pend = true) :
    decOwed d = (d.rs.toList.take d.rlim.val).drop d.rcnt.val := if_pos hp

theorem decOwed_of_idle {d : Dec} (hp : d.pend = false) : decOwed d = [] := by simp [decOwed, hp]

theorem length_decOwed (d : Dec) : (decOwed d).length = if d.pend then d.rlim.val - d.rcnt.val else 0 := by
  unfold decOwed
  split
  · rw [List.length_drop, List.length_take, Vector.length_toList, min_eq_left (Nat.le_of_lt_succ d.rlim.isLt)]
  · rfl

theorem DecOwes.ne_nil {d : Dec} (h : DecOwes d) (hp : d.pend = true) : decOwed d ≠ [] := by
  have := h hp
  rw [← List.length_pos_iff, length_decOwed, if_pos hp]
  omega

theorem DecOwes.drainByte {d : Dec} (h : DecOwes d) : DecOwes (decDrainByte d) := by
  rcases decDrainByte_cases d with ⟨-, hd⟩ | ⟨hl, hd⟩
  · simp [hd]
  · rw [hd]
    exact fun hp => rcnt_succ_lt (h hp) hl

/-- The byte drained is the first owed (R111). -/
theorem DecOwes.decOwed_eq_cons {d : Dec} (h : DecOwes d) (hp : d.pend = true) :
    decOwed d = d.rs[d.rcnt] :: decOwed (decDrainByte d) := by
  have hlt := h hp
  have hlim := d.rlim.isLt
  rw [decOwed_of_pend hp, List.drop_eq_getElem_cons (by simp; omega)]
  refine congrArg₂ _ (by simp) ?_
  rcases decDrainByte_cases d with ⟨hc, hd⟩ | ⟨hc, hd⟩
  · rw [hd, decOwed_of_idle rfl, hc]
    exact List.drop_of_length_le (by simp)
  · rw [hd, decOwed_of_pend (by exact hp), Fin.val_add_one_of_lt (by simp only [Fin.lt_def, Fin.val_last]; omega)]

/-- `d'` is `d` after some drained bytes and nothing else (R111). -/
structure DecDrained (d d' : Dec) : Prop where
  grown : d.out.Grown d'.out
  owed : decOwed d = drained d.out d'.out ++ decOwed d'
  owes : DecOwes d'
  pending : d'.pend = true → d.pend = true ∧ d'.rlim = d.rlim
  delivered : d'.pend = false → d'.rcnt = (if d.pend then 0 else d.rcnt) ∧ d'.rlim = if d.pend then 7 else d.rlim
  rest : d' = { d with out := d'.out, pend := d'.pend, rcnt := d'.rcnt, rlim := d'.rlim }

theorem DecDrained.refl {d : Dec} (h : DecOwes d) : DecDrained d d :=
  ⟨.refl _, by rw [drained_self]; rfl, h, fun hp => ⟨hp, rfl⟩, fun hp => by simp [hp], rfl⟩

theorem DecDrained.head {d d' : Dec} (ho : DecOwes d) (hp : d.pend = true) (hr : d.out.hasRoom = true)
    (h : DecDrained (decDrainByte d) d') : DecDrained d d' := by
  have hbyte : d.out.Grown (decDrainByte d).out := by rw [decDrainByte_out]; exact OutView.grown_drain _ hr
  have howed : decOwed d = drained d.out (decDrainByte d).out ++ decOwed (decDrainByte d) := by
    rw [decDrainByte_out, drained_drain, ho.decOwed_eq_cons hp]; rfl
  refine ⟨hbyte.trans h.grown, ?_, h.owes, fun hp' => ?_, fun hp' => ?_, ?_⟩
  · rw [howed, h.owed, hbyte.drained_append h.grown, List.append_assoc]
  · obtain ⟨hp1, hl⟩ := h.pending hp'
    rcases decDrainByte_cases d with ⟨-, hd⟩ | ⟨-, hd⟩
    · simp [hd] at hp1
    · exact ⟨hp, by rw [hl, hd]⟩
  · obtain ⟨hcnt, hlim⟩ := h.delivered hp'
    rw [hcnt, hlim]
    rcases decDrainByte_cases d with ⟨-, hd⟩ | ⟨-, hd⟩ <;> simp [hd, hp]
  · rw [h.rest]
    rcases decDrainByte_cases d with ⟨-, hd⟩ | ⟨-, hd⟩ <;> rw [hd]

theorem decDrain_drained (d : Dec) : DecOwes d → DecDrained d (decDrain d) :=
  decDrain_induct (P := fun d d' => DecOwes d → DecDrained d d')
    (fun _ _ hp hr ih ho => .head ho hp hr (ih ho.drainByte)) (fun _ _ => .refl) d

/-- The drain stops when the bytes owed or the room is used up, so it drains the lesser of the two numbers (R111). -/
theorem length_drained_decDrain {d : Dec} (ho : DecOwes d) :
    (drained d.out (decDrain d).out).length = min (decOwed d).length d.out.room := by
  have h := decDrain_drained d ho
  have howed := congrArg List.length h.owed
  have hroom := h.grown.length_add_room
  rw [List.length_append] at howed
  cases hp : (decDrain d).pend with
  | true =>
    have := room_of_no_room (decDrain_no_room d hp)
    omega
  | false =>
    rw [decOwed_of_idle hp, List.length_nil] at howed
    omega

/-- Settles O37: R111, from what was owed being what was drained and what is still owed. -/
theorem decDrainDeliversWhatTheViewAccepts : Obligations.DecDrainDeliversWhatTheViewAccepts := by
  intro d p c n ho hp hc hn
  have h := decDrain_drained d ho
  have hle := h.grown.le
  have hlen : (drained d.out (decDrain d).out).length = n := by
    rw [length_drained_decDrain ho, length_decOwed, ← hp, ← hc, ← hn]
  have howed : p = n + if (decDrain d).pend then (decDrain d).rlim.val - (decDrain d).rcnt.val else 0 := by
    rw [hp, ← length_decOwed, h.owed, List.length_append, hlen, length_decOwed]
  refine ⟨by rw [length_drained] at hlen; omega, by rw [h.owed, List.take_left' hlen], h.grown.only, ?_⟩
  cases hp' : (decDrain d).pend with
  | true =>
    obtain ⟨hpend, hlim⟩ := h.pending hp'
    have howes := h.owes hp'
    rw [if_pos hp', hlim] at howed
    rw [if_pos hpend] at hp
    rw [hlim] at howes
    have hlt : n < p := by omega
    exact ⟨by simpa using hlt, by rw [if_pos hlt]; omega, by rw [if_neg (by omega), hlim], hp' ▸ h.rest⟩
  | false =>
    obtain ⟨hcnt, hlim⟩ := h.delivered hp'
    rw [if_neg (by simp [hp'])] at howed
    have hnp : n = p := howed.symm
    rw [if_neg hnp.not_lt]
    exact ⟨by simp [hnp], by rw [hcnt]; split <;> rfl, by simp [hlim, hnp], hp' ▸ h.rest⟩

end Sys2Proof.Machine
end

section
/-! What a run of `DEC` consumes and delivers, in whole blocks (R112, R113), and with it `DEC.DECODE` (R114, R120). -/

namespace Sys2Proof.Machine

open Safety

/-! ### The encoded bytes at hand -/

/-- The encoded bytes that `DEC` has at hand: those staged, then those unread. -/
def decEncoded (d : Dec) : List Byte := decStaged d ++ unread d.inp

theorem decStreamLeft_eq (p : TailPolicy) (d : Dec) : decStreamLeft p d = decOwed d ++ unmcoded7 p (decEncoded d) := rfl

theorem length_decStaged (d : Dec) : (decStaged d).length = d.ecnt.val := by
  rw [decStaged, List.length_take, Vector.length_toList]
  exact Nat.min_eq_left d.ecnt.isLt.le

theorem length_decEncoded (d : Dec) : (decEncoded d).length = d.ecnt.val + d.inp.avail := by
  rw [decEncoded, List.length_append, length_decStaged, length_unread]

theorem decStaged_of_ecnt_zero {d : Dec} (h : d.ecnt = 0) : decStaged d = [] := by simp [decStaged, h]

theorem decEncoded_of_no_byte {d : Dec} (hb : d.inp.hasByte = false) : decEncoded d = decStaged d := by
  rw [decEncoded, unread_of_no_byte hb, List.append_nil]

/-- The encoded bytes at hand once the byte pulled has been stored in `ES[ECNT]`. -/
theorem decEncoded_eq_take_stage {d : Dec} (hb : d.inp.hasByte = true) :
    decEncoded d = (decStageByte d).es.toList.take (d.ecnt.val + 1) ++ unread d.inp.pull := by
  rw [decEncoded, unread_of_byte hb, List.append_cons, decStageByte_es, Vector.toList_set, List.take_add_one,
    List.take_set_of_le le_rfl, List.getElem?_set_self (by simp)]
  rfl

/-- Staging a byte moves it from the unread bytes to the staged ones (R112). -/
theorem decEncoded_stageByte {d : Dec} (hb : d.inp.hasByte = true) (hc : d.ecnt ≠ 7) :
    decEncoded { decStageByte d with ecnt := d.ecnt + 1 } = decEncoded d := by
  rw [decEncoded_eq_take_stage hb, decEncoded, decStaged, Fin.val_add_one_of_lt (Fin.lt_last_iff_ne_last.2 hc)]
  rfl

/-- With the eighth byte `ES` holds a whole block (R112). -/
theorem decEncoded_last_byte {d : Dec} (hb : d.inp.hasByte = true) (hc : d.ecnt = 7) :
    decEncoded d = (decStageByte d).es.toList ++ decEncoded (decTransform 7 (decStageByte d)) := by
  rw [decEncoded_eq_take_stage hb, hc, List.take_of_length_le (by simp), decEncoded, decStaged_of_ecnt_zero rfl]
  rfl

/-- The transform of `n` bytes to deliver owes the first `n` of the decoded block (R112). -/
theorem decOwed_transform (n : Fin 8) (d : Dec) :
    decOwed (decTransform n d) = (decodeBlock d.es).toList.take n.val := rfl

/-! ### Progress in whole blocks -/

/-- The bytes of a sequence of encoded blocks. -/
def blockBytes (bs : List EncodedBlock) : List Byte := bs.flatMap Vector.toList

/-- The bytes of their decodings. -/
def decodedBytes (bs : List EncodedBlock) : List Byte := bs.flatMap fun e => (decodeBlock e).toList

theorem blockBytes_cons_append (e : EncodedBlock) (bs : List EncodedBlock) (l : List Byte) :
    blockBytes (e :: bs) ++ l = e.toList ++ (blockBytes bs ++ l) := by
  rw [blockBytes, List.flatMap_cons, List.append_assoc]
  rfl

theorem length_blockBytes (bs : List EncodedBlock) : (blockBytes bs).length = 8 * bs.length := by
  simp [blockBytes, List.length_flatMap, Nat.mul_comm]

theorem length_decodedBytes (bs : List EncodedBlock) : (decodedBytes bs).length = 7 * bs.length := by
  simp [decodedBytes, List.length_flatMap, Nat.mul_comm]

theorem lastPart_blockBytes_append (bs : List EncodedBlock) (l : List Byte) :
    lastPart 8 (blockBytes bs ++ l) = lastPart 8 l := by
  induction bs with
  | nil => rfl
  | cons e bs ih => rw [blockBytes_cons_append, lastPart_encodedBlock_append, ih]

/-- A decoding that takes whole blocks as they come. -/
abbrev DecodesBlockwise (decoding : List Byte → List Byte) : Prop :=
  ∀ (e : EncodedBlock) (l : List Byte), decoding (e.toList ++ l) = (decodeBlock e).toList ++ decoding l

theorem DecodesBlockwise.blockBytes_append {decoding : List Byte → List Byte} (h : DecodesBlockwise decoding)
    (bs : List EncodedBlock) (l : List Byte) : decoding (blockBytes bs ++ l) = decodedBytes bs ++ decoding l := by
  induction bs with
  | nil => rfl
  | cons e bs ih =>
    rw [blockBytes_cons_append, h, ih, decodedBytes, decodedBytes, List.flatMap_cons, List.append_assoc]

/-- From `d` to `d'` whole blocks were consumed and decoded, and bytes owed were drained; nothing else of the views
changed. -/
structure DecProgress (d d' : Dec) : Prop where
  grown : d.out.Grown d'.out
  pulled : PulledOnly d.inp d'.inp
  blocks : ∃ bs : List EncodedBlock, decEncoded d = blockBytes bs ++ decEncoded d' ∧
    decOwed d ++ decodedBytes bs = drained d.out d'.out ++ decOwed d'

theorem DecProgress.trans {a b c : Dec} (h : DecProgress a b) (k : DecProgress b c) : DecProgress a c := by
  obtain ⟨bs, hin, hout⟩ := h.blocks
  obtain ⟨cs, kin, kout⟩ := k.blocks
  refine ⟨h.grown.trans k.grown, ⟨k.pulled.1.trans h.pulled.1, k.pulled.2.trans h.pulled.2⟩, bs ++ cs, ?_, ?_⟩
  · rw [hin, kin, blockBytes, blockBytes, blockBytes, List.flatMap_append, List.append_assoc]
  · calc decOwed a ++ decodedBytes (bs ++ cs)
      _ = drained a.out b.out ++ (decOwed b ++ decodedBytes cs) := by
        rw [decodedBytes, List.flatMap_append, ← List.append_assoc, ← List.append_assoc, ← hout]; rfl
      _ = drained a.out c.out ++ decOwed c := by rw [kout, h.grown.drained_append k.grown, List.append_assoc]

/-- While nothing is drained, the bytes owed are those of the blocks decoded. -/
theorem decProgress_of_out_eq {d d' : Dec} (bs : List EncodedBlock) (hout : d'.out = d.out) (hp : PulledOnly d.inp d'.inp)
    (hin : decEncoded d = blockBytes bs ++ decEncoded d') (howed : decOwed d ++ decodedBytes bs = decOwed d') :
    DecProgress d d' :=
  ⟨hout ▸ .refl _, hp, bs, hin, by rw [howed, hout, drained_self]; rfl⟩

theorem DecProgress.refl (d : Dec) : DecProgress d d :=
  decProgress_of_out_eq [] rfl ⟨rfl, rfl⟩ rfl (List.append_nil _)

theorem DecDrained.progress {d d' : Dec} (h : DecDrained d d') : DecProgress d d' :=
  ⟨h.grown, by rw [h.rest]; exact ⟨rfl, rfl⟩, [], by rw [h.rest]; rfl, by rw [← h.owed]; exact List.append_nil _⟩

theorem decDrainByte_progress {d : Dec} (ho : DecOwes d) (hp : d.pend = true) (hr : d.out.hasRoom = true) :
    DecProgress d (decDrainByte d) := (DecDrained.head ho hp hr (.refl ho.drainByte)).progress

theorem decStageByte_progress {d : Dec} (hp : d.pend = false) (hb : d.inp.hasByte = true) (hc : d.ecnt ≠ 7) :
    DecProgress d { decStageByte d with ecnt := d.ecnt + 1 } :=
  decProgress_of_out_eq [] rfl (pulledOnly_pull d.inp) (decEncoded_stageByte hb hc).symm
    (by rw [decOwed_of_idle hp, decOwed_of_idle (by exact hp)]; rfl)

theorem decLastByte_progress {d : Dec} (hp : d.pend = false) (hb : d.inp.hasByte = true) (hc : d.ecnt = 7) :
    DecProgress d (decTransform 7 (decStageByte d)) :=
  decProgress_of_out_eq [(decStageByte d).es] rfl (pulledOnly_pull d.inp)
    ((decEncoded_last_byte hb hc).trans (by simp [blockBytes]))
    (by rw [decOwed_of_idle hp, decOwed_transform, List.take_of_length_le (by simp)]; simp [decodedBytes])

/-- The run keeps R19(d), without which a drained byte need not be one owed. -/
theorem decRun_progress (d : Dec) : DecOwes d → DecProgress d (decRun d).2 :=
  decRun_induct (P := fun d r => DecOwes d → DecProgress d r.2)
    (fun _ _ hp hr ih ho => (decDrainByte_progress ho hp hr).trans (ih ho.drainByte))
    (fun d _ _ _ => .refl d)
    (fun _ _ hp hb hc ih ho => (decStageByte_progress hp hb hc).trans (ih ho))
    (fun _ _ hp hb hc ih _ => (decLastByte_progress hp hb hc).trans (ih fun _ => by simp))
    (fun d _ _ _ => .refl d) d

/-- What is to be delivered is what was drained and what is still to be delivered. -/
theorem DecProgress.left {d d' : Dec} (h : DecProgress d d') {decoding : List Byte → List Byte}
    (hdec : DecodesBlockwise decoding) :
    decOwed d ++ decoding (decEncoded d) = drained d.out d'.out ++ (decOwed d' ++ decoding (decEncoded d')) := by
  obtain ⟨bs, hin, hout⟩ := h.blocks
  rw [hin, hdec.blockBytes_append, ← List.append_assoc, hout, List.append_assoc]

theorem DecProgress.streamLeft {d d' : Dec} (h : DecProgress d d') (p : TailPolicy) :
    decStreamLeft p d = drained d.out d'.out ++ decStreamLeft p d' := h.left (unmcoded7_block_append p)

theorem DecProgress.blocksLeft {d d' : Dec} (h : DecProgress d d') :
    decBlocksLeft d = drained d.out d'.out ++ decBlocksLeft d' :=
  h.left (decoding := fun l => unmcoded7 .drainAll (wholeBlocks 8 l)) fun e l =>
    (congrArg (unmcoded7 _) (wholeBlocks_encodedBlock_append e l)).trans (unmcoded7_block_append _ e _)

theorem DecProgress.lastPart {d d' : Dec} (h : DecProgress d d') :
    lastPart 8 (decEncoded d) = lastPart 8 (decEncoded d') := by
  obtain ⟨bs, hin, -⟩ := h.blocks
  rw [hin, lastPart_blockBytes_append]

/-- How many bytes: eight encoded bytes for every seven raw ones. -/
theorem DecProgress.counts {d d' : Dec} (h : DecProgress d d') :
    ∃ n, d.ecnt.val + d.inp.avail = 8 * n + (d'.ecnt.val + d'.inp.avail) ∧
      (decOwed d).length + 7 * n = (d'.out.pos - d.out.pos) + (decOwed d').length := by
  obtain ⟨bs, hin, hout⟩ := h.blocks
  have hin := congrArg List.length hin
  have hout := congrArg List.length hout
  simp only [List.length_append, length_blockBytes, length_decodedBytes, length_decEncoded, length_drained] at hin hout
  exact ⟨bs.length, hin, hout⟩

/-! ### `DEC.DECODE` -/

theorem decDecodeUnit_of_streaming {d : Dec} (hf : d.fin = false) :
    decDecodeUnit d = (runRsp (decRun d).1, (decRun d).2) := if_neg (by simp [hf])

theorem decRun_inv {p : TailPolicy} {d : Dec} (h : DecInv p d) (hf : d.fin = false) : DecInv p (decRun d).2 :=
  (decRun_moves p d hf).keep decMove_inv h

/-- The state that `DEC.DECODE` leaves of a Streaming unit (R114). -/
theorem exec_decDecode_of_streaming {s : State} (hf : s.dec.fin = false) :
    exec .decDecode s = .next (respond (runRsp (decRun s.dec).1) { s with dec := (decRun s.dec).2 }) := by
  simp only [exec, execDecDecode, decDecodeUnit_of_streaming hf]

/-- A run that stops for want of room has decoded `n` blocks, the last of them still pending. -/
structure DecBlockedAfter (n : Nat) (d : Dec) (r : RunEnd × Dec) : Prop where
  status : r.1 = .needsMoreOutput
  pend : r.2.pend = true
  ecnt : r.2.ecnt = 0
  pulled : r.2.inp.pos = d.inp.pos + (8 * n - d.ecnt.val) ∧ 8 * n ≤ d.ecnt.val + d.inp.avail
  drained : r.2.out.pos = d.out.pos + d.out.room
  owed : (decOwed d).length + 7 * n = d.out.room + (r.2.rlim.val - r.2.rcnt.val)

/-- A run that stops for want of input has decoded and delivered `n` blocks, all that there were. -/
structure DecStarvedAfter (n : Nat) (d : Dec) (r : RunEnd × Dec) : Prop where
  status : r.1 = .allInputConsumed
  pend : r.2.pend = false
  rcnt : r.2.rcnt = 0
  pulled : r.2.inp.pos = d.inp.pos + d.inp.avail
  drained : r.2.out.pos = d.out.pos + ((decOwed d).length + 7 * n)
  fits : (decOwed d).length + 7 * n ≤ d.out.room
  staged : d.ecnt.val + d.inp.avail = 8 * n + r.2.ecnt.val

/-- The two ways in which a run ends, with what it has pulled and drained (R120). -/
theorem decRun_counts {p : TailPolicy} {d : Dec} (hi : DecInv p d) (hf : d.fin = false) :
    ∃ n, DecBlockedAfter n d (decRun d) ∨ DecStarvedAfter n d (decRun d) := by
  have hprog := decRun_progress d hi.pendingOwes
  have hi' := decRun_inv hi hf
  obtain ⟨n, hin, hout⟩ := hprog.counts
  have hle := hprog.grown.le
  have hroom := hprog.grown.room
  have hpulled : (decRun d).2.inp.pos + (decRun d).2.inp.avail = d.inp.pos + d.inp.avail := by
    have := hi.inBounded
    have := hi'.inBounded
    have := hprog.pulled.1
    simp only [InView.avail]
    omega
  rcases decRun_stopped d with ⟨hr, hp, hs⟩ | ⟨hr, hp, hs⟩
  · have hc := hi'.pendingUnstaged hp
    have howes := hi'.pendingOwes hp
    have hfull := room_of_no_room hs
    rw [length_decOwed (decRun d).2, if_pos hp] at hout
    rw [hc, Fin.val_zero] at hin
    have hstaged : d.ecnt.val ≤ 8 * n := by
      cases hp0 : d.pend with
      | true => simp [hi.pendingUnstaged hp0]
      | false =>
        rw [decOwed_of_idle hp0, List.length_nil] at hout
        omega
    exact ⟨n, .inl ⟨hr, hp, hc, ⟨by omega, by omega⟩, by omega, by omega⟩⟩
  · have hstarved : (decRun d).2.inp.avail = 0 := by rw [← length_unread, unread_of_no_byte hs, List.length_nil]
    rw [decOwed_of_idle hp, List.length_nil] at hout
    exact ⟨n, .inr ⟨hr, hp, hi'.notPendingDrained hp, by omega, by omega, by omega, by omega⟩⟩

/-- Settles O38: R120, by the way in which the run ends; the number of blocks decoded follows from the counts. -/
theorem decodeClosedForm : Obligations.DecodeClosedForm := by
  intro s p q a c c' B m hi hf hp hq ha hc hc' hB hm
  have hlim : s.dec.rlim = 7 := hi.limitDrainAll rfl
  have hlim' : (decRun s.dec).2.rlim = 7 := (decRun_inv hi hf).limitDrainAll rfl
  rw [← length_decOwed] at hp
  have hprog := decRun_progress s.dec hi.pendingOwes
  refine ⟨_, exec_decDecode_of_streaming hf, ⟨rfl, rfl, rfl⟩, (decRun_keeps s.dec).fin.trans hf, hlim', hprog.pulled,
    hprog.grown.only, ?_⟩
  have ha : s.dec.inp.avail = a := ha.symm
  have hc : s.dec.out.room = c := hc.symm
  simp only [Answered, respond_replies, respond_dec]
  obtain ⟨n, h | h⟩ := decRun_counts hi hf
  · obtain ⟨hst, hpend, hecnt, ⟨hin, hmax⟩, hout, howed⟩ := h
    have hrcnt := (decRun s.dec).2.rcnt.isLt
    have hseven : (7 : Fin 8).val = 7 := rfl
    rw [hlim', hseven] at howed
    rw [hst, hin, hout, hc]
    split
    · have hn : n = 0 := by omega
      have hp0 := length_decOwed s.dec
      rw [hlim, hseven] at hp0
      split at hp0
      · exact ⟨rfl, by omega, rfl, hpend, hecnt, by omega⟩
      · omega
    · have hn : n = m := by omega
      rw [if_neg (by omega), ← hn, ← hq]
      exact ⟨rfl, rfl, rfl, hpend, hecnt, by omega⟩
  · obtain ⟨hst, hpend, hrcnt, hin, hout, hfits, hstaged⟩ := h
    have hn : n = B := by omega
    rw [if_neg (by omega), if_pos (by omega), hst, hin, hout, ha, ← hp, ← hn]
    exact ⟨rfl, rfl, rfl, hpend, by omega, hrcnt⟩

end Sys2Proof.Machine
end

section
/-! The bytes that `DEC.DECODE` and `DEC.FINALIZE` deliver (R113 to R117), and the derived trailing bytes (R123). -/

namespace Sys2Proof.Machine

open Safety

/-! ### `DEC.DECODE` -/

/-- With nothing pending and nothing unread fewer than eight bytes are at hand: no whole block is left. -/
theorem decBlocksLeft_of_starved {d : Dec} (hp : d.pend = false) (hb : d.inp.hasByte = false) : decBlocksLeft d = [] := by
  have hlt : (decEncoded d).length < 8 := by
    rw [decEncoded_of_no_byte hb, length_decStaged]
    exact d.ecnt.isLt
  rw [decBlocksLeft, decOwed_of_idle hp, ← decEncoded, wholeBlocks_encoded_of_length_lt hlt]
  rfl

/-- Settles O39: R114, R113 and R35, by the way in which the run ends. -/
theorem decodeDrainsTheDecodedStream : Obligations.DecodeDrainsTheDecodedStream := by
  intro s hi hf
  have hprog := decRun_progress s.dec hi.pendingOwes
  have hi' := decRun_inv hi hf
  have hleft := hprog.blocksLeft
  have hroom := hprog.grown.length_add_room
  have hlen := congrArg List.length hleft
  rw [List.length_append] at hlen
  refine ⟨_, exec_decDecode_of_streaming hf, ⟨rfl, rfl, rfl⟩, (decRun_keeps s.dec).fin.trans hf, hprog.pulled,
    hprog.grown.only, ?_⟩
  simp only [Answered, respond_replies, respond_dec]
  rcases decRun_stopped s.dec with ⟨hst, hp, hs⟩ | ⟨hst, hp, hs⟩
  · have hfull := room_of_no_room hs
    have howed : decOwed (decRun s.dec).2 ≠ [] := DecOwes.ne_nil hi'.pendingOwes hp
    have hmore : 0 < (decBlocksLeft (decRun s.dec).2).length :=
      List.length_pos_iff.2 (List.append_ne_nil_of_left_ne_nil howed _)
    obtain ⟨ht, hd⟩ := take_drop_of_append hleft hroom (.inl hfull)
    rw [if_neg (by omega), hst]
    exact ⟨ht.symm, hd.symm, hprog.streamLeft, rfl, hi'.out_ok.exhausted_of_no_room hs, hp, hi'.pendingUnstaged hp⟩
  · have hnone := decBlocksLeft_of_starved hp hs
    obtain ⟨ht, hd⟩ := take_drop_of_append hleft hroom (.inr hnone)
    have hstaged : decStaged (decRun s.dec).2 = lastPart 8 (decEncoded s.dec) := by
      rw [hprog.lastPart, decEncoded_of_no_byte hs, lastPart_encoded_of_length_lt]
      rw [length_decStaged]
      exact (decRun s.dec).2.ecnt.isLt
    rw [hnone, List.length_nil] at hlen
    rw [if_pos (by omega), hst]
    exact ⟨ht.symm, hd.symm, hprog.streamLeft, rfl, hi'.inp_ok.exhausted_of_no_byte hs, hp, hstaged⟩

/-! ### Deliveries -/

/-- From `d` to `d'` the unit pulled and drained, and of the stream that it was to deliver under the tail policy `p` it has
still to deliver what it has not drained. -/
structure DecDelivers (p : TailPolicy) (d d' : Dec) : Prop where
  grown : d.out.Grown d'.out
  pulled : PulledOnly d.inp d'.inp
  left : decStreamLeft p d = drained d.out d'.out ++ decStreamLeft p d'

section
variable {p : TailPolicy}

theorem DecProgress.delivers {d d' : Dec} (h : DecProgress d d') : DecDelivers p d d' :=
  ⟨h.grown, h.pulled, h.streamLeft p⟩

theorem DecDelivers.trans {a b c : Dec} (h : DecDelivers p a b) (k : DecDelivers p b c) : DecDelivers p a c :=
  ⟨h.grown.trans k.grown, ⟨k.pulled.1.trans h.pulled.1, k.pulled.2.trans h.pulled.2⟩,
    by rw [h.left, k.left, h.grown.drained_append k.grown, List.append_assoc]⟩

/-- Between units with the same views nothing is drained. -/
theorem decDelivers_of_views_eq {d d' : Dec} (hin : d'.inp = d.inp) (hout : d'.out = d.out)
    (hleft : decStreamLeft p d = decStreamLeft p d') : DecDelivers p d d' :=
  ⟨hout ▸ .refl _, hin ▸ ⟨rfl, rfl⟩, by rw [hleft, hout, drained_self]; rfl⟩

/-! ### The tail of the stream (R115, R116) -/

/-- The count of R116 is that of the table of the stream law. -/
theorem tailCount_val {k : Fin 8} (hk : k ≠ 0) : (tailCount p k).val = tailBytes p k.val := by
  cases p with
  | drainAll => rfl
  | suppressPad =>
    revert k
    decide

/-- Padding zeroes every register of `ES` that holds no staged byte (R115). -/
theorem padEncoded_eq_zeroFilled (d : Dec) : padEncoded d.ecnt.val d.es = zeroFilled (decStaged d) :=
  Vector.ext fun i h => by
    rw [getElem_padEncoded, getElem_zeroFilled, decStaged, List.getD_eq_getElem?_getD, List.getElem?_take]
    by_cases hi : d.ecnt.val ≤ i
    · simp [hi, Nat.not_lt.2 hi]
    · simp [hi, Nat.not_le.1 hi, h]

/-- With input and pending block gone, the first bytes of the padded block are all that is left to deliver (R116). -/
theorem decStreamLeft_of_staged {d : Dec} (hp : d.pend = false) (hb : d.inp.hasByte = false) (hc : d.ecnt ≠ 0) :
    decStreamLeft p d = (decodeBlock (padEncoded d.ecnt.val d.es)).toList.take (tailCount p d.ecnt).val := by
  have hpos : decStaged d ≠ [] := by
    rw [← List.length_pos_iff, length_decStaged]
    exact Nat.pos_of_ne_zero fun h => hc (Fin.ext h)
  have hlen : (decStaged d).length < 8 := (length_decStaged d).trans_lt d.ecnt.isLt
  rw [decStreamLeft_eq, decOwed_of_idle hp, decEncoded_of_no_byte hb, List.nil_append,
    unmcoded7_of_length_lt p hpos hlen, length_decStaged, tailCount_val hc, padEncoded_eq_zeroFilled]

/-- With no byte at hand only the bytes owed are left to deliver. -/
theorem decStreamLeft_of_nothing_staged {d : Dec} (hb : d.inp.hasByte = false) (hc : d.ecnt = 0) :
    decStreamLeft p d = decOwed d := by
  rw [decStreamLeft_eq, decEncoded_of_no_byte hb, decStaged_of_ecnt_zero hc, unmcoded7_nil, List.append_nil]

end

/-- The unit once the staged bytes are padded and transformed (R115, R116). -/
def decPadded (p : TailPolicy) (d : Dec) : Dec :=
  decTransform (tailCount p d.ecnt) { d with es := padEncoded d.ecnt.val d.es }

/-- The unit once the staged bytes are padded and dropped, where the policy delivers nothing of them (R115, R116). -/
def decDropped (d : Dec) : Dec := { d with es := padEncoded d.ecnt.val d.es, ecnt := 0 }

section
variable {p : TailPolicy}

theorem decPadded_owes {d : Dec} (hn : tailCount p d.ecnt ≠ 0) : DecOwes (decPadded p d) := fun _ =>
  Fin.pos_iff_ne_zero.2 hn

theorem decPadded_delivers {d : Dec} (hp : d.pend = false) (hb : d.inp.hasByte = false) (hc : d.ecnt ≠ 0) :
    DecDelivers p d (decPadded p d) :=
  decDelivers_of_views_eq rfl rfl <| by
    rw [decStreamLeft_of_staged hp hb hc, decStreamLeft_of_nothing_staged (d := decPadded p d) hb rfl]
    rfl

theorem decDropped_delivers {d : Dec} (hp : d.pend = false) (hb : d.inp.hasByte = false) (hc : d.ecnt ≠ 0)
    (hn : tailCount p d.ecnt = 0) : DecDelivers p d (decDropped d) :=
  decDelivers_of_views_eq rfl rfl <| by
    rw [decStreamLeft_of_staged hp hb hc, hn, decStreamLeft_of_nothing_staged (d := decDropped d) hb rfl,
      decOwed_of_idle (by exact hp)]
    rfl

/-! ### `DEC.FINALIZE` -/

/-- `FINALIZE` has stopped for want of room with a block pending, or it has finished, all input consumed (R115). -/
abbrev DecEnded (r : Rsp × Dec) : Prop :=
  (r.1 = .needsMoreOutput ∧ r.2.fin = false ∧ r.2.pend = true ∧ r.2.out.hasRoom = false) ∨
  (r.1 = .finished ∧ r.2.fin = true ∧ r.2.inp.hasByte = false)

/-- What `FINALIZE` does to a unit, as a delivery and the way in which it ends. -/
abbrev DecFlushes (p : TailPolicy) (d : Dec) (r : Rsp × Dec) : Prop := DecDelivers p d r.2 ∧ DecEnded r

theorem decFinish_of_idle {d : Dec} (hp : d.pend = false) : decFinish d = (.finished, { d with fin := true }) :=
  if_neg (by simp [hp])

theorem decFinish_of_pend {d : Dec} (hp : d.pend = true) : decFinish d = (.needsMoreOutput, d) := if_pos hp

theorem decFinish_flushes {d : Dec} (hf : d.fin = false) (hb : d.inp.hasByte = false)
    (hr : d.pend = true → d.out.hasRoom = false) : DecFlushes p d (decFinish d) := by
  cases hp : d.pend with
  | true =>
    rw [decFinish_of_pend hp]
    exact ⟨decDelivers_of_views_eq rfl rfl rfl, .inl ⟨rfl, hf, hp, hr hp⟩⟩
  | false =>
    rw [decFinish_of_idle hp]
    exact ⟨decDelivers_of_views_eq rfl rfl rfl, .inr ⟨rfl, rfl, hb⟩⟩

theorem decFlush_of_aligned {d : Dec} (hc : d.ecnt = 0) : decFlush p d = decFinish d := if_pos hc

theorem decFlush_of_tail {d : Dec} (hc : d.ecnt ≠ 0) (hn : tailCount p d.ecnt ≠ 0) :
    decFlush p d = decFinish (decDrain (decPadded p d)) := by
  rw [decFlush, if_neg hc, decDeliverTail, if_neg hn]
  rfl

theorem decFlush_of_no_tail {d : Dec} (hc : d.ecnt ≠ 0) (hn : tailCount p d.ecnt = 0) :
    decFlush p d = decFinish (decDropped d) := by
  rw [decFlush, if_neg hc, decDeliverTail, if_pos hn]
  rfl

theorem decFlush_flushes {d : Dec} (hf : d.fin = false) (hp : d.pend = false) (hb : d.inp.hasByte = false) :
    DecFlushes p d (decFlush p d) := by
  have hidle (h : d.pend = true) : d.out.hasRoom = false := by simp [hp] at h
  by_cases hc : d.ecnt = 0
  · rw [decFlush_of_aligned hc]
    exact decFinish_flushes hf hb hidle
  by_cases hn : tailCount p d.ecnt = 0
  · rw [decFlush_of_no_tail hc hn]
    obtain ⟨hfin, hend⟩ := decFinish_flushes (p := p) (d := decDropped d) hf hb hidle
    exact ⟨(decDropped_delivers hp hb hc hn).trans hfin, hend⟩
  · rw [decFlush_of_tail hc hn]
    have hdrain := (decPadded_delivers hp hb hc).trans (decDrain_drained _ (decPadded_owes hn)).progress.delivers
    obtain ⟨hfin, hend⟩ := decFinish_flushes ((decDrain_keeps (decPadded p d)).fin.trans hf)
      (by rw [decDrain_inp]; exact hb) (decDrain_no_room (decPadded p d))
    exact ⟨hdrain.trans hfin, hend⟩

theorem decFinalizeUnit_flushes {d : Dec} (ho : DecOwes d) (hf : d.fin = false) :
    DecFlushes p d (decFinalizeUnit p d) := by
  have hrun := (decRun_progress d ho).delivers (p := p)
  have hf' := (decRun_keeps d).fin.trans hf
  rcases decRun_stopped d with ⟨hst, hp, hs⟩ | ⟨hst, hp, hs⟩
  · rw [decFinalizeUnit_of_blocked p hf hst]
    exact ⟨hrun, .inl ⟨rfl, hf', hp, hs⟩⟩
  · rw [decFinalizeUnit_of_consumed p hf hst]
    obtain ⟨hflush, hend⟩ := decFlush_flushes (p := p) hf' hp hs
    exact ⟨hrun.trans hflush, hend⟩

/-- A Finalized unit whose input is exhausted has delivered everything (R19(e)). -/
theorem decStreamLeft_of_fin {d : Dec} (hi : DecInv p d) (hf : d.fin = true) (hb : d.inp.hasByte = false) :
    decStreamLeft p d = [] := by
  obtain ⟨hp, -, hc⟩ := hi.finalizedIdle hf
  rw [decStreamLeft_of_nothing_staged hb hc, decOwed_of_idle hp]

end

/-- Settles O40: R115 and R116 under either policy, by the way in which `FINALIZE` ends. -/
theorem decFinalizeFlushesAndFinishes : Obligations.DecFinalizeFlushesAndFinishes := by
  refine ⟨fun p s hi hf => ?_, fun _ => rfl⟩
  obtain ⟨⟨hgrown, hpulled, hleft⟩, hend⟩ := decFinalizeUnit_flushes (p := p) hi.pendingOwes hf
  have hi' : DecInv p (decFinalizeUnit p s.dec).2 := (decFinalizeUnit_moves p s.dec).keep decMove_inv hi
  have hroom := hgrown.length_add_room
  have hlen := congrArg List.length hleft
  rw [List.length_append] at hlen
  refine ⟨_, rfl, ⟨rfl, rfl, rfl⟩, hpulled, hgrown.only, ?_⟩
  simp only [Answered, respond_replies, respond_dec]
  rcases hend with ⟨hst, hfin, hp, hs⟩ | ⟨hst, hfin, hs⟩
  · have hfull := room_of_no_room hs
    have howed : decOwed (decFinalizeUnit p s.dec).2 ≠ [] := DecOwes.ne_nil hi'.pendingOwes hp
    have hmore : 0 < (decStreamLeft p (decFinalizeUnit p s.dec).2).length :=
      List.length_pos_iff.2 (List.append_ne_nil_of_left_ne_nil howed _)
    obtain ⟨ht, hd⟩ := take_drop_of_append hleft hroom (.inl hfull)
    rw [if_neg (by omega), hst]
    exact ⟨ht.symm, rfl, hfin, hp, hi'.pendingUnstaged hp, hi'.out_ok.exhausted_of_no_room hs, hd.symm⟩
  · have hnone := decStreamLeft_of_fin hi' hfin hs
    obtain ⟨hp, hr, he⟩ := hi'.finalizedIdle hfin
    obtain ⟨ht, -⟩ := take_drop_of_append hleft hroom (.inr hnone)
    have hle := hgrown.le
    rw [hnone, List.length_nil, length_drained] at hlen
    rw [length_drained] at hroom
    rw [if_pos (by omega), hst]
    exact ⟨ht.symm, rfl, by rw [decPosition, hfin, hp, hr, he], hi'.inp_ok.exhausted_of_no_byte hs, by omega⟩

/-! ### The derived trailing bytes (R123) -/

/-- A raw lane is its guard bit at the place of bit 7, and the low bits of its body byte (R73). -/
theorem rawLane_eq_or (g : Byte) (k : Nat) (b : Byte) :
    rawLane g k b = (if g.getLsbD k then 0x80 else 0x00) ||| b &&& 0x7F := by
  rw [← low7_eq_and]
  refine byte_ext ?_ fun j hj => ?_
  · rw [getLsbD_rawLane_seven, BitVec.getLsbD_or, low7_bit7]
    cases g.getLsbD k <;> rfl
  · rw [getLsbD_rawLane g k b hj, BitVec.getLsbD_or, getLsbD_low7 b hj]
    cases g.getLsbD k <;> interval_cases j <;> simp

/-- The lanes of the padded block: of a byte that was not received the body bits are 0 (R115). -/
theorem getElem_decodeBlock_padEncoded {k : Nat} (hk : 1 ≤ k) (e : EncodedBlock) (i : Nat) (h : i < 7) :
    (decodeBlock (padEncoded k e))[i] =
      (if e[0].getLsbD (6 - i) then 0x80 else 0x00) ||| if i + 1 < k then e.toList.getD (i + 1) 0 &&& 0x7F else 0x00 := by
  rw [getElem_decodeBlock _ i h, rawLane_eq_or, getElem_padEncoded, getElem_padEncoded,
    if_neg (Nat.not_le.2 hk)]
  congr 1
  by_cases hi : i + 1 < k
  · rw [if_pos hi, if_neg (Nat.not_le.2 hi), List.getD_eq_getElem _ _ (by simp; omega), Vector.getElem_toList]
  · rw [if_neg hi, if_pos (Nat.not_lt.1 hi)]
    rfl

/-- A byte drained stands where `OUT_POS` was when it was drained (R34). -/
theorem read_of_drained {v w : OutView} {l : List Byte} (h : drained v w = l) {i : Nat} (hi : i < l.length) :
    Memory.read w.space (v.pos + i) = l[i] := by
  subst h
  exact (Memory.getElem_slice _ _ _ _ hi).symm

/-- With room for seven bytes the padded block is drained whole (R116). -/
theorem decDrain_padded_of_room {d : Dec} (hroom : 7 ≤ d.out.room) :
    (decDrain (decPadded .drainAll d)).pend = false ∧ (decDrain (decPadded .drainAll d)).out.pos = d.out.pos + 7 ∧
      drained d.out (decDrain (decPadded .drainAll d)).out = (decodeBlock (padEncoded d.ecnt.val d.es)).toList := by
  have hseven : (7 : Fin 8) ≠ 0 := by decide
  obtain ⟨hpos, hdrained, -, hpend, -⟩ := decDrainDeliversWhatTheViewAccepts (decPadded .drainAll d) 7 _ 7
    (decPadded_owes hseven) rfl rfl (min_eq_left hroom).symm
  exact ⟨Bool.eq_false_iff.2 (mt hpend.1 (Nat.lt_irrefl 7)), hpos, hdrained⟩

/-- Settles O41: R123, the padded block being drained whole, and each of its bytes being a lane (R73). -/
theorem decFinalizeDerivesTheTrailingBytes : Obligations.DecFinalizeDerivesTheTrailingBytes := by
  intro s hf hp hk hx hroom
  have hc : s.dec.ecnt ≠ 0 := fun h => by simp [h] at hk
  have htail : tailCount .drainAll s.dec.ecnt ≠ 0 := show (7 : Fin 8) ≠ 0 by decide
  obtain ⟨hidle, hpos, hdrained⟩ := decDrain_padded_of_room hroom
  have hunit : decFinalizeUnit Config.decTailPolicy s.dec =
      (.finished, { decDrain (decPadded .drainAll s.dec) with fin := true }) := by
    rw [decFinalizeUnit_of_exhausted _ hf hp hx]
    exact (decFlush_of_tail hc htail).trans (decFinish_of_idle hidle)
  refine ⟨_, rfl, ?_⟩
  simp only [Answered, respond_replies, respond_dec, hunit]
  refine ⟨trivial, hpos, fun i hi => ?_⟩
  rw [read_of_drained hdrained (by simpa using hi), Vector.getElem_toList]
  exact getElem_decodeBlock_padEncoded hk s.dec.es i hi

end Sys2Proof.Machine
end

section
/-! The stream through `DEC` (R122), and through both units (R121): the host's books balance after every command, whatever it
may still feed. -/

namespace Sys2Proof.Machine

open Safety

/-! ### The balance of one stream -/

/-- The books of a stream through `DEC` built with the tail policy `p` balance: `fed` are the bytes bound so far, `got` those
drained, and `closed` says that a `FINALIZE` has been issued, after which nothing more is fed. Whatever bytes `more` may still
follow, what was drained and what the unit would then deliver is the decoding of the whole. -/
structure DecBalance (p : TailPolicy) (d : Dec) (fed got : List Byte) (closed : Bool) : Prop where
  inv : DecInv p d
  total : ∀ more, (closed = true → more = []) →
    got ++ (decOwed d ++ unmcoded7 p (decEncoded d ++ more)) = unmcoded7 p (fed ++ more)
  ended : d.fin = true → closed = true ∧ d.inp.hasByte = false

theorem decBalance_of_fresh (p : TailPolicy) {d : Dec} (h : FreshDec d) : DecBalance p d [] [] false := by
  have hi := decInv_of_fresh (p := p) h
  obtain ⟨hf, hp, -, hc, -, hin, -⟩ := h
  have hbytes : decEncoded d = [] := by
    rw [decEncoded_of_no_byte (by rw [hin]; rfl), decStaged_of_ecnt_zero hc]
  exact ⟨hi, fun more _ => by rw [decOwed_of_idle hp, hbytes]; rfl, fun h => by simp [hf] at h⟩

section
variable {p : TailPolicy} {d : Dec} {fed got : List Byte} {closed : Bool} (h : DecBalance p d fed got closed)
include h

/-- If nothing more follows, what was drained and what the unit is to deliver is the decoding of the bytes fed. -/
theorem DecBalance.got_append_left : got ++ decStreamLeft p d = unmcoded7 p fed := by
  simpa [decStreamLeft_eq] using h.total [] fun _ => rfl

/-- Once `DEC` is Finalized nothing is left to deliver. -/
theorem DecBalance.got_of_fin (hf : d.fin = true) : got = unmcoded7 p fed := by
  rw [← h.got_append_left, decStreamLeft_of_fin h.inv hf (h.ended hf).2, List.append_nil]

/-- A new output view changes nothing that is to be delivered (R83). -/
theorem DecBalance.setOut (v : ViewOperand) : DecBalance p { d with out := bindOut v } fed got closed :=
  ⟨h.inv.setOut (bindOut_ok v), h.total, h.ended⟩

/-- A new input view takes the place of an exhausted one, and its bytes follow those staged (R82). -/
theorem DecBalance.setIn {v : ViewOperand} (hmay : mayBindIn d.inp closed v = true) :
    DecBalance p { d with inp := bindIn v } (fed ++ v.ref) got closed := by
  simp only [mayBindIn, Bool.and_eq_true, Bool.or_eq_true, Bool.not_eq_true', List.isEmpty_iff] at hmay
  obtain ⟨hx, hclosed⟩ := hmay
  have hempty (hc : closed = true) : v.ref = [] := hclosed.resolve_left (by simp [hc])
  have hbytes : decEncoded { d with inp := bindIn v } = decEncoded d ++ v.ref := by
    rw [decEncoded_of_no_byte (hasByte_of_exhausted hx), decEncoded, unread_bindIn]
    rfl
  refine ⟨h.inv.setIn (bindIn_ok v), fun more hmore => ?_, fun hf => ?_⟩
  · rw [hbytes, List.append_assoc, List.append_assoc]
    exact h.total (v.ref ++ more) fun hc => by rw [hempty hc, hmore hc]; rfl
  · have hc := (h.ended hf).1
    refine ⟨hc, decide_eq_false ?_⟩
    rw [bindIn_len, ViewOperand.bound, hempty hc]
    exact Nat.not_lt_zero _

/-- `DECODE` only goes on with the blocks (R114). -/
theorem DecBalance.decode :
    DecBalance p (decDecodeUnit d).2 fed (got ++ drained d.out (decDecodeUnit d).2.out) closed := by
  cases hf : d.fin with
  | true =>
    rw [decDecodeUnit_of_fin hf, drained_self, List.append_nil]
    exact h
  | false =>
    rw [decDecodeUnit_of_streaming hf]
    have hf' := (decRun_keeps d).fin.trans hf
    refine ⟨decRun_inv h.inv hf, fun more hmore => ?_, fun hf'' => by simp [hf'] at hf''⟩
    have hleft := (decRun_progress d h.inv.pendingOwes).left (decoding := fun l => unmcoded7 p (l ++ more)) fun e l =>
      (congrArg (unmcoded7 p) (List.append_assoc _ l more)).trans (unmcoded7_block_append p e _)
    rw [← h.total more hmore, hleft, List.append_assoc]

/-- After `FINALIZE` the unit has the decoding of the whole to deliver, the last block padded (R115, R116). -/
theorem DecBalance.finalize :
    DecBalance p (decFinalizeUnit p d).2 fed (got ++ drained d.out (decFinalizeUnit p d).2.out) true := by
  cases hf : d.fin with
  | true =>
    rw [decFinalizeUnit_of_fin p hf, drained_self, List.append_nil]
    exact ⟨h.inv, fun more hmore => h.total more fun _ => hmore rfl, fun _ => ⟨rfl, (h.ended hf).2⟩⟩
  | false =>
    obtain ⟨hdel, hend⟩ := decFinalizeUnit_flushes (p := p) h.inv.pendingOwes hf
    refine ⟨(decFinalizeUnit_moves p d).keep decMove_inv h.inv, fun more hmore => ?_, fun hf' => ⟨rfl, ?_⟩⟩
    · rw [hmore rfl, List.append_nil, List.append_nil, ← decStreamLeft_eq, ← h.got_append_left, hdel.left,
        List.append_assoc]
    · rcases hend with ⟨-, hfin, -⟩ | ⟨-, -, hb⟩
      · simp [hfin] at hf'
      · exact hb

end

/-! ### The books -/

/-- Every command has a next state under either tail policy; and what it leaves in `DEC`. -/
theorem execUnder_accepts (p : TailPolicy) (i : Instr) (s : State) :
    ∃ t, execUnder p i s = .next t ∧
      t.dec = if i = .decFinalize then (decFinalizeUnit p s.dec).2 else decAfter i s.free s.dec := by
  unfold execUnder
  split
  · exact ⟨_, rfl, rfl⟩
  · obtain ⟨t, ht⟩ := exec_accepts i s
    obtain ⟨-, hd, -, -⟩ := exec_next ht
    exact ⟨t, ht, hd⟩

theorem decEnter_eq_some {p : TailPolicy} {b b' : Books} {i : Instr} (h : decEnter p b i = some b') :
    decMay b i = true ∧
      b'.st.dec = (if i = .decFinalize then (decFinalizeUnit p b.st.dec).2 else decAfter i b.st.free b.st.dec) ∧
      b'.fed = b.fed ++ decFeeds i ∧ b'.got = b.got ++ drained b.st.dec.out b'.st.dec.out ∧
      b'.finalizing = (b.finalizing || decide (i = .decFinalize)) := by
  obtain ⟨t, ht, hd⟩ := execUnder_accepts p i b.st
  rw [decEnter, ht, Option.ite_none_right_eq_some] at h
  obtain ⟨hmay, hb⟩ := h
  cases hb
  exact ⟨hmay, hd, rfl, rfl, rfl⟩

/-- The books of `b` balance. -/
abbrev DecBooksBalance (p : TailPolicy) (b : Books) : Prop := DecBalance p b.st.dec b.fed b.got b.finalizing

theorem decEnter_balance {p : TailPolicy} {b b' : Books} {i : Instr} (h : decEnter p b i = some b')
    (hb : DecBooksBalance p b) : DecBooksBalance p b' := by
  obtain ⟨hmay, hd, hfed, hgot, hfin⟩ := decEnter_eq_some h
  rw [DecBooksBalance, hfed, hgot, hfin, hd]
  cases i with
  | decInit => simp [decMay] at hmay
  | decBind v w => simpa [decFeeds, decAfter] using (hb.setIn hmay).setOut w
  | decRebindIn v => simpa [decFeeds, decAfter] using hb.setIn hmay
  | decRebindOut w => simpa [decFeeds, decAfter] using hb.setOut w
  | decDecode => simpa [decFeeds, decAfter] using hb.decode
  | decFinalize => simpa [decFeeds] using hb.finalize
  | _ => simpa [decFeeds, decAfter] using hb

theorem decBooks_balance {p : TailPolicy} {cmds : List Instr} {b b' : Books} (h : decBooks p cmds b = some b')
    (hb : DecBooksBalance p b) : DecBooksBalance p b' := by
  induction cmds generalizing b with
  | nil => cases h; exact hb
  | cons i is ih =>
    obtain ⟨c, hc, hrest⟩ := Option.bind_eq_some_iff.1 h
    exact ih hrest (decEnter_balance hc hb)

/-! ### The stream laws -/

/-- Settles O55: R122, the balance of the books at their end, by induction over the commands, and the length of the decoding. -/
theorem decStreamIsTheDecodingOfTheInput : Obligations.DecStreamIsTheDecodingOfTheInput := by
  intro p s cmds b hs h hf
  have hgot : b.got = unmcoded7 p b.fed := (decBooks_balance h (decBalance_of_fresh p hs)).got_of_fin hf
  refine ⟨hgot, ?_⟩
  rw [hgot, length_unmcoded7]
  cases p with
  | drainAll | suppressPad =>
    simp only [tailBytes]
    split <;> omega

/-- Settles O56: R121, the decoding of the encoding being the stream and its zero padding. -/
theorem roundTripThroughBothUnits : Obligations.RoundTripThroughBothUnits := by
  intro p s s' cmds cmds' b b' hs hs' h h' hf hf' hfed
  have henc := encStreamIsMcoded7OfTheInput s cmds b hs h hf
  obtain ⟨hdec, -⟩ := decStreamIsTheDecodingOfTheInput p s' cmds' b' hs' h' hf'
  have hback : b'.got = b.fed ++ List.replicate ((7 - b.fed.length % 7) % 7) 0 := by
    rw [hdec, hfed, henc, unmcoded7_mcoded7]
  refine ⟨hback, encStreamLength s cmds b hs h hf, ?_⟩
  rw [hback, List.length_append, List.length_replicate]
  omega

end Sys2Proof.Machine
end

section
/-! Bit 7 of the encoded bytes (R118, R143): a Decoder stores it and `decode_block` forgets it (R74), so two units that differ in
these bits go through the same run side by side. -/

namespace Sys2Proof.Machine

open Safety

/-- `DEC` with other input bytes: those of `m` in its input view, those of `es` in `ES`. -/
def decWithInput (m : Memory) (es : EncodedBlock) (d : Dec) : Dec := { d with es := es, inp := { d.inp with space := m } }

/-- `d'` is `d` but for bits 7 of its input bytes, in the view or staged. -/
structure DecSameLow7 (d d' : Dec) : Prop where
  input : ∃ m es, d' = decWithInput m es d
  view : SameLow7 d.inp.space d'.inp.space
  staged : ∀ (j : Nat) (_ : j < 8), low7 d.es[j] = low7 d'.es[j]

/-- The same status, and units that differ in bits 7 only. -/
abbrev DecSameLow7Result {α : Type} (r r' : α × Dec) : Prop := r.1 = r'.1 ∧ DecSameLow7 r.2 r'.2

/-! ### The single steps -/

theorem DecSameLow7.drainByte {d d' : Dec} (h : DecSameLow7 d d') : DecSameLow7 (decDrainByte d) (decDrainByte d') := by
  obtain ⟨m, es, rfl⟩ := h.input
  refine ⟨⟨m, es, ?_⟩, by simpa using h.view, by simpa using h.staged⟩
  unfold decDrainByte
  rw [apply_ite (decWithInput m es)]
  rfl

theorem DecSameLow7.low7_head {d d' : Dec} (h : DecSameLow7 d d') : low7 d.inp.head = low7 d'.inp.head := by
  have hview := h.view d.inp.pos
  obtain ⟨m, es, rfl⟩ := h.input
  rwa [low7_eq_and, low7_eq_and]

theorem DecSameLow7.stageByte {d d' : Dec} (h : DecSameLow7 d d') : DecSameLow7 (decStageByte d) (decStageByte d') := by
  have hhead := h.low7_head
  obtain ⟨m, es, rfl⟩ := h.input
  refine ⟨⟨m, _, rfl⟩, h.view, fun j hj => ?_⟩
  simp only [decStageByte_es, decWithInput, Vector.getElem_set]
  split
  · exact hhead
  · exact h.staged j hj

theorem DecSameLow7.setEcnt {d d' : Dec} (h : DecSameLow7 d d') (c : Fin 8) :
    DecSameLow7 { d with ecnt := c } { d' with ecnt := c } := by
  obtain ⟨m, es, rfl⟩ := h.input
  exact ⟨⟨m, es, rfl⟩, h.view, h.staged⟩

/-- The transform forgets the bits in which the units differ (R74). -/
theorem DecSameLow7.transform {d d' : Dec} (h : DecSameLow7 d d') (n : Fin 8) :
    DecSameLow7 (decTransform n d) (decTransform n d') := by
  have hrs := decodeBlock_eq_iff.2 h.staged
  obtain ⟨m, es, rfl⟩ := h.input
  refine ⟨⟨m, es, ?_⟩, h.view, h.staged⟩
  rw [decTransform, ← hrs]
  rfl

theorem DecSameLow7.pad {d d' : Dec} (h : DecSameLow7 d d') :
    DecSameLow7 { d with es := padEncoded d.ecnt.val d.es } { d' with es := padEncoded d'.ecnt.val d'.es } := by
  obtain ⟨m, es, rfl⟩ := h.input
  refine ⟨⟨m, _, rfl⟩, h.view, fun j hj => ?_⟩
  simp only [getElem_padEncoded, decWithInput]
  split
  · rfl
  · exact h.staged j hj

/-! ### The run and `FINALIZE` -/

theorem decDrain_sameLow7 (d : Dec) : ∀ d', DecSameLow7 d d' → DecSameLow7 (decDrain d) (decDrain d') := by
  refine decDrain_induct (P := fun d r => ∀ d', DecSameLow7 d d' → DecSameLow7 r (decDrain d')) ?drain ?stop d
  case drain =>
    intro d r hp hr ih d' h
    have hbyte := h.drainByte
    obtain ⟨m, es, rfl⟩ := h.input
    rw [decDrain_of_room (d := decWithInput m es d) hp hr]
    exact ih _ hbyte
  case stop =>
    intro d hs d' h
    obtain ⟨m, es, rfl⟩ := id h.input
    cases hp : d.pend with
    | true => rwa [decDrain_of_no_room (d := decWithInput m es d) (hs hp)]
    | false => rwa [decDrain_idle (decWithInput m es d) hp]

theorem decRun_sameLow7 (d : Dec) : ∀ d', DecSameLow7 d d' → DecSameLow7Result (decRun d) (decRun d') := by
  refine decRun_induct (P := fun d r => ∀ d', DecSameLow7 d d' → DecSameLow7Result r (decRun d'))
    ?drain ?noRoom ?byte ?lastByte ?noByte d
  case drain =>
    intro d r hp hr ih d' h
    have hnext := h.drainByte
    obtain ⟨m, es, rfl⟩ := h.input
    rw [decRun_of_room (d := decWithInput m es d) hp hr]
    exact ih _ hnext
  case noRoom =>
    intro d hp hr d' h
    obtain ⟨m, es, rfl⟩ := id h.input
    rw [decRun_of_no_room (d := decWithInput m es d) hp hr]
    exact ⟨rfl, h⟩
  case byte =>
    intro d r hp hb hc ih d' h
    have hnext := h.stageByte.setEcnt (d.ecnt + 1)
    obtain ⟨m, es, rfl⟩ := h.input
    rw [decRun_of_byte (d := decWithInput m es d) hp hb hc]
    exact ih _ hnext
  case lastByte =>
    intro d r hp hb hc ih d' h
    have hnext := h.stageByte.transform 7
    obtain ⟨m, es, rfl⟩ := h.input
    rw [decRun_of_last_byte (d := decWithInput m es d) hp hb hc]
    exact ih _ hnext
  case noByte =>
    intro d hp hb d' h
    obtain ⟨m, es, rfl⟩ := id h.input
    rw [decRun_of_no_byte (d := decWithInput m es d) hp hb]
    exact ⟨rfl, h⟩

section
variable {d d' : Dec} (h : DecSameLow7 d d')
include h

theorem decFinish_sameLow7 : DecSameLow7Result (decFinish d) (decFinish d') := by
  obtain ⟨m, es, rfl⟩ := id h.input
  cases hp : d.pend with
  | true =>
    rw [decFinish_of_pend hp, decFinish_of_pend (d := decWithInput m es d) hp]
    exact ⟨rfl, h⟩
  | false =>
    rw [decFinish_of_idle hp, decFinish_of_idle (d := decWithInput m es d) hp]
    exact ⟨rfl, ⟨m, es, rfl⟩, h.view, h.staged⟩

theorem decFlush_sameLow7 (p : TailPolicy) : DecSameLow7Result (decFlush p d) (decFlush p d') := by
  have hdrain := decDrain_sameLow7 _ _ (h.pad.transform (tailCount p d.ecnt))
  have hdrop := h.pad.setEcnt 0
  obtain ⟨m, es, rfl⟩ := id h.input
  by_cases hc : d.ecnt = 0
  · rw [decFlush_of_aligned hc, decFlush_of_aligned (d := decWithInput m es d) hc]
    exact decFinish_sameLow7 h
  by_cases hn : tailCount p d.ecnt = 0
  · rw [decFlush_of_no_tail hc hn, decFlush_of_no_tail (d := decWithInput m es d) hc hn]
    exact decFinish_sameLow7 hdrop
  · rw [decFlush_of_tail hc hn, decFlush_of_tail (d := decWithInput m es d) hc hn]
    exact decFinish_sameLow7 hdrain

theorem decDecodeUnit_sameLow7 : DecSameLow7Result (decDecodeUnit d) (decDecodeUnit d') := by
  obtain ⟨hr, ha⟩ := decRun_sameLow7 d d' h
  obtain ⟨m, es, rfl⟩ := id h.input
  cases hf : d.fin with
  | true =>
    rw [decDecodeUnit_of_fin hf, decDecodeUnit_of_fin (d := decWithInput m es d) hf]
    exact ⟨rfl, h⟩
  | false =>
    rw [decDecodeUnit_of_streaming hf, decDecodeUnit_of_streaming (d := decWithInput m es d) hf]
    exact ⟨congrArg runRsp hr, ha⟩

theorem decFinalizeUnit_sameLow7 (p : TailPolicy) :
    DecSameLow7Result (decFinalizeUnit p d) (decFinalizeUnit p d') := by
  obtain ⟨hr, ha⟩ := decRun_sameLow7 d d' h
  obtain ⟨m, es, rfl⟩ := id h.input
  cases hf : d.fin with
  | true =>
    rw [decFinalizeUnit_of_fin p hf, decFinalizeUnit_of_fin p (d := decWithInput m es d) hf]
    exact ⟨rfl, h⟩
  | false =>
    rcases decRun_stopped d with ⟨he, -, -⟩ | ⟨he, -, -⟩
    · rw [decFinalizeUnit_of_blocked p hf he,
        decFinalizeUnit_of_blocked p (d := decWithInput m es d) hf (hr.symm.trans he)]
      exact ⟨rfl, ha⟩
    · rw [decFinalizeUnit_of_consumed p hf he,
        decFinalizeUnit_of_consumed p (d := decWithInput m es d) hf (hr.symm.trans he)]
      exact decFlush_sameLow7 ha p

/-- What the two commands that read `IN` answer and leave. -/
theorem decAfter_sameLow7 {i : Instr} (hi : i = .decDecode ∨ i = .decFinalize) (k : Nat) (e : Enc) :
    replyTo i e d = replyTo i e d' ∧ DecSameLow7 (decAfter i k d) (decAfter i k d') := by
  rcases hi with rfl | rfl
  · obtain ⟨hr, hd⟩ := decDecodeUnit_sameLow7 h
    exact ⟨congrArg (Reply.mk · none) hr, hd⟩
  · obtain ⟨hr, hd⟩ := decFinalizeUnit_sameLow7 h Config.decTailPolicy
    exact ⟨congrArg (Reply.mk · none) hr, hd⟩

end

/-- Settles O42: R118, R74 and R143, the units after the command differing in bits 7 only. -/
theorem reservedBitsOfTheInputAreIgnored : Obligations.ReservedBitsOfTheInputAreIgnored := by
  refine ⟨fun i s t t' m hi hm h h' => ?_, fun d => by simp [InView.head]⟩
  obtain ⟨-, hd, -, hr⟩ := exec_next h
  obtain ⟨-, hd', -, hr'⟩ := exec_next h'
  obtain ⟨hreply, hafter⟩ := decAfter_sameLow7 ⟨⟨m, s.dec.es, rfl⟩, hm, fun _ _ => rfl⟩ hi s.free s.enc
  have hsame : DecSameLow7 t.dec t'.dec := by rw [hd, hd']; exact hafter
  obtain ⟨n, es, hin⟩ := hsame.input
  rw [hr, hr', hreply, hin]
  exact ⟨rfl, rfl, rfl, rfl⟩

end Sys2Proof.Machine
end

section
/-! The columns of the response matrix (R62), and with them the faults (R130 to R136) and `AlreadyFinalized` (R141):
which commands can have given a response, and what such a command has left. -/

namespace Sys2Proof.Machine

open Safety

/-! ### The columns of the matrix -/

/-- A response that a command has given stands in its row. -/
theorem mayAnswer_of_reply {i : Instr} {s t : State} {r : Reply} (h : exec i s = .next t)
    (hr : t.replies = s.replies ++ [r]) : mayAnswer i r.rsp = true := by
  obtain ⟨-, -, -, ht⟩ := exec_next h
  obtain rfl : r = replyTo i s.enc s.dec := by simpa [hr] using ht
  exact mayAnswer_replyTo i s.enc s.dec

theorem mayAnswer_illegalCommand {i : Instr} :
    mayAnswer i .illegalCommand = true ↔ i = .reserved7 ∨ i = .reservedF := by
  cases i with
  | encblk b | decblk b => simp only [mayAnswer]; split <;> simp
  | _ => simp [mayAnswer]

theorem mayAnswer_blockSizeError {i : Instr} :
    mayAnswer i .blockSizeError = true ↔ ∃ b, (i = .encblk b ∧ b.n ≠ 7) ∨ (i = .decblk b ∧ b.n ≠ 8) := by
  cases i with
  | encblk b | decblk b => simp [mayAnswer]
  | _ => simp [mayAnswer]

/-- `NeedsMoreOutput` and `AlreadyFinalized` come from the commands that work on a stream. -/
theorem mayAnswer_of_stream {a : Rsp} (ha : a = .needsMoreOutput ∨ a = .alreadyFinalized) {i : Instr} :
    mayAnswer i a = true ↔ (i = .encEncode ∨ i = .encFinalize) ∨ (i = .decDecode ∨ i = .decFinalize) := by
  rcases ha with rfl | rfl <;> cases i with
  | encblk b | decblk b => simp only [mayAnswer]; split <;> simp
  | _ => simp [mayAnswer]

/-! ### The faults -/

/-- A fault response comes from taking an exception, and from nothing else (R133, R136). -/
theorem exec_eq_raiseFault {i : Instr} {a : Rsp} (h : mayAnswer i a = true)
    (ha : a = .blockSizeError ∨ a = .illegalCommand) (s : State) : ∃ f, exec i s = raiseFault f s := by
  rcases ha with rfl | rfl
  · obtain ⟨b, ⟨rfl, hn⟩ | ⟨rfl, hn⟩⟩ := mayAnswer_blockSizeError.1 h
    · exact ⟨_, execEncblk_of_wrong_size hn s⟩
    · exact ⟨_, execDecblk_of_wrong_size hn s⟩
  · rcases mayAnswer_illegalCommand.1 h with rfl | rfl <;> exact ⟨.illegal, rfl⟩

/-- Settles O20: R136, since a command that answers a fault has done nothing but raise it. -/
theorem faultResponsesChangeNothing : Obligations.FaultResponsesChangeNothing := by
  intro i s t r h hr ha
  obtain ⟨f, hf⟩ := exec_eq_raiseFault (mayAnswer_of_reply h hr) ha s
  rw [← hr, raiseFault_next (hf.symm.trans h)]

/-- The rows of the two reserved codes in the opcode map (R57). -/
theorem reserved_iff_op {i : Instr} :
    i = .reserved7 ∨ i = .reservedF ↔ (encode i).op = 0x7 ∨ (encode i).op = 0xF := by
  cases i <;> simp [encode, bareRequest]

/-- Settles O19: R132 and R57, from the column of `IllegalCommand` and the two reserved rows of the opcode map. -/
theorem reservedCodesAnswerIllegalCommand : Obligations.ReservedCodesAnswerIllegalCommand := by
  refine ⟨rfl, fun _ => ⟨rfl, rfl⟩, fun r s t h => ?_⟩
  rw [← decodingAnEncodedCommandGivesItBack.2 r, ← reserved_iff_op]
  constructor
  · intro hr
    exact mayAnswer_illegalCommand.1 (mayAnswer_of_reply h hr)
  · intro hd
    rw [answered_iff h]
    rcases hd with hd | hd <;> rw [hd] <;> rfl

/-! ### `AlreadyFinalized` -/

/-- How `FINALIZE` ends on a Streaming unit, whatever the rest of the unit holds (R115). -/
theorem decFinalizeUnit_ended (p : TailPolicy) {d : Dec} (hf : d.fin = false) : DecEnded (decFinalizeUnit p d) := by
  have hf' : (decRun d).2.fin = false := (decRun_keeps d).fin.trans hf
  rcases decRun_stopped d with ⟨hst, hp, hs⟩ | ⟨hst, hp, hs⟩
  · rw [decFinalizeUnit_of_blocked p hf hst]
    exact .inl ⟨rfl, hf', hp, hs⟩
  · rw [decFinalizeUnit_of_consumed p hf hst]
    exact (decFlush_flushes hf' hp hs).2

theorem runRsp_ne_alreadyFinalized (r : RunEnd) : runRsp r ≠ .alreadyFinalized := by
  cases r <;> decide

/-- `AlreadyFinalized` is read off `FIN` and nothing else. -/
theorem enc_fin_of_alreadyFinalized {i : Instr} (hi : i = .encEncode ∨ i = .encFinalize) {e : Enc} {d : Dec}
    (h : (replyTo i e d).rsp = .alreadyFinalized) : e.fin = true := by
  refine Bool.eq_true_of_not_eq_false fun hf => ?_
  rcases hi with rfl | rfl
  · rw [replyTo, encEncodeUnit_of_streaming hf] at h
    exact runRsp_ne_alreadyFinalized _ h
  · obtain ⟨-, ⟨hst, -⟩ | ⟨hst, -⟩⟩ := encFinalizeUnit_flushes hf <;> cases hst.symm.trans h

theorem dec_fin_of_alreadyFinalized {i : Instr} (hi : i = .decDecode ∨ i = .decFinalize) {e : Enc} {d : Dec}
    (h : (replyTo i e d).rsp = .alreadyFinalized) : d.fin = true := by
  refine Bool.eq_true_of_not_eq_false fun hf => ?_
  rcases hi with rfl | rfl
  · rw [replyTo, decDecodeUnit_of_streaming hf] at h
    exact runRsp_ne_alreadyFinalized _ h
  · obtain ⟨hst, -⟩ | ⟨hst, -⟩ := decFinalizeUnit_ended Config.decTailPolicy hf <;> cases hst.symm.trans h

/-- Settles O22: R141, from the column of `AlreadyFinalized` and the flag of the unit that gives it. -/
theorem alreadyFinalizedHasNoSideEffect : Obligations.AlreadyFinalizedHasNoSideEffect := by
  refine ⟨rfl, fun s hf => ⟨exec_encEncode_of_fin hf, exec_encFinalize_of_fin hf⟩,
    fun s hf => ⟨exec_decDecode_of_fin hf, exec_decFinalize_of_fin hf⟩, fun i s t h ha => ?_⟩
  have hreply := congrArg Reply.rsp ((answered_iff h _).1 ha)
  rcases (mayAnswer_of_stream (.inr rfl)).1 (mayAnswer_of_reply h ha) with hi | hi
  · exact .inl ⟨hi, enc_fin_of_alreadyFinalized hi hreply⟩
  · exact .inr ⟨hi, dec_fin_of_alreadyFinalized hi hreply⟩

end Sys2Proof.Machine
end

section
/-! `NeedsMoreOutput` (R135, R142): a unit that answers it has a block pending and no room, and there a run stops at
once. -/

namespace Sys2Proof.Machine

open Safety

theorem hasRoom_of_exhausted {v : OutView} (h : v.exhausted = true) : v.hasRoom = false :=
  decide_eq_false (Nat.not_lt.2 (of_decide_eq_true h).ge)

/-! ### `ENC` -/

/-- A Streaming unit with a block pending and no room. -/
structure EncBlocked (e : Enc) : Prop where
  fin : e.fin = false
  pend : e.pend = true
  noRoom : e.out.hasRoom = false

/-- The run command and `FINALIZE` of a Streaming unit answer `NeedsMoreOutput` as soon as the run does (R94, R95). -/
theorem exec_of_encRun_blocked {i : Instr} (hi : i = .encEncode ∨ i = .encFinalize) {s : State} (hf : s.enc.fin = false)
    (hr : (encRun s.enc).1 = .needsMoreOutput) :
    exec i s = .next (respond .needsMoreOutput { s with enc := (encRun s.enc).2 }) := by
  rcases hi with rfl | rfl
  · rw [exec_encEncode_of_streaming hf, hr]
    rfl
  · simp only [exec, execEncFinalize, encFinalizeUnit_of_blocked hf hr]

theorem EncBlocked.exec {i : Instr} (hi : i = .encEncode ∨ i = .encFinalize) {s : State} (hb : EncBlocked s.enc) :
    Machine.exec i s = .next (respond .needsMoreOutput s) := by
  have hrun := encRun_of_no_room hb.pend hb.noRoom
  rw [exec_of_encRun_blocked hi hb.fin (by rw [hrun]), hrun]

/-- A unit that answers `NeedsMoreOutput` is left blocked. -/
theorem encBlocked_of_needsMoreOutput {i : Instr} (hi : i = .encEncode ∨ i = .encFinalize) {k : Nat} {e : Enc} {d : Dec}
    (h : (replyTo i e d).rsp = .needsMoreOutput) : EncBlocked (encAfter i k e) := by
  cases hf : e.fin with
  | true =>
    rcases hi with rfl | rfl <;> simp [replyTo, encEncodeUnit_of_fin hf, encFinalizeUnit_of_fin hf] at h
  | false =>
    rcases hi with rfl | rfl
    · rw [replyTo, encEncodeUnit_of_streaming hf] at h
      rw [encAfter, encEncodeUnit_of_streaming hf]
      obtain ⟨-, hp, hr⟩ | ⟨hst, -⟩ := encRun_stopped e
      · exact ⟨(encRun_keeps e).fin.trans hf, hp, hr⟩
      · cases (congrArg runRsp hst).symm.trans h
    · obtain ⟨-, ⟨-, hf', hp, hr⟩ | ⟨hst, -⟩⟩ := encFinalizeUnit_flushes hf
      · exact ⟨hf', hp, hr⟩
      · cases hst.symm.trans h

/-- With both views exhausted the run does nothing, and `PEND` decides its status (R135). -/
theorem encRun_of_exhausted {e : Enc} (hin : e.inp.exhausted = true) (hout : e.out.exhausted = true) :
    encRun e = (if e.pend then .needsMoreOutput else .allInputConsumed, e) := by
  cases hp : e.pend with
  | true => exact encRun_of_no_room hp (hasRoom_of_exhausted hout)
  | false => exact encRun_of_no_byte hp (hasByte_of_exhausted hin)

/-- A pending block that the output view cannot take whole is pending after the drain (R91). -/
theorem encDrain_pend_of_room_lt {e : Enc} (hp : e.pend = true) (hroom : e.out.room < 8 - e.ecnt.val) :
    (encDrain e).pend = true := by
  obtain ⟨-, -, -, hpend, -⟩ := encDrainDeliversWhatTheViewAccepts e _ _ _ rfl rfl rfl
  rw [hpend, if_pos hp]
  omega

/-! ### `DEC` -/

/-- A Streaming unit with a block pending and no room. -/
structure DecBlocked (d : Dec) : Prop where
  fin : d.fin = false
  pend : d.pend = true
  noRoom : d.out.hasRoom = false

/-- The run command and `FINALIZE` of a Streaming unit answer `NeedsMoreOutput` as soon as the run does (R114, R115). -/
theorem exec_of_decRun_blocked {i : Instr} (hi : i = .decDecode ∨ i = .decFinalize) {s : State} (hf : s.dec.fin = false)
    (hr : (decRun s.dec).1 = .needsMoreOutput) :
    exec i s = .next (respond .needsMoreOutput { s with dec := (decRun s.dec).2 }) := by
  rcases hi with rfl | rfl
  · rw [exec_decDecode_of_streaming hf, hr]
    rfl
  · simp only [exec, execDecFinalize, decFinalizeUnder, decFinalizeUnit_of_blocked _ hf hr]

theorem DecBlocked.exec {i : Instr} (hi : i = .decDecode ∨ i = .decFinalize) {s : State} (hb : DecBlocked s.dec) :
    Machine.exec i s = .next (respond .needsMoreOutput s) := by
  have hrun := decRun_of_no_room hb.pend hb.noRoom
  rw [exec_of_decRun_blocked hi hb.fin (by rw [hrun]), hrun]

/-- A unit that answers `NeedsMoreOutput` is left blocked. -/
theorem decBlocked_of_needsMoreOutput {i : Instr} (hi : i = .decDecode ∨ i = .decFinalize) {k : Nat} {e : Enc} {d : Dec}
    (h : (replyTo i e d).rsp = .needsMoreOutput) : DecBlocked (decAfter i k d) := by
  cases hf : d.fin with
  | true =>
    rcases hi with rfl | rfl <;> simp [replyTo, decDecodeUnit_of_fin hf, decFinalizeUnit_of_fin _ hf] at h
  | false =>
    rcases hi with rfl | rfl
    · rw [replyTo, decDecodeUnit_of_streaming hf] at h
      rw [decAfter, decDecodeUnit_of_streaming hf]
      obtain ⟨-, hp, hr⟩ | ⟨hst, -⟩ := decRun_stopped d
      · exact ⟨(decRun_keeps d).fin.trans hf, hp, hr⟩
      · cases (congrArg runRsp hst).symm.trans h
    · obtain ⟨-, hf', hp, hr⟩ | ⟨hst, -⟩ := decFinalizeUnit_ended Config.decTailPolicy hf
      · exact ⟨hf', hp, hr⟩
      · cases hst.symm.trans h

/-- With both views exhausted the run does nothing, and `PEND` decides its status (R135). -/
theorem decRun_of_exhausted {d : Dec} (hin : d.inp.exhausted = true) (hout : d.out.exhausted = true) :
    decRun d = (if d.pend then .needsMoreOutput else .allInputConsumed, d) := by
  cases hp : d.pend with
  | true => exact decRun_of_no_room hp (hasRoom_of_exhausted hout)
  | false => exact decRun_of_no_byte hp (hasByte_of_exhausted hin)

theorem decRun_of_blocked {d : Dec} (h : (decDrain d).pend = true) : decRun d = (.needsMoreOutput, decDrain d) := by
  rw [decRun_eq, if_pos h]

/-- A pending block that the output view cannot take whole is pending after the drain (R111). -/
theorem decDrain_pend_of_room_lt {d : Dec} (ho : DecOwes d) (hp : d.pend = true)
    (hroom : d.out.room < d.rlim.val - d.rcnt.val) : (decDrain d).pend = true := by
  obtain ⟨-, -, -, hpend, -⟩ := decDrainDeliversWhatTheViewAccepts d _ _ _ ho rfl rfl rfl
  rw [hpend, if_pos hp]
  omega

/-! ### The statements -/

/-- Settles O24: R142, since the command leaves its unit blocked, and of a blocked unit it changes nothing. -/
theorem repeatingAStarvedCommandChangesNothing : Obligations.RepeatingAStarvedCommandChangesNothing := by
  intro i s t h ha
  obtain ⟨he, hd, -, -⟩ := exec_next h
  have hreply := congrArg Reply.rsp ((answered_iff h _).1 ha)
  rcases (mayAnswer_of_stream (.inl rfl)).1 (mayAnswer_of_reply h ha) with hi | hi
  · exact EncBlocked.exec hi (he ▸ encBlocked_of_needsMoreOutput hi hreply)
  · exact DecBlocked.exec hi (hd ▸ decBlocked_of_needsMoreOutput hi hreply)

/-- Settles O25: R135, R93 and R113; a run with both views exhausted does nothing, and one that cannot deliver its
pending block is a drain, which leaves the input side as it is. -/
theorem pendingBytesDecideTheStatus : Obligations.PendingBytesDecideTheStatus := by
  refine ⟨fun s hf hin hout => ?_, fun s hf hin hout => ?_, fun i s hi hf hp hroom => ?_,
    fun i s hi hinv hf hp hroom => ?_⟩
  · have hrun := encRun_of_exhausted hin hout
    refine ⟨_, exec_encEncode_of_streaming hf, ?_, by rw [hrun]; rfl⟩
    rw [hrun, apply_ite runRsp]
    rfl
  · have hrun := decRun_of_exhausted hin hout
    refine ⟨_, exec_decDecode_of_streaming hf, ?_, by rw [hrun]; rfl⟩
    rw [hrun, apply_ite runRsp]
    rfl
  · have hrun := encRun_of_blocked (encDrain_pend_of_room_lt hp hroom)
    obtain ⟨hin, hrs, -, -⟩ := encDrain_staging s.enc
    refine ⟨_, exec_of_encRun_blocked hi hf (by rw [hrun]), rfl, ?_⟩
    rw [hrun]
    exact ⟨hin, hrs⟩
  · have hrun := decRun_of_blocked (decDrain_pend_of_room_lt hinv.pendingOwes hp hroom)
    obtain ⟨hin, hes, -, -⟩ := decDrain_staging s.dec
    refine ⟨_, exec_of_decRun_blocked hi hf (by rw [hrun]), rfl, ?_⟩
    rw [hrun]
    exact ⟨hin, hes⟩

end Sys2Proof.Machine
end

section
/-! Reset of the block (spec 70_reset_and_hazards.md R150, R151). -/

namespace Sys2Proof.Machine

open Safety

/-! ### The reset values (R25, R151) -/

theorem reset_enc_fresh : FreshEnc State.reset.enc := ⟨rfl, rfl, rfl, rfl, rfl, rfl⟩

theorem reset_dec_fresh : FreshDec State.reset.dec := ⟨rfl, rfl, rfl, rfl, rfl, rfl, rfl⟩

/-! ### `INIT` and a block reset (R80, R150) -/

theorem exec_encInit (s : State) : exec .encInit s = .next (respond .done (constructEnc s)) := rfl

theorem exec_decInit (s : State) : exec .decInit s = .next (respond .done (constructDec s)) := rfl

/-- Construction reads no response, so the two `INIT`s leave what a reset leaves and two responses `Done` (R80). -/
theorem bothInits_eq_blockReset (s : State) :
    respond .done (constructDec (respond .done (constructEnc s))) =
      { blockReset s with replies := s.replies ++ [⟨.done, none⟩] ++ [⟨.done, none⟩] } := rfl

/-! ### The statements -/

/-- Settles O43: R151, the table of R25 at reset for each unit. -/
theorem resetLeavesBothUnitsConstructed : Obligations.ResetLeavesBothUnitsConstructed :=
  ⟨reset_enc_fresh, reset_dec_fresh⟩

/-- Settles O44: R150, a reset step and both `INIT`s constructing the same two units. -/
theorem blockResetIsBothInits : Obligations.BlockResetIsBothInits := by
  intro s t u v rest hs ht hu hv
  cases (step_of_reset hs).symm.trans ht
  cases (exec_encInit _).symm.trans hu
  cases (exec_decInit _).symm.trans hv
  rw [bothInits_eq_blockReset]
  rfl

end Sys2Proof.Machine
end
